-- ==== Sys2Proof/Word.lean ====
section
/-! DEFINITION. The machine's words: one name per width of 00_scope.md rule R5, and bit strings (rule R7). -/

namespace Sys2Proof

/-- A command or response word, `CMD_W` = 64 bits; bit 0 is the least significant (R6). -/
abbrev Word := BitVec 64

/-- Eight bits: a packed byte, an opcode, or the `A` field of a command (R81). -/
abbrev Byte := BitVec 8

/-- A symbol: its code point as an unsigned `SYM_W` = 8 bit number (R5). -/
abbrev Sym := BitVec 8

/-- The count of a leaf, `CNT_W` = 32 bits (R23). -/
abbrev Count := BitVec 32

/-- The count of a group, `GCNT_W` = 40 bits (R25). -/
abbrev GCount := BitVec 40

/-- A symbol counter, `SCNT_W` = 48 bits (R29, R30). -/
abbrev SCount := BitVec 48

/-- The payload length in bits, `BLEN_W` = 56 bits (R29). -/
abbrev BitLen := BitVec 56

/-- The number of a group, 8 bits; 255 names nothing (R24). -/
abbrev GroupNo := BitVec 8

/-- A bit string in reading order: the head of the list is the first bit (R7). -/
abbrev BitString := List Bool

end Sys2Proof
end

