-- ==== Sys2Proof/Config.lean ====
section
/-! DEFINITION. What an instance of the hardware fixes: the parameters of 00_scope.md rule R5 at their instance
values, and the one algorithmic parameter of 92_eei_decisions.md, `swap_children`. The spec leaves no value
of the core open (93_implementation_defined.md), so there is no free value here. -/

namespace Sys2Proof

/-- The parameters of rule R5, by the rule's own names. -/
structure Params where
  /-- `SYM_W`: bits in a symbol -/
  symW : Nat
  /-- `NSYM`: alphabet capacity -/
  nsym : Nat
  /-- `CNT_W`: bits in a leaf's count -/
  cntW : Nat
  /-- `GCNT_W`: bits in a group's count -/
  gcntW : Nat
  /-- `NGRP`: group table capacity -/
  ngrp : Nat
  /-- `MAXLEN`: longest possible code in bits -/
  maxLen : Nat
  /-- `LEN_W`: bits in a code length -/
  lenW : Nat
  /-- `NREF_W`: bits in a node reference -/
  nrefW : Nat
  /-- `SCNT_W`: bits in a symbol counter -/
  scntW : Nat
  /-- `BLEN_W`: bits in the payload length -/
  blenW : Nat
  /-- `CMD_W`: bits in a command or response word -/
  cmdW : Nat
  deriving DecidableEq, Repr

/-- The instance values of rule R5. The widths of `Word.lean` and the table sizes of `Machine/State.lean` are these
numbers, written out; `Tests/Slice0.lean` compares them. -/
def Config.params : Params where
  symW := 8
  nsym := 256
  cntW := 32
  gcntW := 40
  ngrp := 255
  maxLen := 255
  lenW := 8
  nrefW := 9
  scntW := 48
  blenW := 56
  cmdW := 64

/-- `swap_children` of 92_eei_decisions.md (D9, D10), at its default: the children of a merge keep list order
(41_tree_builder.md rules R117, R119). -/
def Config.swapChildren : Bool := false

end Sys2Proof
end

