-- ==== Sys2Proof/Syntax.lean ====
section
/-! DEFINITION. The 17 commands of 30_encoding.md rule R84, one constructor per row of spec/opcode_table.json, with
the operands of rule R82 at their exact widths; and the pseudo-instructions of rule R89 with their expansions. -/

namespace Sys2Proof

/-- A command (R2, R84). Every operand is an unsigned field taken as it stands (R82). -/
inductive Instr where
  /-- NOP (R160) -/
  | nop
  /-- CLEAR (R161) -/
  | clear
  /-- FREQ_SYM `sym` (R101) -/
  | freqSym (sym : Sym)
  /-- FREQ_LOAD `sym`, `count` (R102) -/
  | freqLoad (sym : Sym) (count : Count)
  /-- TB_BUILD (R113) -/
  | tbBuild
  /-- CT_GEN (R130) -/
  | ctGen
  /-- ENC_START (R140) -/
  | encStart
  /-- ENC_SYM `sym` (R141) -/
  | encSym (sym : Sym)
  /-- ENC_END (R142) -/
  | encEnd
  /-- DEC_START `N` (R150) -/
  | decStart (n : SCount)
  /-- DEC_BYTE `byte` (R151) -/
  | decByte (byte : Byte)
  /-- DEC_END (R153) -/
  | decEnd
  /-- RD_CSR `idx` (R162) -/
  | rdCsr (idx : Byte)
  /-- RD_FREQ `sym` (R103) -/
  | rdFreq (sym : Sym)
  /-- RD_GROUP `k` (R123) -/
  | rdGroup (k : GroupNo)
  /-- RD_CLEN `sym` (R135) -/
  | rdClen (sym : Sym)
  /-- RD_CODE `sym`, `chunk` (R136) -/
  | rdCode (sym : Sym) (chunk : BitVec 2)
  deriving DecidableEq, Repr

/-- The pseudo-instructions of rule R89. None has an encoding of its own. -/
inductive Pseudo where
  | build
  | freqText (text : List Sym)
  | encText (text : List Sym)
  | decBytes (n : SCount) (bytes : List Byte)
  | rdStatus
  | rdErr
  | compress (text : List Sym)
  deriving DecidableEq, Repr

/-- The fixed sequence of commands a pseudo-instruction stands for (R89). -/
def Pseudo.expand : Pseudo → List Instr
  | .build => [.tbBuild, .ctGen]
  | .freqText text => text.map .freqSym
  | .encText text => .encStart :: text.map .encSym ++ [.encEnd]
  | .decBytes n bytes => .decStart n :: bytes.map .decByte ++ [.decEnd]
  | .rdStatus => [.rdCsr 0x01]
  | .rdErr => [.rdCsr 0x02]
  | .compress text =>
      .clear :: text.map .freqSym ++ [.tbBuild, .ctGen, .encStart] ++ text.map .encSym ++ [.encEnd]

end Sys2Proof
end

