-- ==== Sys2Proof/WellFormed.lean ====
section
/-! DEFINITION. What is well formed, as decidable checks: a set of parameters (00_scope.md rule R5), and a command
word against the opcode table (30_encoding.md rules R83 to R85), whose rows stand here as the spec prints them.
An `Instr` needs no check of its own: the type of each operand is its field of rule R82, so every term is a
command the encoding can express; what can be ill formed is a WORD. -/

namespace Sys2Proof

/-- The constraints of rule R5 on the parameters. -/
def Params.wellFormed (p : Params) : Bool :=
  decide (1 ≤ p.symW ∧ p.symW ≤ 8) && (p.nsym == 2 ^ p.symW) && decide (1 ≤ p.cntW ∧ p.cntW ≤ 32)
    && (p.gcntW == p.cntW + p.symW) && (p.ngrp == p.nsym - 1) && (p.maxLen == p.nsym - 1)
    && decide (p.maxLen < 2 ^ p.lenW) && (p.nrefW == p.symW + 1) && (p.scntW == 48)
    && (p.blenW == p.scntW + p.lenW) && (p.cmdW == 64)

/-- One row of rule R84: a word `w` is the row's command exactly when `w AND mask = match`. -/
structure OpRow where
  mnemonic : String
  pattern : Word
  mask : Word
  deriving DecidableEq, Repr

/-- The test of rule R84: `w AND mask = match`. -/
def OpRow.holds (r : OpRow) (w : Word) : Bool := (w &&& r.mask) == r.pattern

/-- The opcode table of rule R84, row for row. -/
def opTable : List OpRow :=
  [ ⟨"NOP", 0x0000000000000000, 0xFFFFFFFFFFFFFFFF⟩,
    ⟨"CLEAR", 0x0100000000000000, 0xFFFFFFFFFFFFFFFF⟩,
    ⟨"FREQ_SYM", 0x1000000000000000, 0xFF00FFFFFFFFFFFF⟩,
    ⟨"FREQ_LOAD", 0x1100000000000000, 0xFF00FFFF00000000⟩,
    ⟨"TB_BUILD", 0x2000000000000000, 0xFFFFFFFFFFFFFFFF⟩,
    ⟨"CT_GEN", 0x2100000000000000, 0xFFFFFFFFFFFFFFFF⟩,
    ⟨"ENC_START", 0x3000000000000000, 0xFFFFFFFFFFFFFFFF⟩,
    ⟨"ENC_SYM", 0x3100000000000000, 0xFF00FFFFFFFFFFFF⟩,
    ⟨"ENC_END", 0x3200000000000000, 0xFFFFFFFFFFFFFFFF⟩,
    ⟨"DEC_START", 0x4000000000000000, 0xFFFF000000000000⟩,
    ⟨"DEC_BYTE", 0x4100000000000000, 0xFF00FFFFFFFFFFFF⟩,
    ⟨"DEC_END", 0x4200000000000000, 0xFFFFFFFFFFFFFFFF⟩,
    ⟨"RD_CSR", 0x5000000000000000, 0xFF00FFFFFFFFFFFF⟩,
    ⟨"RD_FREQ", 0x5100000000000000, 0xFF00FFFFFFFFFFFF⟩,
    ⟨"RD_GROUP", 0x5200000000000000, 0xFF00FFFFFFFFFFFF⟩,
    ⟨"RD_CLEN", 0x5300000000000000, 0xFF00FFFFFFFFFFFF⟩,
    ⟨"RD_CODE", 0x5400000000000000, 0xFF00FFFFFFFFFFFC⟩ ]

/-- A legal encoding: a word that matches a row of the table; any other word is illegal (R85). -/
def legalWord (w : Word) : Bool := opTable.any (OpRow.holds · w)

/-- The row of the table a command belongs to: its place in `opTable`, by mnemonic. -/
def Instr.mnemonic : Instr → String
  | .nop => "NOP"
  | .clear => "CLEAR"
  | .freqSym _ => "FREQ_SYM"
  | .freqLoad _ _ => "FREQ_LOAD"
  | .tbBuild => "TB_BUILD"
  | .ctGen => "CT_GEN"
  | .encStart => "ENC_START"
  | .encSym _ => "ENC_SYM"
  | .encEnd => "ENC_END"
  | .decStart _ => "DEC_START"
  | .decByte _ => "DEC_BYTE"
  | .decEnd => "DEC_END"
  | .rdCsr _ => "RD_CSR"
  | .rdFreq _ => "RD_FREQ"
  | .rdGroup _ => "RD_GROUP"
  | .rdClen _ => "RD_CLEN"
  | .rdCode _ _ => "RD_CODE"

end Sys2Proof
end

