-- ==== Sys2Proof/Decode.lean ====
section
/-! DEFINITION. The fields of format C (30_encoding.md rule R81), the decoder, total on every 64-bit word and
refusing by name (R83 to R87), the encoder after it, and the host's view of the decoder. -/

namespace Sys2Proof

/-- Field `OP`, bits 63:56 (R81). -/
def opField (w : Word) : Byte := w.extractLsb' 56 8

/-- Field `A`, bits 55:48 (R81). -/
def aField (w : Word) : Byte := w.extractLsb' 48 8

/-- Field `B`, bits 47:0 (R81). -/
def bField (w : Word) : BitVec 48 := w.extractLsb' 0 48

/-- Why a word is an illegal encoding (R85). -/
inductive Reject where
  /-- the opcode is not in the table: reserved, neither a hint nor a no-op (R86) -/
  | reservedOpcode (op : Byte)
  /-- the opcode is listed, but a must-be-zero bit of that command is set (R83) -/
  | mustBeZero (mnemonic : String)
  deriving DecidableEq, Repr

/-- The command `i` when its must-be-zero bits are zero, else the refusal under the command's name (R83). -/
def whenZero (ok : Bool) (i : Instr) : Except Reject Instr :=
  if ok then .ok i else .error (.mustBeZero i.mnemonic)

/-- The decoder (R82, R84, R85). It looks at the word alone: no phase and no other state changes it (R87). -/
def decode (w : Word) : Except Reject Instr :=
  let a := aField w
  let b := bField w
  match (opField w).toNat with
  | 0x00 => whenZero (a == 0 && b == 0) .nop
  | 0x01 => whenZero (a == 0 && b == 0) .clear
  | 0x10 => whenZero (b == 0) (.freqSym a)
  | 0x11 => whenZero (b.extractLsb' 32 16 == 0) (.freqLoad a (b.extractLsb' 0 32))
  | 0x20 => whenZero (a == 0 && b == 0) .tbBuild
  | 0x21 => whenZero (a == 0 && b == 0) .ctGen
  | 0x30 => whenZero (a == 0 && b == 0) .encStart
  | 0x31 => whenZero (b == 0) (.encSym a)
  | 0x32 => whenZero (a == 0 && b == 0) .encEnd
  | 0x40 => whenZero (a == 0) (.decStart b)
  | 0x41 => whenZero (b == 0) (.decByte a)
  | 0x42 => whenZero (a == 0 && b == 0) .decEnd
  | 0x50 => whenZero (b == 0) (.rdCsr a)
  | 0x51 => whenZero (b == 0) (.rdFreq a)
  | 0x52 => whenZero (b == 0) (.rdGroup a)
  | 0x53 => whenZero (b == 0) (.rdClen a)
  | 0x54 => whenZero (b.extractLsb' 2 46 == 0) (.rdCode a (b.extractLsb' 0 2))
  | _ => .error (.reservedOpcode (opField w))

/-- The opcode of a command (R84). -/
def Instr.op : Instr → Byte
  | .nop => 0x00
  | .clear => 0x01
  | .freqSym _ => 0x10
  | .freqLoad _ _ => 0x11
  | .tbBuild => 0x20
  | .ctGen => 0x21
  | .encStart => 0x30
  | .encSym _ => 0x31
  | .encEnd => 0x32
  | .decStart _ => 0x40
  | .decByte _ => 0x41
  | .decEnd => 0x42
  | .rdCsr _ => 0x50
  | .rdFreq _ => 0x51
  | .rdGroup _ => 0x52
  | .rdClen _ => 0x53
  | .rdCode _ _ => 0x54

/-- The `A` field of a command's word: its symbol, byte, group number or CSR index, else zero (R82, R83). -/
def Instr.a : Instr → Byte
  | .nop => 0
  | .clear => 0
  | .freqSym sym => sym
  | .freqLoad sym _ => sym
  | .tbBuild => 0
  | .ctGen => 0
  | .encStart => 0
  | .encSym sym => sym
  | .encEnd => 0
  | .decStart _ => 0
  | .decByte byte => byte
  | .decEnd => 0
  | .rdCsr idx => idx
  | .rdFreq sym => sym
  | .rdGroup k => k
  | .rdClen sym => sym
  | .rdCode sym _ => sym

/-- The `B` field of a command's word: a count, `N` or a chunk number, zero-extended, else zero (R82, R83). -/
def Instr.b : Instr → BitVec 48
  | .nop => 0
  | .clear => 0
  | .freqSym _ => 0
  | .freqLoad _ count => count.zeroExtend 48
  | .tbBuild => 0
  | .ctGen => 0
  | .encStart => 0
  | .encSym _ => 0
  | .encEnd => 0
  | .decStart n => n
  | .decByte _ => 0
  | .decEnd => 0
  | .rdCsr _ => 0
  | .rdFreq _ => 0
  | .rdGroup _ => 0
  | .rdClen _ => 0
  | .rdCode _ chunk => chunk.zeroExtend 48

/-- Format C: `{OP, A, B}` (R81). -/
def formatC (op a : Byte) (b : BitVec 48) : Word := op ++ a ++ b

/-- The word of a command (R80 to R84). -/
def encode (i : Instr) : Word := formatC i.op i.a i.b

/-- The host's view of the decoder: the command in an opcode-table row's bits. A command is one 64-bit word (R80) and
bit 0 of the row is bit 0 of the word (R6), so the bits are the word itself; bits above `nbits` are zero. -/
def decodeTableWord (nbits w : Nat) : Option Instr :=
  match decode (BitVec.ofNat 64 (w % 2 ^ nbits)) with
  | .ok i => some i
  | .error _ => none

end Sys2Proof
end

