-- ==== Sys2Proof/Machine/State.lean ====
section
/-! DEFINITION. The state record of 10_state.md rule R20 as plain data, the host's pending inputs beside it, the
reset state of rule R51, and the two ways a step could stop outside the spec's own fault mechanism. -/

namespace Sys2Proof.Machine

/-- `PHASE` (R36). The values 5 and 6 are never taken and have no constructor (R165 allows it). -/
inductive Phase where
  | freq
  | tree
  | ready
  | enc
  | dec
  | fault
  deriving DecidableEq, Repr

/-- The 3-bit value of `PHASE` (R36). -/
def Phase.code : Phase → BitVec 3
  | .freq => 0
  | .tree => 1
  | .ready => 2
  | .enc => 3
  | .dec => 4
  | .fault => 7

/-- The fault causes of 60_exceptions.md rule R170; its reserved codes 9..255 are never recorded and have no
constructor. -/
inductive FaultCode where
  /-- 0: no fault recorded -/
  | none
  /-- 1: reserved for the host, never raised by the core (R171) -/
  | ioError
  /-- 2 (R172) -/
  | emptyInput
  /-- 3 (R173) -/
  | missingCode
  /-- 4 (R174) -/
  | truncatedStream
  /-- 5 (R175) -/
  | illegalCmd
  /-- 6 (R176) -/
  | sequence
  /-- 7 (R177) -/
  | countOverflow
  /-- 8 (R179) -/
  | trailingData
  deriving DecidableEq, Repr

/-- The 8-bit `ERR.code` of a cause (R170). -/
def FaultCode.code : FaultCode → Byte
  | .none => 0
  | .ioError => 1
  | .emptyInput => 2
  | .missingCode => 3
  | .truncatedStream => 4
  | .illegalCmd => 5
  | .sequence => 6
  | .countOverflow => 7
  | .trailingData => 8

/-- A node reference, `NREF` (R24): the leaf of a symbol, or a group by its number. -/
inductive NRef where
  | leaf (sym : Sym)
  | group (k : GroupNo)
  deriving DecidableEq, Repr

/-- The 9-bit value of a node reference: tag bit 8, index 7:0 (R24). -/
def NRef.bits : NRef → BitVec 9
  | .leaf sym => 0#1 ++ sym
  | .group k => 1#1 ++ k

/-- The node reference a 9-bit value names (R24). -/
def NRef.ofBits (v : BitVec 9) : NRef :=
  if v.getLsbD 8 then .group (v.extractLsb' 0 8) else .leaf (v.extractLsb' 0 8)

/-- One entry of `GT` (R25). -/
structure Group where
  count : GCount
  c0 : NRef
  c1 : NRef
  deriving DecidableEq, Repr

/-- A zero entry of `GT`: count 0 and both references 0, the number of `Leaf(0)` (R24, R51). -/
def Group.zero : Group := ⟨0, .leaf 0, .leaf 0⟩

/-- `ROOT` (R26). -/
structure RootReg where
  valid : Bool
  ref : NRef
  deriving DecidableEq, Repr

/-- One entry of `CT` (R28). The spec's `len` is the length of `bits`, so it is computed from it and not stored a
second time. -/
structure CodeEntry where
  valid : Bool
  bits : BitString
  deriving DecidableEq, Repr

/-- An entry with no code: valid 0, len 0, bits "" (R28, R51). -/
def CodeEntry.zero : CodeEntry := ⟨false, []⟩

/-- The fault record `ERR` (R31). -/
structure ErrRecord where
  code : FaultCode
  op : Byte
  a : Byte
  aux : Byte
  phaseAt : Phase
  bitpos : BitVec 3
  deriving DecidableEq, Repr

/-- `ERR` with all fields zero: no fault (R31, R51). -/
def ErrRecord.zero : ErrRecord := ⟨.none, 0, 0, 0, .freq, 0⟩

/-- What the environment can do to the core, in the order it does it (R20, R32, R200). The queue of these inputs is the
MODEL's own field: the command stream is the host's (R33), and a step function needs it as data. -/
inductive HostEvent where
  /-- the host presents a word on the command channel (R2, R66) -/
  | cmd (w : Word)
  /-- reset between two commands (R200) -/
  | reset
  /-- reset in place of completing the command of this word: the command is abandoned (R200) -/
  | resetDuring (w : Word)
  /-- the host takes the front item of `RSP`, if there is one (R32, R62) -/
  | takeRsp
  /-- the host takes the front item of `OUTB`, if there is one (R32, R62) -/
  | takeOutb
  /-- the host takes the front item of `OUTS`, if there is one (R32, R62) -/
  | takeOuts
  deriving DecidableEq, Repr

/-- The whole state of the core, the record of rule R20 element for element, and after it the host's pending inputs. -/
structure State where
  /-- `PHASE` (R36) -/
  phase : Phase
  /-- `FT`, the frequency table, by symbol (R23) -/
  ft : Vector Count 256
  /-- `GT`, the group table, by group number (R25) -/
  gt : Vector Group 255
  /-- `NGROUPS`, 0..255 (R26) -/
  ngroups : BitVec 8
  /-- `ALPHA`, 0..256 (R26) -/
  alpha : BitVec 9
  /-- `ROOT` (R26) -/
  root : RootReg
  /-- `TREE_VALID` (R35) -/
  treeValid : Bool
  /-- `PL`, the priority list, highest priority first (R27) -/
  pl : List NRef
  /-- `CT`, the code table, by symbol (R28) -/
  ct : Vector CodeEntry 256
  /-- `CT_VALID` (R35) -/
  ctValid : Bool
  /-- `EPEND` (R29) -/
  epend : BitString
  /-- `ENC_SYMCNT` (R29) -/
  encSymcnt : SCount
  /-- `ENC_BITLEN` (R29) -/
  encBitlen : BitLen
  /-- `DACC` (R30) -/
  dacc : BitString
  /-- `DEC_REM` (R30) -/
  decRem : SCount
  /-- `DEC_SYMCNT` (R30) -/
  decSymcnt : SCount
  /-- `ERR` (R31) -/
  err : ErrRecord
  /-- `OUTB`, oldest byte first (R32) -/
  outb : List Byte
  /-- `OUTS`, oldest symbol first (R32) -/
  outs : List Sym
  /-- `RSP`, oldest word first (R32) -/
  rsp : List Word
  /-- the host's pending inputs, next one first: the model's own field, not an element of the core -/
  host : List HostEvent
  deriving DecidableEq, Repr

/-- The state after reset (R51, R201): every element zero or empty, phase FREQ, and no input pending. -/
def State.reset : State where
  phase := .freq
  ft := Vector.replicate 256 0
  gt := Vector.replicate 255 Group.zero
  ngroups := 0
  alpha := 0
  root := ⟨false, .leaf 0⟩
  treeValid := false
  pl := []
  ct := Vector.replicate 256 CodeEntry.zero
  ctValid := false
  epend := []
  encSymcnt := 0
  encBitlen := 0
  dacc := []
  decRem := 0
  decSymcnt := 0
  err := ErrRecord.zero
  outb := []
  outs := []
  rsp := []
  host := []

/-- The ways a step stops with no next state. The spec's own faults are not here: they are next states in phase FAULT
(60_exceptions.md rule R178). -/
inductive Fault where
  /-- Raised by CT_GEN alone, where its walk (R130) never ends or reaches a reference that names nothing (R24): the group
  table holds a cycle or names `Group(255)`. The spec gives that state no outcome, and no run from reset reaches it
  (R122). Safe: the model stops where a claim about what follows could not be justified. -/
  | codeWalkEndless
  deriving DecidableEq, Repr

/-- The refusals of a step. -/
inductive Refusal where
  /-- Raised by an arm of `exec` whose instruction has no meaning yet; no arm does. Safe: the model stops. -/
  | notModelled (mnemonic : String)
  deriving DecidableEq, Repr

end Sys2Proof.Machine
end

