-- ==== Sys2Proof/Machine/Ops.lean ====
section
/-! DEFINITION. The named operations over tables and channels (20_memory.md, 46_laws.md rules R167, R168), the
fault sequence with CLEAR, its only way back, beside it (60_exceptions.md rules R178, R182), and the phase
check every phase-bound command begins with (R176, R180, R181). -/

namespace Sys2Proof.Machine

/-- What a command answers. -/
abbrev Result := Host.Outcome State Fault Refusal

/-- Every symbol, in ascending order of code point. -/
def allSymbols : List Sym := (List.range 256).map (BitVec.ofNat 8)

/-- Read `FT[sym]` (R23); an 8-bit index cannot be out of range (R167). -/
def freqAt (ft : Vector Count 256) (sym : Sym) : Count := ft[sym.toNat]'sym.isLt

/-- Read `CT[sym]` (R28, R167). -/
def codeAt (ct : Vector CodeEntry 256) (sym : Sym) : CodeEntry := ct[sym.toNat]'sym.isLt

/-- Read `GT[k]`; number 255 names nothing (R24, R60). -/
def groupAt? (gt : Vector Group 255) (k : GroupNo) : Option Group := gt[k.toNat]?

/-- Read `GT[k]`, zero where there is no entry (R123: a read of 255 returns 0). -/
def groupAt (gt : Vector Group 255) (k : GroupNo) : Group := (groupAt? gt k).getD Group.zero

/-- `CT[s].len`: the length of the bit string (R28). -/
def CodeEntry.len (e : CodeEntry) : Nat := e.bits.length

/-- Write `FT[sym]` (R101, R102). -/
def State.setFreq (s : State) (sym : Sym) (v : Count) : State :=
  { s with ft := s.ft.set sym.toNat v sym.isLt }

/-- Write `GT[k]` (R117, R119); there is no entry 255 to write (R167). -/
def State.setGroup (s : State) (k : GroupNo) (g : Group) : State :=
  { s with gt := s.gt.setIfInBounds k.toNat g }

/-- Write one entry of a code table (R130). -/
def setCode (ct : Vector CodeEntry 256) (sym : Sym) (e : CodeEntry) : Vector CodeEntry 256 :=
  ct.set sym.toNat e sym.isLt

/-- `emit RSP(w)` (R8, R90). -/
def State.emitRsp (s : State) (w : Word) : State := { s with rsp := s.rsp ++ [w] }

/-- `emit OUTB(b)` for each byte of a list, in order (R8, R64). -/
def State.emitOutb (s : State) (bs : List Byte) : State := { s with outb := s.outb ++ bs }

/-- `emit OUTS(s)` (R8). -/
def State.emitOuts (s : State) (sym : Sym) : State := { s with outs := s.outs ++ [sym] }

/-- The fault sequence `raise Fault(code, aux)` of rule R178, for a command with opcode `op` and field `A` = `a`: the
record is written with `PHASE` as it stands (no command writes `PHASE` before it raises), `PHASE` becomes
FAULT, and nothing else changes. -/
def State.raise (s : State) (op a : Byte) (code : FaultCode) (aux : Byte) (bitpos : BitVec 3) : State :=
  { s with err := ⟨code, op, a, aux, s.phase, bitpos⟩, phase := .fault }

/-- Everything but the three output channels at its reset value (R161, R202): the only command out of phase FAULT
(R182). The host's pending inputs are no element of the core and stay. -/
def State.cleared (s : State) : State :=
  { State.reset with outb := s.outb, outs := s.outs, rsp := s.rsp, host := s.host }

/-- Reset (R200, R201): every element of the core at its reset value, the output channels emptied. -/
def State.wasReset (s : State) : State := { State.reset with host := s.host }

/-- A command legal in phase `p` only, with opcode `op` and field `A` = `a`: ignored in phase FAULT (R181), SEQUENCE in
any other wrong phase (R176), else its own pseudocode `run` (R180). -/
def inPhase (p : Phase) (op a : Byte) (s : State) (run : State → Result) : Result :=
  if s.phase = .fault then .next s
  else if s.phase = p then run s
  else .next (s.raise op a .sequence 0 0)

end Sys2Proof.Machine
end

