-- ==== Sys2Proof/Machine/Operands.lean ====
section
/-! DEFINITION. The operand and result forms: bit strings against bytes and words (20_memory.md rule R63, 43_encoder.md
rule R139, 42_code_assigner.md rules R136, R137), and the response words of the table reads (R103, R123,
R135). -/

namespace Sys2Proof.Machine

/-- The number a bit string spells, its first bit the most significant (R63). -/
def bitsToNat (x : BitString) : Nat := x.foldl (fun v b => 2 * v + b.toNat) 0

/-- A bit string brought to length `n` with zeros on the right (R139). -/
def padTo (n : Nat) (x : BitString) : BitString := x ++ List.replicate (n - x.length) false

/-- `byte8(x)`, the sum of `x[[i]] * 2^(7-i)` (R139). -/
def byte8 (x : BitString) : Byte := BitVec.ofNat 8 (bitsToNat x)

/-- `pad8(x)`: `byte8` after right-padding with zeros to eight bits; 0 for the empty string (R46, R139). -/
def pad8 (x : BitString) : Byte := byte8 (padTo 8 x)

/-- The bits of a packed byte in stream order, bit 7 first (R63). -/
def bitsOfByte (b : Byte) : BitString := [7, 6, 5, 4, 3, 2, 1, 0].map b.getLsbD

/-- `x <p y`: `x` is a proper prefix of `y` (R7). -/
def properPrefix (x y : BitString) : Bool := x.isPrefixOf y && decide (x.length < y.length)

/-- The 64 bits of a code at string positions `64 * chunk` to `64 * chunk + 63`, the first at bit 63, zeros past the
length (R136). -/
def codeChunk (bits : BitString) (chunk : BitVec 2) : Word :=
  BitVec.ofNat 64 (bitsToNat (padTo 64 ((bits.drop (64 * chunk.toNat)).take 64)))

/-- The 256-bit register `CODE` that holds a code in hardware: left-justified, zeros after the last bit (R28, R137). -/
def codeRegister (bits : BitString) : BitVec 256 := BitVec.ofNat 256 (bitsToNat (padTo 256 (bits.take 256)))

/-- The response word of RD_FREQ: the count, zero-extended (R103). -/
def freqWord (c : Count) : Word := c.zeroExtend 64

/-- The response word of RD_GROUP for a used group: `{1, 0b00000, c1, c0, count}` (R123). -/
def groupWord (g : Group) : Word := 1#1 ++ 0#5 ++ g.c1.bits ++ g.c0.bits ++ g.count

/-- The response word of RD_CLEN: `{valid, 0 (55 bits), len}` (R135). -/
def clenWord (e : CodeEntry) : Word := BitVec.ofBool e.valid ++ 0#55 ++ BitVec.ofNat 8 e.len

/-- The response word of RD_CODE; an invalid entry reads 0, its bit string being empty (R28, R136). -/
def codeWord (e : CodeEntry) (chunk : BitVec 2) : Word := codeChunk e.bits chunk

end Sys2Proof.Machine
end

