-- ==== Sys2Proof/Machine/CodeTable.lean ====
section
/-! DEFINITION. The code table generator: CT_GEN, RD_CLEN, RD_CODE (42_code_assigner.md). -/

namespace Sys2Proof.Machine

/-- `visit(n, acc)` (R130): a leaf stores the accumulated string; a group visits its first child with 0 appended and
its second with 1 (R131). `depth` bounds how far down the walk may go; the walk answers nothing where it goes
deeper, or meets a reference that names no group (R24). -/
def visit (gt : Vector Group 255) : Nat → NRef → BitString → Vector CodeEntry 256 → Option (Vector CodeEntry 256)
  | 0, _, _, _ => none
  | _ + 1, .leaf sym, acc, ct => some (setCode ct sym ⟨true, acc⟩)
  | depth + 1, .group k, acc, ct =>
    match groupAt? gt k with
    | none => none
    | some g =>
      match visit gt depth g.c0 (acc ++ [false]) ct with
      | none => none
      | some ct' => visit gt depth g.c1 (acc ++ [true]) ct'

/-- The node a bit string leads to from a node, taking the first child on 0 and the second on 1 (R131, R156); none where
the string goes on below a leaf or meets a reference that names no group. -/
def follow (gt : Vector Group 255) : NRef → BitString → Option NRef
  | n, [] => some n
  | .leaf _, _ :: _ => none
  | .group k, b :: bs =>
    match groupAt? gt k with
    | none => none
    | some g => follow gt (if b then g.c1 else g.c0) bs

/-- The code table of a tree (R130): the code "0" for a tree of one leaf (R132), else the walk from the root. A walk
without a cycle passes at most 255 groups and one leaf, so a depth of 256 cuts off only a walk that never ends. -/
def codeTableOf (gt : Vector Group 255) (root : NRef) : Option (Vector CodeEntry 256) :=
  let empty := Vector.replicate 256 CodeEntry.zero
  match root with
  | .leaf sym => some (setCode empty sym ⟨true, [false]⟩)
  | .group k => visit gt 256 (.group k) [] empty

/-- CT_GEN (R130). -/
def execCtGen (s : State) : Result :=
  inPhase .tree 0x21 0 s fun s =>
    match codeTableOf s.gt s.root.ref with
    | some ct => .next { s with ct := ct, ctValid := true, phase := .ready }
    | none => .fault .codeWalkEndless

/-- RD_CLEN `sym` (R135), in every phase. -/
def execRdClen (sym : Sym) (s : State) : Result := .next (s.emitRsp (clenWord (codeAt s.ct sym)))

/-- RD_CODE `sym`, `chunk` (R136), in every phase. -/
def execRdCode (sym : Sym) (chunk : BitVec 2) (s : State) : Result :=
  .next (s.emitRsp (codeWord (codeAt s.ct sym) chunk))

end Sys2Proof.Machine
end

