-- ==== Sys2Proof/Machine/Decoder.lean ====
section
/-! DEFINITION. The prefix-code decoder, the greedy bit-match machine: DEC_START, DEC_BYTE, DEC_END (44_decoder.md). -/

namespace Sys2Proof.Machine

/-- `inv(x)`, the inverse of the code table (R138): the symbol whose code is exactly `x`. By prefix-freedom there is at
most one; where a table holds the same code twice, which CT_GEN never leaves, the smallest symbol is taken. -/
def codeInverse (ct : Vector CodeEntry 256) (x : BitString) : Option Sym :=
  allSymbols.find? fun sym => (codeAt ct sym).valid && (codeAt ct sym).bits == x

/-- There is a valid code that `x` is a proper prefix of (R152). -/
def insideCode (ct : Vector CodeEntry 256) (x : BitString) : Bool :=
  allSymbols.any fun sym => (codeAt ct sym).valid && properPrefix x (codeAt ct sym).bits

/-- The first branch of `match_step` (R152): the symbol goes out and the counters move. -/
def State.emitDecoded (s : State) (sym : Sym) : State :=
  { s.emitOuts sym with dacc := [], decRem := s.decRem - 1, decSymcnt := s.decSymcnt + 1 }

/-- The loop of rule R151 over the bit positions still to be taken, with `match_step` (R152) as its body: it leaves when
`DEC_REM` is 0, and a MISSING_CODE at position `i` keeps all that earlier bits did (R184). -/
def decodeBits (byte : Byte) : List Nat → State → State
  | [], s => s
  | i :: is, s =>
    if s.decRem = 0 then s
    else
      let acc := s.dacc ++ [byte.getLsbD i]
      match codeInverse s.ct acc with
      | some sym => decodeBits byte is ({ s with dacc := acc }.emitDecoded sym)
      | none =>
        if insideCode s.ct acc then decodeBits byte is { s with dacc := acc }
        else { s with dacc := acc }.raise 0x41 byte .missingCode (BitVec.ofNat 8 acc.length) (BitVec.ofNat 3 i)

/-- DEC_START `N` (R150). -/
def execDecStart (n : SCount) (s : State) : Result :=
  inPhase .ready 0x40 0 s fun s => .next { s with dacc := [], decRem := n, decSymcnt := 0, phase := .dec }

/-- DEC_BYTE `byte` (R151): TRAILING_DATA when every symbol is out already, else the bits of the byte, bit 7 first. -/
def execDecByte (byte : Byte) (s : State) : Result :=
  inPhase .dec 0x41 byte s fun s =>
    if s.decRem = 0 then .next (s.raise 0x41 byte .trailingData 0 0)
    else .next (decodeBits byte [7, 6, 5, 4, 3, 2, 1, 0] s)

/-- DEC_END (R153): TRUNCATED_STREAM when symbols are still due. -/
def execDecEnd (s : State) : Result :=
  inPhase .dec 0x42 0 s fun s =>
    if s.decRem = 0 then .next { s with phase := .ready }
    else .next (s.raise 0x42 0 .truncatedStream (BitVec.ofNat 8 s.dacc.length) 0)

end Sys2Proof.Machine
end

