-- ==== Sys2Proof/Machine/Encoder.lean ====
section
/-! DEFINITION. The prefix-code encoder, the bit packer: ENC_START, ENC_SYM, ENC_END (43_encoder.md). -/

namespace Sys2Proof.Machine

/-- The loop of rule R141 over the bits of a code, first bit first: each bit joins the pending bits, and eight pending
bits leave as one byte. Answers the bits still pending and the bytes written out, in order. -/
def packBits (pending : BitString) : BitString → BitString × List Byte
  | [] => (pending, [])
  | b :: bs =>
    if (pending ++ [b]).length = 8 then
      ((packBits [] bs).1, byte8 (pending ++ [b]) :: (packBits [] bs).2)
    else packBits (pending ++ [b]) bs

/-- The bytes of a whole payload (R63, R139): consecutive groups of eight bits, the last one padded with zeros. Payload
bit `j` is bit `7 - j mod 8` of byte `j / 8`, and there are `ceil(|x| / 8)` bytes. -/
def packAll (x : BitString) : List Byte :=
  (List.range ((x.length + 7) / 8)).map fun j => pad8 ((x.drop (8 * j)).take 8)

/-- The concatenated codes of a text, in text order (R139). -/
def payload (ct : Vector CodeEntry 256) (text : List Sym) : BitString := text.flatMap fun sym => (codeAt ct sym).bits

/-- ENC_START (R140). -/
def execEncStart (s : State) : Result :=
  inPhase .ready 0x30 0 s fun s =>
    .next { s with epend := [], encSymcnt := 0, encBitlen := 0, phase := .enc }

/-- The effect of ENC_SYM on an accepted symbol (R141): its code is packed and both counters move on. -/
def State.packSymbol (s : State) (e : CodeEntry) : State :=
  { s.emitOutb (packBits s.epend e.bits).2 with
    epend := (packBits s.epend e.bits).1
    encSymcnt := s.encSymcnt + 1
    encBitlen := s.encBitlen + BitVec.ofNat 56 e.len }

/-- ENC_SYM `sym` (R141): MISSING_CODE, then COUNT_OVERFLOW, both before any bit is appended (R180). -/
def execEncSym (sym : Sym) (s : State) : Result :=
  inPhase .enc 0x31 sym s fun s =>
    if (codeAt s.ct sym).valid = false then .next (s.raise 0x31 sym .missingCode 0 0)
    else if s.encSymcnt = BitVec.allOnes 48 then .next (s.raise 0x31 sym .countOverflow 0 0)
    else .next (s.packSymbol (codeAt s.ct sym))

/-- ENC_END (R142): the last partial byte, zero-padded; the two counters stay. -/
def execEncEnd (s : State) : Result :=
  inPhase .enc 0x32 0 s fun s =>
    .next { s.emitOutb (if s.epend.length > 0 then [pad8 s.epend] else []) with epend := [], phase := .ready }

end Sys2Proof.Machine
end

