-- ==== Sys2Proof/Machine/Frequency.lean ====
section
/-! DEFINITION. The frequency table commands FREQ_SYM, FREQ_LOAD, RD_FREQ (40_frequency.md). -/

namespace Sys2Proof.Machine

/-- FREQ_SYM `sym` (R101): count one occurrence; at `2^32 - 1` the fault COUNT_OVERFLOW and the entry unchanged. -/
def execFreqSym (sym : Sym) (s : State) : Result :=
  inPhase .freq 0x10 sym s fun s =>
    if freqAt s.ft sym = BitVec.allOnes 32 then .next (s.raise 0x10 sym .countOverflow 0 0)
    else .next (s.setFreq sym (freqAt s.ft sym + 1))

/-- FREQ_LOAD `sym`, `count` (R102): overwrite the entry; a count of 0 makes the symbol absent. -/
def execFreqLoad (sym : Sym) (count : Count) (s : State) : Result :=
  inPhase .freq 0x11 sym s fun s => .next (s.setFreq sym count)

/-- RD_FREQ `sym` (R103), in every phase. -/
def execRdFreq (sym : Sym) (s : State) : Result := .next (s.emitRsp (freqWord (freqAt s.ft sym)))

end Sys2Proof.Machine
end

