-- ==== Sys2Proof/Machine/Flags.lean ====
section
/-! DEFINITION. The flags that are computed and not stored (10_state.md rule R35), the interrupt line
(60_exceptions.md rule R183), and the CSRs, a read-only window on the state (10_state.md rules R37 to R50).
The core has no arithmetic flags (R35). -/

namespace Sys2Proof.Machine

/-- `ERR_PENDING`: `ERR.code ≠ 0` (R35). -/
def State.errPending (s : State) : Bool := s.err.code != .none

/-- `DEC_DONE`: `PHASE = DEC and DEC_REM = 0` (R35). -/
def State.decDone (s : State) : Bool := s.phase == .dec && s.decRem == 0

/-- The interrupt output `err_irq`, equal to `ERR.code ≠ 0` at all times (R183). -/
def State.errIrq (s : State) : Bool := s.err.code != .none

/-- CSR `ID`, constant (R38). -/
def csrId : Word := 0x0000200848554631

/-- CSR `STATUS` (R39). -/
def csrStatus (s : State) : Word :=
  0#57 ++ BitVec.ofBool s.decDone ++ BitVec.ofBool s.errPending ++ BitVec.ofBool s.ctValid
    ++ BitVec.ofBool s.treeValid ++ s.phase.code

/-- CSR `ERR` (R40). -/
def csrErr (s : State) : Word :=
  0#25 ++ s.err.bitpos ++ 0#1 ++ s.err.phaseAt.code ++ s.err.aux ++ s.err.a ++ s.err.op ++ s.err.code.code

/-- CSR `ALPHA` (R41). -/
def csrAlpha (s : State) : Word := 0#55 ++ s.alpha

/-- CSR `ROOT` (R42). -/
def csrRoot (s : State) : Word := 0#54 ++ BitVec.ofBool s.root.valid ++ s.root.ref.bits

/-- CSR `NGROUPS` (R43). -/
def csrNgroups (s : State) : Word := 0#56 ++ s.ngroups

/-- CSR `ENC_SYMCNT` (R44). -/
def csrEncSymcnt (s : State) : Word := 0#16 ++ s.encSymcnt

/-- CSR `ENC_BITLEN` (R45). -/
def csrEncBitlen (s : State) : Word := 0#8 ++ s.encBitlen

/-- CSR `ENC_PEND` (R46). -/
def csrEncPend (s : State) : Word := 0#48 ++ pad8 s.epend ++ 0#5 ++ BitVec.ofNat 3 s.epend.length

/-- CSR `DEC_REM` (R47). -/
def csrDecRem (s : State) : Word := 0#16 ++ s.decRem

/-- CSR `DEC_SYMCNT` (R48). -/
def csrDecSymcnt (s : State) : Word := 0#16 ++ s.decSymcnt

/-- CSR `DEC_ACCLEN` (R49): only the length of `DACC` is readable. -/
def csrDecAcclen (s : State) : Word := 0#56 ++ BitVec.ofNat 8 s.dacc.length

/-- `csr_word(idx)` (R162): the register of an assigned index, 0 for an unassigned one (R50). -/
def csrWord (s : State) (idx : Byte) : Word :=
  match idx.toNat with
  | 0x00 => csrId
  | 0x01 => csrStatus s
  | 0x02 => csrErr s
  | 0x03 => csrAlpha s
  | 0x04 => csrRoot s
  | 0x05 => csrNgroups s
  | 0x06 => csrEncSymcnt s
  | 0x07 => csrEncBitlen s
  | 0x08 => csrEncPend s
  | 0x09 => csrDecRem s
  | 0x0A => csrDecSymcnt s
  | 0x0B => csrDecAcclen s
  | _ => 0

end Sys2Proof.Machine
end

