-- ==== Sys2Proof/Machine/System.lean ====
section
/-! DEFINITION. The system commands NOP, CLEAR, RD_CSR (45_system.md), legal in every phase. -/

namespace Sys2Proof.Machine

/-- NOP (R160): no effect. -/
def execNop (s : State) : Result := .next s

/-- CLEAR (R161): everything but the output channels at its reset value. -/
def execClear (s : State) : Result := .next s.cleared

/-- RD_CSR `idx` (R162). -/
def execRdCsr (idx : Byte) (s : State) : Result := .next (s.emitRsp (csrWord s idx))

end Sys2Proof.Machine
end

