-- ==== Sys2Proof/Machine/TreeBuilder.lean ====
section
/-! DEFINITION. The Canonical Order, TB_BUILD and RD_GROUP (41_tree_builder.md). -/

namespace Sys2Proof.Machine

/-- `cnt(n)`, the count of a node at group width: `FT[s]` zero-extended for a leaf, `GT[k].count` for a group (R8,
R111). -/
def State.cnt (s : State) : NRef → GCount
  | .leaf sym => (freqAt s.ft sym).zeroExtend 40
  | .group k => (groupAt s.gt k).count

/-- `before(x, y)`, the comparator of rule R111: larger count first; then leaf before group; then larger code point;
then the group created earlier (R112). -/
def State.before (s : State) (x y : NRef) : Bool :=
  if s.cnt x ≠ s.cnt y then decide ((s.cnt x).toNat > (s.cnt y).toNat)
  else
    match x, y with
    | .leaf _, .group _ => true
    | .group _, .leaf _ => false
    | .leaf a, .leaf b => decide (a.toNat > b.toNat)
    | .group j, .group k => decide (j.toNat < k.toNat)

/-- Insert a reference into a list so that the list is again in the Canonical Order (R117, R118): in front of the first
entry it comes before. -/
def State.insertInOrder (s : State) (x : NRef) : List NRef → List NRef
  | [] => [x]
  | y :: ys => if s.before x y then x :: y :: ys else y :: s.insertInOrder x ys

/-- The symbols of the alphabet: those with a count of 1 or more (R9, R23). -/
def present (ft : Vector Count 256) : List Sym := allSymbols.filter fun sym => freqAt ft sym != 0

/-- `L`, the number of symbols with `FT[s] >= 1` (R113). -/
def alphabetSize (ft : Vector Count 256) : Nat := (present ft).length

/-- The initial priority list: the leaves of the alphabet in the Canonical Order (R114). -/
def State.initialList (s : State) : List NRef := ((present s.ft).map NRef.leaf).foldr s.insertInOrder []

/-- A new group of two entries, `x` the one that stood earlier in the list: `c0` is `x` and `c1` is `y` (R117, R119),
unless the parameter `swap_children` is set. -/
def newGroup (count : GCount) (x y : NRef) : Group :=
  if Config.swapChildren then ⟨count, y, x⟩ else ⟨count, x, y⟩

/-- `merge_step` (R117): the last two entries of the list leave it, their group is written at number `NGROUPS` and
inserted in order. -/
def State.mergeStep (s : State) : State :=
  match s.pl.reverse with
  | y :: x :: rest =>
    let k := s.ngroups
    let s1 := s.setGroup k (newGroup (s.cnt x + s.cnt y) x y)
    { s1 with ngroups := k + 1, pl := s1.insertInOrder (.group k) rest.reverse }
  | _ => s

/-- `while |PL| > 2 do merge_step` (R113). Each round shortens the list by one entry, so a fuel of its length is enough
(R122). -/
def mergeWhile : Nat → State → State
  | 0, s => s
  | fuel + 1, s => if s.pl.length > 2 then mergeWhile fuel s.mergeStep else s

/-- `final_merge` (R119): the two entries left become the children of the root group, whose count is 0. -/
def State.finalMerge (s : State) : State :=
  match s.pl with
  | [x, y] =>
    let k := s.ngroups
    { s.setGroup k (newGroup 0 x y) with ngroups := k + 1, pl := [.group k], root := ⟨true, .group k⟩ }
  | _ => s

/-- An alphabet of one symbol: the only entry of the list is the root, and no group is created (R116). -/
def State.singleRoot (s : State) : State :=
  match s.pl with
  | x :: _ => { s with root := ⟨true, x⟩ }
  | [] => s

/-- The initial state of the tree builder: the sorted leaves, and no group (R113, R114). -/
def State.startTree (s : State) : State := { s with pl := s.initialList, ngroups := 0 }

/-- From the initial to the terminal state, for an alphabet of `l ≥ 1` symbols (R113). -/
def State.growTree (s : State) (l : Nat) : State :=
  if l = 1 then s.singleRoot else (mergeWhile s.pl.length s).finalMerge

/-- The whole of TB_BUILD on an alphabet of `l ≥ 1` symbols (R113, R120). -/
def State.buildTree (s : State) (l : Nat) : State :=
  { s.startTree.growTree l with alpha := BitVec.ofNat 9 l, treeValid := true, phase := .tree }

/-- TB_BUILD (R113, R115): EMPTY_INPUT when no symbol is present, else the tree. -/
def execTbBuild (s : State) : Result :=
  inPhase .freq 0x20 0 s fun s =>
    if alphabetSize s.ft = 0 then .next (s.raise 0x20 0 .emptyInput 0 0)
    else .next (s.buildTree (alphabetSize s.ft))

/-- RD_GROUP `k` (R123), in every phase: 0 for `k ≥ NGROUPS`. -/
def execRdGroup (k : GroupNo) (s : State) : Result :=
  if k.toNat < s.ngroups.toNat then .next (s.emitRsp (groupWord (groupAt s.gt k)))
  else .next (s.emitRsp 0)

end Sys2Proof.Machine
end

