-- ==== Sys2Proof/Machine/Dispatch.lean ====
section
/-! DEFINITION. The meaning of every command, one arm per constructor of Instr. -/

namespace Sys2Proof.Machine

def exec (i : Instr) (s : State) : Host.Outcome State Fault Refusal :=
  match i with
  | .nop => Sys2Proof.Machine.execNop s
  | .clear => Sys2Proof.Machine.execClear s
  | .freqSym sym => Sys2Proof.Machine.execFreqSym sym s
  | .freqLoad sym count => Sys2Proof.Machine.execFreqLoad sym count s
  | .tbBuild => Sys2Proof.Machine.execTbBuild s
  | .ctGen => Sys2Proof.Machine.execCtGen s
  | .encStart => Sys2Proof.Machine.execEncStart s
  | .encSym sym => Sys2Proof.Machine.execEncSym sym s
  | .encEnd => Sys2Proof.Machine.execEncEnd s
  | .decStart n => Sys2Proof.Machine.execDecStart n s
  | .decByte byte => Sys2Proof.Machine.execDecByte byte s
  | .decEnd => Sys2Proof.Machine.execDecEnd s
  | .rdCsr idx => Sys2Proof.Machine.execRdCsr idx s
  | .rdFreq sym => Sys2Proof.Machine.execRdFreq sym s
  | .rdGroup k => Sys2Proof.Machine.execRdGroup k s
  | .rdClen sym => Sys2Proof.Machine.execRdClen sym s
  | .rdCode sym chunk => Sys2Proof.Machine.execRdCode sym chunk s

end Sys2Proof.Machine
end

