-- ==== Sys2Proof/Machine/HostEvents.lean ====
section
/-! DEFINITION. What one input of the host does: a command word in the order of checks of 60_exceptions.md rule R180,
reset (70_reset_and_hazards.md rule R200), and the host taking an item from a channel (10_state.md rule R32). -/

namespace Sys2Proof.Machine

/-- An accepted word that is no command (R175, R181, R85): ignored in phase FAULT, else ILLEGAL_CMD with the word's own
`OP` and `A` fields; its low 48 bits are not recorded. -/
def acceptIllegal (w : Word) (s : State) : Result :=
  if s.phase = .fault then .next s else .next (s.raise (opField w) (aField w) .illegalCmd 0 0)

/-- An accepted word (R180): decoded first; a command then makes its own phase check and runs. -/
def acceptWord (w : Word) (s : State) : Result :=
  match decode w with
  | .ok i => exec i s
  | .error _ => acceptIllegal w s

/-- One input of the host. Taking from an empty channel transfers nothing (R62); what is
taken is the host's from then on (`HostEvent.takes` of Run.lean). -/
def hostEvent (e : HostEvent) (s : State) : Result :=
  match e with
  | .cmd w => acceptWord w s
  | .reset => .next s.wasReset
  | .resetDuring _ => .next s.wasReset
  | .takeRsp => .next { s with rsp := s.rsp.tail }
  | .takeOutb => .next { s with outb := s.outb.tail }
  | .takeOuts => .next { s with outs := s.outs.tail }

/-- The next input, where there is one; with none the core idles with its state unchanged (R191). -/
def nextInput (s : State) : Result :=
  match s.host with
  | [] => .next s
  | e :: rest => hostEvent e { s with host := rest }

/-- An input put before every pending one, so that it is the next one taken up. -/
def State.presentInput (s : State) (e : HostEvent) : State := { s with host := e :: s.host }

/-- A word put before every pending input, so that it is the next one presented. -/
def State.presentWord (s : State) (w : Word) : State := s.presentInput (.cmd w)

end Sys2Proof.Machine
end

