-- ==== Sys2Proof/Machine/Step.lean ====
section
/-! DEFINITION. One step of the machine: the host's next input is taken from the queue and has its effect, whole
(20_memory.md rule R66). The core fetches nothing (10_state.md rule R22). -/

namespace Sys2Proof.Machine

/-- One step: the next input of the host (R66, R180, R191, R200). -/
def step (s : State) : Host.Outcome State Fault Refusal := nextInput s

/-- The state in which the host presents an opcode-table row's word next. -/
def State.withFetchWord (s : State) (nbits w : Nat) : State := s.presentWord (BitVec.ofNat 64 (w % 2 ^ nbits))

end Sys2Proof.Machine
end

