-- ==== Sys2Proof/Machine/Run.lean ====
section
/-! DEFINITION. Runs (70_reset_and_hazards.md rule R212): command words applied from a state, what the host takes from the
channels on the way, when a run has ended well, and its result, the three sequences of items taken. -/

namespace Sys2Proof.Machine

/-- A run of command words: each is presented to the core and one step is taken; it stops where a step stops. The
host takes nothing meanwhile. -/
def runWords : List Word → State → Result
  | [], s => .next s
  | w :: ws, s =>
    match step (s.presentWord w) with
    | .next t => runWords ws t
    | .fault r => .fault r
    | .refused r => .refused r

/-- A run of commands, each by its word. -/
def runCommands (is : List Instr) (s : State) : Result := runWords (is.map encode) s

/-- The items the host has taken from each channel, oldest first (R212). They are the host's, not elements of the
core (10_state.md rule R20). -/
structure Taken where
  outb : List Byte
  outs : List Sym
  rsp : List Word
  deriving DecidableEq, Repr

/-- Nothing taken yet. -/
def Taken.none : Taken := ⟨[], [], []⟩

/-- What the host holds after an input that acts on `s`: a taking adds the front item of its channel, where there is one
(10_state.md rule R32); nothing else adds any, and reset loses what was not taken (rule R51). -/
def HostEvent.takes (e : HostEvent) (s : State) (k : Taken) : Taken :=
  match e with
  | .cmd _ => k
  | .reset => k
  | .resetDuring _ => k
  | .takeRsp => { k with rsp := k.rsp ++ s.rsp.take 1 }
  | .takeOutb => { k with outb := k.outb ++ s.outb.take 1 }
  | .takeOuts => { k with outs := k.outs ++ s.outs.take 1 }

/-- A run so far: the core, and what the host has taken. -/
structure Run where
  state : State
  taken : Taken
  deriving DecidableEq, Repr

/-- One input of the host in a run. -/
def Run.input (r : Run) (e : HostEvent) : Host.Outcome Run Fault Refusal :=
  match step (r.state.presentInput e) with
  | .next t => .next ⟨t, e.takes r.state r.taken⟩
  | .fault f => .fault f
  | .refused f => .refused f

/-- A run of inputs, words and takings in any order; it stops where a step stops. -/
def runInputs : List HostEvent → Run → Host.Outcome Run Fault Refusal
  | [], r => .next r
  | e :: es, r =>
    match r.input e with
    | .next r' => runInputs es r'
    | .fault f => .fault f
    | .refused f => .refused f

/-- The takings that empty the three channels of a state. -/
def State.drain (s : State) : List HostEvent :=
  List.replicate s.outb.length .takeOutb ++ List.replicate s.outs.length .takeOuts ++
    List.replicate s.rsp.length .takeRsp

/-- A run of words to its end, after which the host takes everything (R212, R209). -/
def runToEnd (ws : List Word) (s : State) : Host.Outcome Run Fault Refusal :=
  match runInputs (ws.map .cmd) ⟨s, .none⟩ with
  | .next r => runInputs r.state.drain r
  | .fault f => .fault f
  | .refused f => .refused f

/-- What rule R212 asks of the core where a run has ended well: no fault, no session left open, every channel taken
from until it is empty. -/
def State.endedWell (s : State) : Bool :=
  s.err.code == .none && (s.phase == .freq || s.phase == .tree || s.phase == .ready)
    && s.outb.isEmpty && s.outs.isEmpty && s.rsp.isEmpty

/-- The result of a run that has ended well: the three sequences of items taken (R212). -/
def Run.result (r : Run) : Option Taken := if r.state.endedWell then some r.taken else Option.none

end Sys2Proof.Machine
end

