-- ==== Sys2Proof/Safety.lean ====
section
/-! DEFINITION. The terms claims use: the phase table of the commands (46_laws.md rule R165), what a fault and a word are
(60_exceptions.md rules R176, R178, 30_encoding.md rule R84), what holds of a tree (10_state.md rule R53, 41_tree_builder.md
rules R121, R122) and of a code table (42_code_assigner.md rule R133), and the invariant every step keeps. -/

namespace Sys2Proof.Machine

/-- The one phase a command is legal in, by the table of rule R176; none for the commands legal in every phase. -/
def legalPhase : Instr → Option Phase
  | .nop => none
  | .clear => none
  | .freqSym _ => some .freq
  | .freqLoad _ _ => some .freq
  | .tbBuild => some .freq
  | .ctGen => some .tree
  | .encStart => some .ready
  | .encSym _ => some .enc
  | .encEnd => some .enc
  | .decStart _ => some .ready
  | .decByte _ => some .dec
  | .decEnd => some .dec
  | .rdCsr _ => none
  | .rdFreq _ => none
  | .rdGroup _ => none
  | .rdClen _ => none
  | .rdCode _ _ => none

/-- The next phase of a phase-bound command that raises no fault, by the transition table of rule R165; for a command
legal in every phase, the phase it leaves from phase `p`. -/
def successPhase (p : Phase) : Instr → Phase
  | .clear => .freq
  | .tbBuild => .tree
  | .ctGen => .ready
  | .encStart => .enc
  | .encEnd => .ready
  | .decStart _ => .dec
  | .decEnd => .ready
  | .nop => p
  | .freqSym _ => p
  | .freqLoad _ _ => p
  | .encSym _ => p
  | .decByte _ => p
  | .rdCsr _ => p
  | .rdFreq _ => p
  | .rdGroup _ => p
  | .rdClen _ => p
  | .rdCode _ _ => p

/-- The faults a command raises in its own phase, by the table of rule R165. -/
def ownFaults : Instr → List FaultCode
  | .freqSym _ => [.countOverflow]
  | .tbBuild => [.emptyInput]
  | .encSym _ => [.missingCode, .countOverflow]
  | .decByte _ => [.trailingData, .missingCode]
  | .decEnd => [.truncatedStream]
  | .nop => []
  | .clear => []
  | .freqLoad _ _ => []
  | .ctGen => []
  | .encStart => []
  | .encEnd => []
  | .decStart _ => []
  | .rdCsr _ => []
  | .rdFreq _ => []
  | .rdGroup _ => []
  | .rdClen _ => []
  | .rdCode _ _ => []

/-- The command's whole effect is the fault sequence (R178): the record with its own `OP` and `A` and the phase it was
accepted in, phase FAULT, and nothing else. -/
def Raises (i : Instr) (s : State) (code : FaultCode) (aux : Byte) (bitpos : BitVec 3) : Prop :=
  exec i s = .next { s with err := ⟨code, i.op, i.a, aux, s.phase, bitpos⟩, phase := .fault }

/-- What every phase-bound command does outside its phase `p` (R176, R181): ignored in phase FAULT, SEQUENCE elsewhere. -/
def OnlyIn (p : Phase) (i : Instr) : Prop :=
  ∀ s : State, (s.phase = .fault → exec i s = .next s) ∧
    (s.phase ≠ .fault → s.phase ≠ p → Raises i s .sequence 0 0)

/-- The reference names a node of the tree: a leaf of the alphabet, or a group that was created (R24, R53). -/
def IsNode (s : State) : NRef → Prop
  | .leaf sym => freqAt s.ft sym ≠ 0
  | .group k => k.toNat < s.ngroups.toNat

/-- `w` is the word of the command, and no other word is (R81 to R84). -/
def OnlyWord (i : Instr) (w : Word) : Prop := ∀ v : Word, decode v = .ok i ↔ v = w

/-- Every child reference of the groups in use, in group order (R25). -/
def treeChildren (s : State) : List NRef :=
  (List.range s.ngroups.toNat).flatMap fun k =>
    [(groupAt s.gt (BitVec.ofNat 8 k)).c0, (groupAt s.gt (BitVec.ofNat 8 k)).c1]

/-- What holds of the tree tables whenever `TREE_VALID = 1` (R26, R27, R53, R119 to R122). -/
structure TreeShape (s : State) : Prop where
  /-- `ALPHA` is the size of the alphabet (R26) -/
  alpha_eq : s.alpha.toNat = alphabetSize s.ft
  /-- there are `L - 1` groups (R122), and `L ≥ 1` (R115) -/
  groups_eq : s.ngroups.toNat + 1 = alphabetSize s.ft
  /-- `ROOT.valid = 1` (R26) -/
  root_valid : s.root.valid = true
  /-- the root of an alphabet of one symbol is its leaf (R116) -/
  root_single : alphabetSize s.ft = 1 → ∃ sym, freqAt s.ft sym ≠ 0 ∧ s.root.ref = .leaf sym
  /-- the root of a larger alphabet is the last group created (R122) -/
  root_group : 2 ≤ alphabetSize s.ft → s.root.ref = .group (s.ngroups - 1)
  /-- the root is the one entry left in the priority list (R120) -/
  list_root : s.pl = [s.root.ref]
  /-- a group's group children have lower numbers, so the structure has no cycle (R53, R122) -/
  child_lower : ∀ k j : GroupNo, k.toNat < s.ngroups.toNat →
    ((groupAt s.gt k).c0 = .group j ∨ (groupAt s.gt k).c1 = .group j) → j.toNat < k.toNat
  /-- no node is a child twice (R53) -/
  one_parent : (treeChildren s).Nodup
  /-- the children are exactly the nodes other than the root (R53) -/
  child_iff : ∀ n, n ∈ treeChildren s ↔ IsNode s n ∧ n ≠ s.root.ref
  /-- a group but the root carries the exact sum of its children's counts (R117, R121) -/
  counts : ∀ k : GroupNo, k.toNat + 1 < s.ngroups.toNat →
    (groupAt s.gt k).count.toNat = (s.cnt (groupAt s.gt k).c0).toNat + (s.cnt (groupAt s.gt k).c1).toNat
  /-- the root group's count is 0 (R119) -/
  root_count : 0 < s.ngroups.toNat → (groupAt s.gt (s.ngroups - 1)).count = 0
  /-- entries from `NGROUPS` on are zero (R25) -/
  unused_zero : ∀ k : GroupNo, s.ngroups.toNat ≤ k.toNat → groupAt s.gt k = Group.zero

/-- No code of the table is a prefix of another symbol's code (R133 (b)). -/
def PrefixFree (ct : Vector CodeEntry 256) : Prop :=
  ∀ a b, (codeAt ct a).valid = true → (codeAt ct b).valid = true → (codeAt ct a).bits <+: (codeAt ct b).bits → a = b

/-- Every valid code is non-empty (R28). -/
def CodesNonempty (ct : Vector CodeEntry 256) : Prop := ∀ a, (codeAt ct a).valid = true → (codeAt ct a).bits ≠ []

/-- `x` is empty or a proper prefix of a valid code: what `DACC` is between commands (R30). -/
def PartialMatch (ct : Vector CodeEntry 256) (x : BitString) : Prop := x = [] ∨ insideCode ct x = true

/-- The flags against the phase (R35, R36, R74). -/
structure FlagsOk (s : State) : Prop where
  codes_need_tree : s.ctValid = true → s.treeValid = true
  in_freq : s.phase = .freq → s.treeValid = false
  in_tree : s.phase = .tree → s.treeValid = true ∧ s.ctValid = false
  in_session : s.phase = .ready ∨ s.phase = .enc ∨ s.phase = .dec → s.ctValid = true

/-- The fault record against the phase (R31, R171, R178). -/
structure FaultRecordOk (s : State) : Prop where
  fault_iff : s.phase = .fault ↔ s.err.code ≠ .none
  clean : s.err.code = .none → s.err = ErrRecord.zero
  never_io : s.err.code ≠ .ioError
  not_in_fault : s.err.phaseAt ≠ .fault

/-- The tables against their valid flags (R25, R26, R28, R53, R74, R134). -/
structure TablesOk (s : State) : Prop where
  tree : s.treeValid = true → TreeShape s
  no_tree : s.treeValid = false → s.gt = State.reset.gt ∧ s.ngroups = 0 ∧ s.alpha = 0
    ∧ s.root = State.reset.root ∧ s.pl = []
  codes : s.ctValid = true → codeTableOf s.gt s.root.ref = some s.ct
  no_codes : s.ctValid = false → s.ct = State.reset.ct

/-- The encoder's state (R29, R143). -/
structure EncoderOk (s : State) : Prop where
  pending_short : s.epend.length < 8
  pending_enc : s.phase = .enc → s.epend.length = s.encBitlen.toNat % 8
  pending_closed : s.phase ≠ .enc → s.phase ≠ .fault → s.epend = []
  bitlen_bound : s.encBitlen.toNat ≤ 255 * s.encSymcnt.toNat

/-- The decoder's state (R30, R152, R153, R163 row 5). -/
structure DecoderOk (s : State) : Prop where
  total_fits : s.decRem.toNat + s.decSymcnt.toNat < 2 ^ 48
  match_dec : s.phase = .dec → PartialMatch s.ct s.dacc
  match_done : s.phase = .dec → s.decRem = 0 → s.dacc = []
  match_closed : s.phase ≠ .dec → s.phase ≠ .fault → s.dacc = []
  match_short : s.dacc.length ≤ 255

/-- The invariant of the machine: true at reset and kept by every step. -/
structure State.Inv (s : State) : Prop where
  flags : FlagsOk s
  faultRecord : FaultRecordOk s
  tables : TablesOk s
  encoder : EncoderOk s
  decoder : DecoderOk s

end Sys2Proof.Machine
end

