-- ==== Sys2Proof/Certificates/Slice0/Obligations.lean ====
section
/-! DEFINITION. The statements for the provers, from the numbered rules of spec/. A statement of a command's result is an
equation with the next state, so it says where the command completes and what it leaves unchanged. -/

open Sys2Proof Sys2Proof.Machine

/-! ## Encoding -/

/-- Words written out from the fields of rule R81 and the rows of rule R84 decode to the commands they stand for. In the
last two clauses the names of the refusals are the model's choice (log 15); that the two words are illegal is rule R85's. -/
def Obligations.SampleWordsDecode : Prop :=
  decode 0x0000000000000000 = .ok .nop ∧
  decode 0x0100000000000000 = .ok .clear ∧
  decode 0x1061000000000000 = .ok (.freqSym 0x61) ∧
  decode 0x1162000000000003 = .ok (.freqLoad 0x62 3) ∧
  decode 0x2000000000000000 = .ok .tbBuild ∧
  decode 0x2100000000000000 = .ok .ctGen ∧
  decode 0x3162000000000000 = .ok (.encSym 0x62) ∧
  decode 0x4000000000000009 = .ok (.decStart 9) ∧
  decode 0x4180000000000000 = .ok (.decByte 0x80) ∧
  decode 0x500A000000000000 = .ok (.rdCsr 0x0A) ∧
  decode 0x5463000000000003 = .ok (.rdCode 0x63 3) ∧
  decode 0x1161000100000000 = .error (.mustBeZero "FREQ_LOAD") ∧
  decode 0x02AB000000001234 = .error (.reservedOpcode 0x02)

/-- Every command, with every operand at every value, is read back from its word (R81 to R84). -/
def Obligations.DecodeOfEncode : Prop := ∀ i : Instr, decode (encode i) = .ok i

/-- A word that decodes to a command is the word of that command: no second word has the same meaning (R83, R84). -/
def Obligations.EncodeOfDecode : Prop := ∀ (w : Word) (i : Instr), decode w = .ok i → encode i = w

/-- Rule R84: a word is the command of a row exactly when `w AND mask = match`, at most one row matches, and the operands
are the word's own fields. -/
def Obligations.RowMatchIsDecoding : Prop :=
  ∀ w : Word,
    (∀ r ∈ opTable, w &&& r.mask = r.pattern ↔ ∃ i, decode w = .ok i ∧ i.mnemonic = r.mnemonic) ∧
    (∀ r ∈ opTable, ∀ r' ∈ opTable, w &&& r.mask = r.pattern → w &&& r'.mask = r'.pattern → r = r') ∧
    (∀ i, decode w = .ok i →
      i.op = w.extractLsb' 56 8 ∧ i.a = w.extractLsb' 48 8 ∧ i.b = w.extractLsb' 0 48)

/-- Rules R85 and R175: a word either decodes to exactly one command or matches no row; a word that matches no row raises
ILLEGAL_CMD with its own `OP` and `A` outside phase FAULT, is ignored in phase FAULT, and answers no response word. The
queue it is presented in is the model's own field (log 1). -/
def Obligations.IllegalWordFaultsOrIsIgnored : Prop :=
  ∀ (w : Word) (s : State) (rest : List HostEvent), s.host = .cmd w :: rest →
    ((∃! i, decode w = .ok i) ∨ ∀ r ∈ opTable, w &&& r.mask ≠ r.pattern) ∧
    ((∀ r ∈ opTable, w &&& r.mask ≠ r.pattern) →
      (∀ i, decode w ≠ .ok i) ∧
      (s.phase ≠ .fault → step s = .next { s with
        err := ⟨.illegalCmd, w.extractLsb' 56 8, w.extractLsb' 48 8, 0, s.phase, 0⟩, phase := .fault, host := rest }) ∧
      (s.phase = .fault → step s = .next { s with host := rest }))

/-! ## Steps and the host's inputs -/

/-- A step runs the decoded command: when the host's next word decodes to `i`, the step is `exec i` on the state from which
that input has been taken (R66, R180). The queue is the model's own field (log 1). -/
def Obligations.StepRunsTheDecodedCommand : Prop :=
  ∀ (s : State) (w : Word) (i : Instr) (rest : List HostEvent), s.host = .cmd w :: rest → decode w = .ok i →
    step s = exec i { s with host := rest }

/-- The host's other inputs (R32, R62, R191, R200, R201): reset, whether between commands or in place of completing one,
leaves the reset state; taking an item removes the front of one channel; with no input the core idles. The form is the
model's: the queue of inputs is its own field (log 1), one taking an input and of no effect on an empty channel (log 2), a
step with no input that of an idle core (log 3), a reset in place of completing a command one input (log 9). -/
def Obligations.ResetAndTakingAct : Prop :=
  ∀ (s : State) (w : Word) (rest : List HostEvent),
    (s.host = .reset :: rest → step s = .next { State.reset with host := rest }) ∧
    (s.host = .resetDuring w :: rest → step s = .next { State.reset with host := rest }) ∧
    (s.host = .takeRsp :: rest → step s = .next { s with rsp := s.rsp.drop 1, host := rest }) ∧
    (s.host = .takeOutb :: rest → step s = .next { s with outb := s.outb.drop 1, host := rest }) ∧
    (s.host = .takeOuts :: rest → step s = .next { s with outs := s.outs.drop 1, host := rest }) ∧
    (s.host = [] → step s = .next s)

/-- Commands do not look at the inputs still to come and leave them as they are: the answer with another queue is the same
answer with that queue (R66, R71). The queue is the model's own field (log 1). -/
def Obligations.CommandsIgnoreLaterInputs : Prop :=
  ∀ (i : Instr) (s t : State) (h : List HostEvent), exec i s = .next t →
    t.host = s.host ∧ exec i { s with host := h } = .next { t with host := h }

/-- Rule R51: the values after reset, and CLEAR gives the same to everything but the output channels. -/
def Obligations.ResetValues : Prop :=
  State.reset.phase = .freq ∧ (∀ sym, freqAt State.reset.ft sym = 0) ∧
  (∀ k, groupAt State.reset.gt k = ⟨0, .leaf 0, .leaf 0⟩) ∧
  State.reset.ngroups = 0 ∧ State.reset.alpha = 0 ∧ State.reset.root = ⟨false, .leaf 0⟩ ∧
  State.reset.treeValid = false ∧ State.reset.ctValid = false ∧ State.reset.pl = [] ∧
  (∀ sym, codeAt State.reset.ct sym = ⟨false, []⟩) ∧
  State.reset.epend = [] ∧ State.reset.encSymcnt = 0 ∧ State.reset.encBitlen = 0 ∧
  State.reset.dacc = [] ∧ State.reset.decRem = 0 ∧ State.reset.decSymcnt = 0 ∧
  State.reset.err = ⟨.none, 0, 0, 0, .freq, 0⟩ ∧
  State.reset.outb = [] ∧ State.reset.outs = [] ∧ State.reset.rsp = [] ∧
  csrWord State.reset 0x00 = 0x0000200848554631 ∧
  ∀ s : State, exec .clear s = .next { State.reset with outb := s.outb, outs := s.outs, rsp := s.rsp, host := s.host }

/-! ## System commands and registers -/

/-- Rule R160: NOP does nothing in any phase, and its word is the all-zero word alone. -/
def Obligations.NopDoesNothing : Prop :=
  (∀ s : State, exec .nop s = .next s) ∧ OnlyWord .nop 0

/-- Rule R161: CLEAR, in any phase, leaves the values it lists and the output channels as they are; of the commands, only
CLEAR leaves phase FAULT and only CLEAR goes back to phase FREQ. The host's queue is the model's own field (log 1). -/
def Obligations.ClearStartsANewInvocation : Prop :=
  OnlyWord .clear 0x0100000000000000 ∧
  (∀ (i : Instr) (s t : State), exec i s = .next t →
    (s.phase = .fault → t.phase ≠ .fault → i = .clear) ∧ (s.phase ≠ .freq → t.phase = .freq → i = .clear)) ∧
  ∀ s : State, ∃ t : State, exec .clear s = .next t ∧
    t.phase = .freq ∧ (∀ sym, freqAt t.ft sym = 0) ∧ (∀ k, groupAt t.gt k = ⟨0, .leaf 0, .leaf 0⟩) ∧
    t.ngroups = 0 ∧ t.alpha = 0 ∧ t.root = ⟨false, .leaf 0⟩ ∧ t.treeValid = false ∧ t.ctValid = false ∧ t.pl = [] ∧
    (∀ sym, codeAt t.ct sym = ⟨false, []⟩) ∧ t.epend = [] ∧ t.encSymcnt = 0 ∧ t.encBitlen = 0 ∧
    t.dacc = [] ∧ t.decRem = 0 ∧ t.decSymcnt = 0 ∧ t.err = ⟨.none, 0, 0, 0, .freq, 0⟩ ∧ t.errIrq = false ∧
    t.outb = s.outb ∧ t.outs = s.outs ∧ t.rsp = s.rsp ∧ t.host = s.host

/-- Rules R162 and R50: RD_CSR appends the register's word to `RSP` in every phase and changes nothing else; an unassigned
index answers 0. -/
def Obligations.RdCsrAnswersTheRegister : Prop :=
  ∀ (idx : Byte) (s : State),
    OnlyWord (.rdCsr idx) (0x50#8 ++ idx ++ 0#48) ∧
    exec (.rdCsr idx) s = .next { s with rsp := s.rsp ++ [csrWord s idx] } ∧ (0x0C ≤ idx.toNat → csrWord s idx = 0)

/-- Rules R38, R39 and R40: the fields of `ID`, `STATUS` and `ERR`, bit by bit, and their reset values; with the numbers of
the phases (R36) and of the fault causes (R170) that stand in them. -/
def Obligations.CsrIdStatusErrLayout : Prop :=
  (Phase.freq.code = 0 ∧ Phase.tree.code = 1 ∧ Phase.ready.code = 2 ∧ Phase.enc.code = 3 ∧ Phase.dec.code = 4 ∧
    Phase.fault.code = 7) ∧
  (FaultCode.none.code = 0 ∧ FaultCode.ioError.code = 1 ∧ FaultCode.emptyInput.code = 2 ∧
    FaultCode.missingCode.code = 3 ∧ FaultCode.truncatedStream.code = 4 ∧ FaultCode.illegalCmd.code = 5 ∧
    FaultCode.sequence.code = 6 ∧ FaultCode.countOverflow.code = 7 ∧ FaultCode.trailingData.code = 8) ∧
  ∀ s : State,
    ((csrWord s 0x00).extractLsb' 0 32 = 0x48554631 ∧ (csrWord s 0x00).extractLsb' 32 8 = 8 ∧
      (csrWord s 0x00).extractLsb' 40 8 = 32 ∧ (csrWord s 0x00).extractLsb' 48 16 = 0 ∧
      csrWord State.reset 0x00 = 0x0000200848554631) ∧
    ((csrWord s 0x01).extractLsb' 0 3 = s.phase.code ∧ (csrWord s 0x01).getLsbD 3 = s.treeValid ∧
      (csrWord s 0x01).getLsbD 4 = s.ctValid ∧ (csrWord s 0x01).getLsbD 5 = decide (s.err.code ≠ .none) ∧
      (csrWord s 0x01).getLsbD 6 = decide (s.phase = .dec ∧ s.decRem = 0) ∧
      (csrWord s 0x01).extractLsb' 7 57 = 0 ∧ csrWord State.reset 0x01 = 0) ∧
    ((csrWord s 0x02).extractLsb' 0 8 = s.err.code.code ∧ (csrWord s 0x02).extractLsb' 8 8 = s.err.op ∧
      (csrWord s 0x02).extractLsb' 16 8 = s.err.a ∧ (csrWord s 0x02).extractLsb' 24 8 = s.err.aux ∧
      (csrWord s 0x02).extractLsb' 32 3 = s.err.phaseAt.code ∧ (csrWord s 0x02).getLsbD 35 = false ∧
      (csrWord s 0x02).extractLsb' 36 3 = s.err.bitpos ∧ (csrWord s 0x02).extractLsb' 39 25 = 0 ∧
      csrWord State.reset 0x02 = 0)

/-- Rules R41 to R49: the fields of the tree, encoder and decoder registers, and their reset value 0; with the numbers of the
node references (R24) that stand in `ROOT`. The lengths of
`EPEND` and `DACC` are at most 7 and 255 in every state the machine reaches (R29, R30; `EveryStepKeepsTheInvariant`). -/
def Obligations.CsrTableAndCounterLayout : Prop :=
  (∀ y : Sym, (NRef.leaf y).bits.toNat = y.toNat) ∧ (∀ k : GroupNo, (NRef.group k).bits.toNat = 256 + k.toNat) ∧
  (∀ s : State, s.epend.length ≤ 7 → s.dacc.length ≤ 255 →
    (csrWord s 0x03).extractLsb' 0 9 = s.alpha ∧ (csrWord s 0x03).extractLsb' 9 55 = 0 ∧
    (csrWord s 0x04).getLsbD 9 = s.root.valid ∧ (csrWord s 0x04).extractLsb' 0 9 = s.root.ref.bits ∧
    (csrWord s 0x04).extractLsb' 10 54 = 0 ∧
    (csrWord s 0x05).extractLsb' 0 8 = s.ngroups ∧ (csrWord s 0x05).extractLsb' 8 56 = 0 ∧
    (csrWord s 0x06).extractLsb' 0 48 = s.encSymcnt ∧ (csrWord s 0x06).extractLsb' 48 16 = 0 ∧
    (csrWord s 0x07).extractLsb' 0 56 = s.encBitlen ∧ (csrWord s 0x07).extractLsb' 56 8 = 0 ∧
    ((csrWord s 0x08).extractLsb' 0 3).toNat = s.epend.length ∧ (csrWord s 0x08).extractLsb' 3 5 = 0 ∧
    (∀ j < 8, (csrWord s 0x08).getLsbD (15 - j) = s.epend[j]?.getD false) ∧
    (csrWord s 0x08).extractLsb' 16 48 = 0 ∧
    (csrWord s 0x09).extractLsb' 0 48 = s.decRem ∧ (csrWord s 0x09).extractLsb' 48 16 = 0 ∧
    (csrWord s 0x0A).extractLsb' 0 48 = s.decSymcnt ∧ (csrWord s 0x0A).extractLsb' 48 16 = 0 ∧
    ((csrWord s 0x0B).extractLsb' 0 8).toNat = s.dacc.length ∧ (csrWord s 0x0B).extractLsb' 8 56 = 0) ∧
  ∀ idx : Byte, 0x03 ≤ idx.toNat → idx.toNat ≤ 0x0B → csrWord State.reset idx = 0

/-! ## Frequency table -/

/-- Rule R103: RD_FREQ answers the count, zero-extended, in every phase, and changes nothing else. -/
def Obligations.RdFreqAnswersTheCount : Prop :=
  ∀ (sym : Sym) (s : State), OnlyWord (.rdFreq sym) (0x51#8 ++ sym ++ 0#48) ∧ ∃ w : Word,
    exec (.rdFreq sym) s = .next { s with rsp := s.rsp ++ [w] } ∧
    w.extractLsb' 0 32 = freqAt s.ft sym ∧ w.extractLsb' 32 32 = 0

/-- Rule R101: FREQ_SYM adds one to its entry and to nothing else; at the maximum it raises COUNT_OVERFLOW and leaves the
entry; it is legal in phase FREQ only. -/
def Obligations.FreqSymCountsOne : Prop :=
  ∀ sym : Sym, OnlyWord (.freqSym sym) (0x10#8 ++ sym ++ 0#48) ∧
    (∀ s : State, s.phase = .freq → (freqAt s.ft sym).toNat < 2 ^ 32 - 1 →
      ∃ ft : Vector Count 256, exec (.freqSym sym) s = .next { s with ft := ft } ∧
        (freqAt ft sym).toNat = (freqAt s.ft sym).toNat + 1 ∧ ∀ y, y ≠ sym → freqAt ft y = freqAt s.ft y) ∧
    (∀ s : State, s.phase = .freq → (freqAt s.ft sym).toNat = 2 ^ 32 - 1 → Raises (.freqSym sym) s .countOverflow 0 0) ∧
    OnlyIn .freq (.freqSym sym)

/-- Rule R102: FREQ_LOAD sets its entry and nothing else; a word of its opcode with `B[47:32]` not zero is illegal; it is
legal in phase FREQ only. -/
def Obligations.FreqLoadSetsTheCount : Prop :=
  (∀ (sym : Sym) (count : Count), OnlyWord (.freqLoad sym count) (0x11#8 ++ sym ++ 0#16 ++ count) ∧
    (∀ s : State, s.phase = .freq →
      ∃ ft : Vector Count 256, exec (.freqLoad sym count) s = .next { s with ft := ft } ∧
        freqAt ft sym = count ∧ ∀ y, y ≠ sym → freqAt ft y = freqAt s.ft y) ∧
    OnlyIn .freq (.freqLoad sym count)) ∧
  ∀ w : Word, w.extractLsb' 56 8 = 0x11 → w.extractLsb' 32 16 ≠ 0 → ∀ i, decode w ≠ .ok i

/-- Rule R100 as the core realises it: CLEAR and one FREQ_SYM per symbol of a text leave the number of occurrences of every
symbol, whatever the state before. -/
def Obligations.CountingATextGivesOccurrences : Prop :=
  ∀ (s : State) (text : List Sym), text.length < 2 ^ 32 →
    ∃ t : State, runCommands (.clear :: text.map .freqSym) s = .next t ∧ t.phase = .freq ∧
      ∀ y, (freqAt t.ft y).toNat = text.count y

/-- Rule R104: FREQ_SYM commands of two symbols commute where neither entry is at its maximum, and so do loads of two
different symbols. -/
def Obligations.FrequencyCommandsCommute : Prop :=
  ∀ (a b : Sym) (m n : Count) (s t : State), s.phase = .freq → a ≠ b →
    ((freqAt s.ft a).toNat < 2 ^ 32 - 1 → (freqAt s.ft b).toNat < 2 ^ 32 - 1 →
      (runCommands [.freqSym a, .freqSym b] s = .next t ↔ runCommands [.freqSym b, .freqSym a] s = .next t)) ∧
    (runCommands [.freqLoad a m, .freqLoad b n] s = .next t ↔ runCommands [.freqLoad b n, .freqLoad a m] s = .next t)

/-! ## Tree builder -/

/-- Rule R111: the comparator clause by clause, and that it is a strict total order. -/
def Obligations.CanonicalOrderIsStrictTotal : Prop :=
  ∀ s : State,
    (∀ x y, (s.cnt x).toNat ≠ (s.cnt y).toNat → (s.before x y = true ↔ (s.cnt x).toNat > (s.cnt y).toNat)) ∧
    (∀ x y, s.cnt x = s.cnt y →
      (∀ a k, x = .leaf a → y = .group k → s.before x y = true) ∧
      (∀ k a, x = .group k → y = .leaf a → s.before x y = false) ∧
      (∀ a b, x = .leaf a → y = .leaf b → (s.before x y = true ↔ a.toNat > b.toNat)) ∧
      (∀ j k, x = .group j → y = .group k → (s.before x y = true ↔ j.toNat < k.toNat))) ∧
    (∀ x, s.before x x = false) ∧
    (∀ x y, x ≠ y → (s.before x y = true ↔ s.before y x = false)) ∧
    (∀ x y z, s.before x y = true → s.before y z = true → s.before x z = true)

/-- Rule R114: the initial list holds exactly the leaves of the alphabet, in the Canonical Order: descending count, and
within equal count descending code point; and in phase FREQ the group table is zero and holds no group. -/
def Obligations.InitialListIsTheSortedAlphabet : Prop :=
  ∀ s : State,
    (s.Inv → s.phase = .freq → (∀ k, groupAt s.gt k = ⟨0, .leaf 0, .leaf 0⟩) ∧ s.ngroups = 0) ∧
    s.startTree = { s with pl := s.initialList, ngroups := 0 } ∧
    (∀ a b, [NRef.leaf a, .leaf b].Sublist s.initialList → (freqAt s.ft a).toNat > (freqAt s.ft b).toNat ∨
      (freqAt s.ft a = freqAt s.ft b ∧ a.toNat > b.toNat)) ∧
    s.initialList.Pairwise (fun x y => s.before x y = true) ∧
    (∀ n, n ∈ s.initialList ↔ ∃ sym, n = .leaf sym ∧ freqAt s.ft sym ≠ 0) ∧
    s.initialList.length = alphabetSize s.ft

/-- Rule R117: a merge step takes the last two entries, `x` and `y` in list order, writes their group with the exact sum at
number `NGROUPS`, and inserts it so that the list is in the Canonical Order again. -/
def Obligations.MergeStepMergesTheLastTwo : Prop :=
  ∀ (s : State) (l : List NRef) (x y : NRef),
    s.pl = l ++ [x, y] → l ≠ [] → s.ngroups.toNat < 255 → (s.cnt x).toNat + (s.cnt y).toNat < 2 ^ 40 →
    l.Pairwise (fun a b => s.before a b = true) → (∀ j, .group j ∈ l → j.toNat < s.ngroups.toNat) →
    ∃ (gt : Vector Group 255) (pl : List NRef),
      s.mergeStep = { s with gt := gt, ngroups := s.ngroups + 1, pl := pl } ∧
      (groupAt gt s.ngroups).count.toNat = (s.cnt x).toNat + (s.cnt y).toNat ∧
      (groupAt gt s.ngroups).c0 = x ∧ (groupAt gt s.ngroups).c1 = y ∧
      (∀ k, k ≠ s.ngroups → groupAt gt k = groupAt s.gt k) ∧
      pl.Perm (.group s.ngroups :: l) ∧ pl.Pairwise (fun a b => s.mergeStep.before a b = true)

/-- Rule R118: a new group, later than every group of a list in the Canonical Order, is inserted after exactly the entries
whose count is greater than or equal to its own. -/
def Obligations.NewGroupStandsAfterItsEquals : Prop :=
  ∀ (s : State) (k : GroupNo) (l : List NRef),
    l.Pairwise (fun a b => s.before a b = true) → (∀ j, .group j ∈ l → j.toNat < k.toNat) →
    s.insertInOrder (.group k) l =
      l.take (l.countP fun n => decide ((s.cnt (.group k)).toNat ≤ (s.cnt n).toNat)) ++
        .group k :: l.drop (l.countP fun n => decide ((s.cnt (.group k)).toNat ≤ (s.cnt n).toNat))

/-- The final merge (R119): the two entries left become the children of the root group in list order, its count is 0 and
not their sum, and the list holds the root alone. -/
def Obligations.FinalMergeMakesTheRoot : Prop :=
  ∀ (s : State) (x y : NRef), s.pl = [x, y] → s.ngroups.toNat < 255 →
    ∃ gt : Vector Group 255,
      s.finalMerge = { s with gt := gt, ngroups := s.ngroups + 1, pl := [.group s.ngroups],
                              root := ⟨true, .group s.ngroups⟩ } ∧
      groupAt gt s.ngroups = ⟨0, x, y⟩ ∧ ∀ k, k ≠ s.ngroups → groupAt gt k = groupAt s.gt k

/-- Rules R115 and R172: with no symbol present TB_BUILD raises EMPTY_INPUT with `op = 0x20`, `a = 0`, `aux = 0` and
`phase_at = FREQ`, and builds nothing. -/
def Obligations.TbBuildOnEmptyAlphabetFaults : Prop :=
  ∀ s : State, s.phase = .freq → (∀ sym, freqAt s.ft sym = 0) →
    exec .tbBuild s = .next { s with err := ⟨.emptyInput, 0x20, 0, 0, .freq, 0⟩, phase := .fault }

/-- Rule R116: with exactly one symbol present TB_BUILD creates no group, and the root is its leaf. -/
def Obligations.TbBuildOnOneSymbol : Prop :=
  ∀ (s : State) (sym : Sym), s.phase = .freq → (∀ y, freqAt s.ft y ≠ 0 ↔ y = sym) →
    exec .tbBuild s = .next { s with pl := [.leaf sym], ngroups := 0, root := ⟨true, .leaf sym⟩, alpha := 1,
                                     treeValid := true, phase := .tree }

/-- TB_BUILD completes in phase FREQ whenever a symbol is present (R113, R120, R122): `L - 1` groups, the root alone in the
list, `FT` and everything that rule R113 does not list unchanged; and it is legal in phase FREQ only. -/
def Obligations.TbBuildCompletes : Prop :=
  (∀ s : State, s.phase = .freq → (∃ sym, freqAt s.ft sym ≠ 0) →
    ∃ t : State, exec .tbBuild s = .next t ∧
      t = { s with pl := t.pl, gt := t.gt, ngroups := t.ngroups, alpha := t.alpha, root := t.root,
                   treeValid := true, phase := .tree } ∧
      t.alpha.toNat = alphabetSize s.ft ∧ t.ngroups.toNat + 1 = alphabetSize s.ft ∧
      t.root.valid = true ∧ t.pl = [t.root.ref] ∧
      (2 ≤ alphabetSize s.ft → t.root.ref = .group (t.ngroups - 1)) ∧
      ∀ k : GroupNo, t.ngroups.toNat ≤ k.toNat → groupAt t.gt k = groupAt s.gt k) ∧
  OnlyIn .freq .tbBuild ∧ OnlyWord .tbBuild 0x2000000000000000

/-- The tree TB_BUILD leaves (R53, R119, R121, R122): every leaf of the alphabet and every group but the root is a child
exactly once, group children have lower numbers, every group but the root carries the exact sum of its children,
and the root's count is 0. The group table is zero before, as it is in every state of phase FREQ the machine
reaches (R25, R114). -/
def Obligations.BuiltTreeHasTheTreeShape : Prop :=
  ∀ s : State, s.phase = .freq → s.gt = State.reset.gt → (∃ sym, freqAt s.ft sym ≠ 0) →
    ∃ t : State, exec .tbBuild s = .next t ∧ TreeShape t

/-- Rule R124: TB_BUILD is a function of `FT` alone. The group table is zero before, as rule R114 says. -/
def Obligations.TreeIsAFunctionOfFrequencies : Prop :=
  ∀ s s' t t' : State, s.phase = .freq → s'.phase = .freq → s.gt = State.reset.gt → s'.gt = State.reset.gt →
    s.ft = s'.ft → (∃ sym, freqAt s.ft sym ≠ 0) → exec .tbBuild s = .next t → exec .tbBuild s' = .next t' →
    t.gt = t'.gt ∧ t.ngroups = t'.ngroups ∧ t.alpha = t'.alpha ∧ t.root = t'.root ∧ t.pl = t'.pl ∧
      t.treeValid = t'.treeValid ∧ t.phase = t'.phase

/-- Rule R123: RD_GROUP answers the group in its layout where `k < NGROUPS`, else 0, in every phase, and changes nothing
else; with the numbers of the node references (R24) that stand in the word. -/
def Obligations.RdGroupAnswersTheGroup : Prop :=
  (∀ y : Sym, (NRef.leaf y).bits.toNat = y.toNat) ∧ (∀ k : GroupNo, (NRef.group k).bits.toNat = 256 + k.toNat) ∧
  ∀ (k : GroupNo) (s : State), OnlyWord (.rdGroup k) (0x52#8 ++ k ++ 0#48) ∧ ∃ w : Word,
    exec (.rdGroup k) s = .next { s with rsp := s.rsp ++ [w] } ∧
    (k.toNat < s.ngroups.toNat →
      w.getLsbD 63 = true ∧ w.extractLsb' 58 5 = 0 ∧ w.extractLsb' 49 9 = (groupAt s.gt k).c1.bits ∧
        w.extractLsb' 40 9 = (groupAt s.gt k).c0.bits ∧ w.extractLsb' 0 40 = (groupAt s.gt k).count) ∧
    (s.ngroups.toNat ≤ k.toNat → w = 0)

/-! ## Code table -/

/-- Rule R130: CT_GEN completes in phase TREE on a tree, writes every entry of `CT` and nothing else but `CT_VALID` and
`PHASE`: a tree of one leaf gives that symbol the code "0"; else a symbol's code is the one path of branch bits from
the root to its leaf, and a symbol without a leaf has no entry. It is legal in phase TREE only. -/
def Obligations.CtGenWritesThePaths : Prop :=
  (∀ s : State, s.phase = .tree → TreeShape s →
    ∃ ct : Vector CodeEntry 256,
      exec .ctGen s = .next { s with ct := ct, ctValid := true, phase := .ready } ∧
      (∀ sym, s.root.ref = .leaf sym → codeAt ct sym = ⟨true, [false]⟩ ∧ ∀ y, y ≠ sym → codeAt ct y = ⟨false, []⟩) ∧
      (∀ k, s.root.ref = .group k → ∀ sym,
        (∀ x, codeAt ct sym = ⟨true, x⟩ ↔ follow s.gt s.root.ref x = some (.leaf sym)) ∧
        ((codeAt ct sym).valid = false → codeAt ct sym = ⟨false, []⟩))) ∧
  OnlyIn .tree .ctGen ∧ OnlyWord .ctGen 0x2100000000000000

/-- Rule R133: after CT_GEN exactly the symbols of the alphabet have a code; no code is a prefix of another symbol's; the
lengths lie between 1 and `L - 1`, or are 1 for one symbol; and for two symbols or more the code is complete. -/
def Obligations.CodeTableIsACompletePrefixCode : Prop :=
  ∀ s : State, s.Inv → s.ctValid = true →
    (∀ sym, (codeAt s.ct sym).valid = true ↔ freqAt s.ft sym ≠ 0) ∧
    PrefixFree s.ct ∧
    (∀ sym, (codeAt s.ct sym).valid = true → 1 ≤ (codeAt s.ct sym).len ∧ (codeAt s.ct sym).len ≤ 255 ∧
      (2 ≤ s.alpha.toNat → (codeAt s.ct sym).len + 1 ≤ s.alpha.toNat) ∧
      (s.alpha.toNat = 1 → (codeAt s.ct sym).len = 1)) ∧
    (2 ≤ s.alpha.toNat → ∀ x : BitString,
      insideCode s.ct x = true ∨ ∃! sym, (codeAt s.ct sym).valid = true ∧ (codeAt s.ct sym).bits <+: x) ∧
    (s.alpha.toNat = 1 → insideCode s.ct [true] = false ∧ ∀ sym, (codeAt s.ct sym).valid = true →
      ¬ (codeAt s.ct sym).bits <+: [true])

/-- Rule R135: RD_CLEN answers the valid bit and the length, in every phase, and changes nothing else; a symbol with no code
reads 0. A length is at most 255 (R28). -/
def Obligations.RdClenAnswersTheLength : Prop :=
  ∀ (sym : Sym) (s : State), (codeAt s.ct sym).len ≤ 255 →
    OnlyWord (.rdClen sym) (0x53#8 ++ sym ++ 0#48) ∧ ∃ w : Word, exec (.rdClen sym) s = .next { s with rsp := s.rsp ++ [w] } ∧
      w.getLsbD 63 = (codeAt s.ct sym).valid ∧ w.extractLsb' 8 55 = 0 ∧
      (w.extractLsb' 0 8).toNat = (codeAt s.ct sym).len ∧ (codeAt s.ct sym = ⟨false, []⟩ → w = 0)

/-- Rule R136: RD_CODE answers 64 bits of the code, bit `64 * chunk + j` of it at bit `63 - j`, zeros past its length; an
entry with no code reads 0; a word of its opcode with `B[47:2]` not zero is illegal. -/
def Obligations.RdCodeAnswersTheChunk : Prop :=
  (∀ (sym : Sym) (chunk : BitVec 2) (s : State), OnlyWord (.rdCode sym chunk) (0x54#8 ++ sym ++ 0#46 ++ chunk) ∧
    ∃ w : Word, exec (.rdCode sym chunk) s = .next { s with rsp := s.rsp ++ [w] } ∧
      (∀ j < 64, w.getLsbD (63 - j) = (codeAt s.ct sym).bits[64 * chunk.toNat + j]?.getD false) ∧
      (codeAt s.ct sym = ⟨false, []⟩ → w = 0)) ∧
  ∀ w : Word, w.extractLsb' 56 8 = 0x54 → w.extractLsb' 2 46 ≠ 0 → ∀ i, decode w ≠ .ok i

/-- Rule R137: the register `CODE` holds the bit string left-justified with zeros after it, and RD_CODE of chunk `c` answers
its bits `255 - 64c` down to `192 - 64c`. -/
def Obligations.CodeRegisterChunks : Prop :=
  ∀ e : CodeEntry, e.len ≤ 255 →
    (∀ p < 256, (codeRegister e.bits).getLsbD (255 - p) = e.bits[p]?.getD false) ∧
    ∀ (chunk : BitVec 2) (sym : Sym) (s : State), codeAt s.ct sym = e →
      exec (.rdCode sym chunk) s =
        .next { s with rsp := s.rsp ++ [(codeRegister e.bits).extractLsb' (192 - 64 * chunk.toNat) 64] }

/-! ## Encoder -/

/-- Rule R63: payload bit `j` is bit `7 - (j mod 8)` of byte `j / 8`; the final byte is zero-padded; and expanding the bytes
gives the bits back. -/
def Obligations.PackedBytesAreMostSignificantFirst : Prop :=
  ∀ x : BitString,
    (packAll x).length = (x.length + 7) / 8 ∧
    (∀ j, (hj : j < x.length) → ((packAll x)[j / 8]?.getD 0).getLsbD (7 - j % 8) = x[j]) ∧
    ∃ n < 8, (packAll x).flatMap bitsOfByte = x ++ List.replicate n false

/-- Rule R140: ENC_START opens a session with an empty stream and zero counters, in phase READY only. -/
def Obligations.EncStartOpensASession : Prop :=
  (∀ s : State, s.phase = .ready →
    exec .encStart s = .next { s with epend := [], encSymcnt := 0, encBitlen := 0, phase := .enc }) ∧
  OnlyIn .ready .encStart ∧ OnlyWord .encStart 0x3000000000000000

/-- Rule R141: ENC_SYM appends the code to the pending bits, first bit first, writes out each full byte and keeps fewer than
eight bits; MISSING_CODE comes before COUNT_OVERFLOW and both before any bit; it is legal in phase ENC only. Fewer
than eight bits are pending before (R29) and a code has at most 255 bits (R28). -/
def Obligations.EncSymAppendsTheCode : Prop :=
  ∀ sym : Sym, OnlyWord (.encSym sym) (0x31#8 ++ sym ++ 0#48) ∧
    (∀ s : State, s.phase = .enc → s.epend.length < 8 → (codeAt s.ct sym).valid = true →
      s.encSymcnt.toNat < 2 ^ 48 - 1 → s.encBitlen.toNat ≤ 255 * s.encSymcnt.toNat → (codeAt s.ct sym).len ≤ 255 →
      ∃ (bs : List Byte) (pend : BitString) (cnt : SCount) (blen : BitLen),
        exec (.encSym sym) s =
          .next { s with epend := pend, outb := s.outb ++ bs, encSymcnt := cnt, encBitlen := blen } ∧
        s.epend ++ (codeAt s.ct sym).bits = bs.flatMap bitsOfByte ++ pend ∧ pend.length < 8 ∧
        bs.length = (s.epend.length + (codeAt s.ct sym).len) / 8 ∧ bs.length ≤ 32 ∧
        cnt.toNat = s.encSymcnt.toNat + 1 ∧ blen.toNat = s.encBitlen.toNat + (codeAt s.ct sym).len) ∧
    (∀ s : State, s.phase = .enc → (codeAt s.ct sym).valid = false → Raises (.encSym sym) s .missingCode 0 0) ∧
    (∀ s : State, s.phase = .enc → (codeAt s.ct sym).valid = true → s.encSymcnt.toNat = 2 ^ 48 - 1 →
      Raises (.encSym sym) s .countOverflow 0 0) ∧
    OnlyIn .enc (.encSym sym)

/-- Rule R142: ENC_END writes the pending bits as one byte padded with zeros on the right, where there are any, keeps the
counters and closes the session; it is legal in phase ENC only. -/
def Obligations.EncEndPadsTheLastByte : Prop :=
  (∀ s : State, s.phase = .enc → s.epend = [] → exec .encEnd s = .next { s with phase := .ready }) ∧
  (∀ s : State, s.phase = .enc → s.epend ≠ [] → s.epend.length < 8 →
    ∃ b : Byte, exec .encEnd s = .next { s with epend := [], outb := s.outb ++ [b], phase := .ready } ∧
      bitsOfByte b = s.epend ++ List.replicate (8 - s.epend.length) false) ∧
  OnlyIn .enc .encEnd ∧ OnlyWord .encEnd 0x3200000000000000

/-- An encode session over a text whose symbols all have codes (R139, R143, R144): the bytes on `OUTB` are the packed
concatenation of the codes, `ceil(bits / 8)` of them, and the counters hold the symbol count and the exact payload
length. -/
def Obligations.EncodeSessionEmitsThePackedText : Prop :=
  ∀ (s : State) (text : List Sym), s.phase = .ready → text.length < 2 ^ 48 →
    (∀ y ∈ text, (codeAt s.ct y).valid = true ∧ (codeAt s.ct y).len ≤ 255) →
    ∃ (cnt : SCount) (blen : BitLen),
      runCommands (.encStart :: text.map .encSym ++ [.encEnd]) s =
        .next { s with epend := [], encSymcnt := cnt, encBitlen := blen, outb := s.outb ++ packAll (payload s.ct text) } ∧
      cnt.toNat = text.length ∧ blen.toNat = (payload s.ct text).length

/-! ## Decoder -/

/-- Rule R150: DEC_START opens a session that is to emit `N` symbols, in phase READY only. -/
def Obligations.DecStartOpensASession : Prop :=
  ∀ n : SCount, OnlyWord (.decStart n) (0x40#8 ++ 0#8 ++ n) ∧
    (∀ s : State, s.phase = .ready →
      exec (.decStart n) s = .next { s with dacc := [], decRem := n, decSymcnt := 0, phase := .dec }) ∧
    OnlyIn .ready (.decStart n)

/-- DEC_BYTE completes (R151, R152, R154): where the bits taken since the last symbol and the bits of the byte, bit 7
first, are the codes of some symbols and a rest, it emits those symbols in order; when they are the last ones due, the rest
of the byte is ignored, else the rest is kept as the partial match. -/
def Obligations.DecByteEmitsTheMatchedSymbols : Prop :=
  ∀ (byte : Byte) (s : State) (syms : List Sym) (rest : BitString),
    s.phase = .dec → s.decRem ≠ 0 → PrefixFree s.ct → CodesNonempty s.ct → PartialMatch s.ct s.dacc →
    (∀ y ∈ syms, (codeAt s.ct y).valid = true) →
    s.dacc ++ bitsOfByte byte = payload s.ct syms ++ rest →
    (syms.length = s.decRem.toNat ∨ (syms.length < s.decRem.toNat ∧ PartialMatch s.ct rest)) →
    exec (.decByte byte) s = .next { s with
      outs := s.outs ++ syms
      dacc := if syms.length = s.decRem.toNat then [] else rest
      decRem := s.decRem - BitVec.ofNat 48 syms.length
      decSymcnt := s.decSymcnt + BitVec.ofNat 48 syms.length }

/-- A MISSING_CODE in the middle of a byte (R152, R173, R184): the symbols matched before it stay emitted and counted, the
record has the length of the bits that begin no code and the position of the last of them in the byte, and those bits stay
in `DACC`. -/
def Obligations.DecByteMissingCodeKeepsEarlierSymbols : Prop :=
  ∀ (byte : Byte) (s : State) (syms : List Sym) (bad rest : BitString),
    s.phase = .dec → syms.length < s.decRem.toNat → PrefixFree s.ct → CodesNonempty s.ct → PartialMatch s.ct s.dacc →
    (∀ y ∈ syms, (codeAt s.ct y).valid = true) →
    s.dacc ++ bitsOfByte byte = payload s.ct syms ++ bad ++ rest →
    bad ≠ [] → PartialMatch s.ct bad.dropLast → insideCode s.ct bad = false →
    (∀ y, (codeAt s.ct y).valid = true → (codeAt s.ct y).bits ≠ bad) →
    exec (.decByte byte) s = .next { s with
      outs := s.outs ++ syms
      dacc := bad
      decRem := s.decRem - BitVec.ofNat 48 syms.length
      decSymcnt := s.decSymcnt + BitVec.ofNat 48 syms.length
      err := ⟨.missingCode, 0x41, byte, BitVec.ofNat 8 bad.length, .dec, BitVec.ofNat 3 rest.length⟩
      phase := .fault }

/-- Rule R179: a byte after the last symbol raises TRAILING_DATA and has no other effect; DEC_BYTE is legal in phase DEC
only (R151). -/
def Obligations.DecByteAfterTheEndFaults : Prop :=
  ∀ byte : Byte, OnlyWord (.decByte byte) (0x41#8 ++ byte ++ 0#48) ∧
    (∀ s : State, s.phase = .dec → s.decRem = 0 →
      exec (.decByte byte) s = .next { s with err := ⟨.trailingData, 0x41, byte, 0, .dec, 0⟩, phase := .fault }) ∧
    OnlyIn .dec (.decByte byte)

/-- Rules R153 and R174: DEC_END closes a session whose symbols are all out, else raises TRUNCATED_STREAM with the length of
the partial match; it is legal in phase DEC only. The partial match has at most 255 bits (R30). -/
def Obligations.DecEndChecksTheCount : Prop :=
  (∀ s : State, s.phase = .dec → s.decRem = 0 → exec .decEnd s = .next { s with phase := .ready }) ∧
  (∀ s : State, s.phase = .dec → s.decRem ≠ 0 → s.dacc.length ≤ 255 →
    ∃ aux : Byte, aux.toNat = s.dacc.length ∧
      exec .decEnd s = .next { s with err := ⟨.truncatedStream, 0x42, 0, aux, .dec, 0⟩, phase := .fault }) ∧
  OnlyIn .dec .decEnd ∧ OnlyWord .decEnd 0x4200000000000000

/-- Rule R156: for two symbols or more the matcher is a walk of the tree. A bit string is a code exactly when it leads from
the root to a leaf, and a proper prefix of a code exactly when it leads to a group; one more bit moves to the first
child on 0 and the second on 1; the empty string leads to the root, and to every node leads exactly one string. -/
def Obligations.GreedyMatcherIsTheTreeWalk : Prop :=
  ∀ s : State, s.Inv → s.ctValid = true → 2 ≤ s.alpha.toNat →
    follow s.gt s.root.ref [] = some s.root.ref ∧
    (∀ n, IsNode s n → ∃! x, follow s.gt s.root.ref x = some n) ∧
    ∀ x : BitString,
      (∀ sym, codeInverse s.ct x = some sym ↔ follow s.gt s.root.ref x = some (.leaf sym)) ∧
      (insideCode s.ct x = true ↔ ∃ k, follow s.gt s.root.ref x = some (.group k)) ∧
      ∀ (b : Bool) (k : GroupNo), follow s.gt s.root.ref x = some (.group k) →
        follow s.gt s.root.ref (x ++ [b]) = some (if b then (groupAt s.gt k).c1 else (groupAt s.gt k).c0)

/-- Rule R157: with two symbols or more DEC_BYTE never raises MISSING_CODE; with one symbol the first 1 bit among the bits
still wanted raises it with `aux = 1`. -/
def Obligations.MissingCodeNeedsOneSymbol : Prop :=
  ∀ (byte : Byte) (s : State), s.Inv → s.phase = .dec →
    (2 ≤ s.alpha.toNat → ∀ t, exec (.decByte byte) s = .next t → t.err.code ≠ .missingCode) ∧
    (s.alpha.toNat = 1 → ∀ i ≤ 7, byte.getLsbD i = true → (∀ j, i < j → j ≤ 7 → byte.getLsbD j = false) →
      7 - i < s.decRem.toNat →
      ∃ t : State, exec (.decByte byte) s = .next t ∧
        t.err = ⟨.missingCode, 0x41, byte, 1, .dec, BitVec.ofNat 3 i⟩ ∧ t.phase = .fault)

/-! ## Faults and phases -/

/-- Rule R176: the legality table. Outside its phase a phase-bound command raises SEQUENCE with `aux = 0`, in phase FAULT it
is ignored, and no command raises SEQUENCE where it is legal. -/
def Obligations.WrongPhaseRaisesSequence : Prop :=
  ∀ (i : Instr) (s : State),
    (∀ p, legalPhase i = some p →
      (s.phase = .fault → exec i s = .next s) ∧
      (s.phase ≠ .fault → s.phase ≠ p → Raises i s .sequence 0 0)) ∧
    ((legalPhase i = none ∨ legalPhase i = some s.phase) → s.err.code ≠ .sequence →
      ∀ t, exec i s = .next t → t.err.code ≠ .sequence)

/-- Rule R181: in phase FAULT every word but those of NOP, CLEAR and the five reads, legal or illegal, changes nothing; and
nothing but CLEAR touches the recorded fault. -/
def Obligations.FaultPhaseIgnoresWords : Prop :=
  ∀ (s : State) (w : Word), s.phase = .fault →
    ((∀ i, decode w = .ok i → legalPhase i ≠ none) → step (s.presentWord w) = .next s) ∧
    (∀ i, decode w = .ok i → legalPhase i = none → step (s.presentWord w) = exec i s) ∧
    (decode w ≠ .ok .clear → ∀ t, step (s.presentWord w) = .next t →
      t.err = s.err ∧ t.phase = .fault ∧ t.outb = s.outb ∧ t.outs = s.outs)

/-- The fault sequence (R178, R184): a command that takes the core into phase FAULT records a cause, its own `OP` and `A` and
the phase it was accepted in; every such command but DEC_BYTE changes nothing else, and DEC_BYTE changes nothing but what
its earlier bits did. -/
def Obligations.FaultSequenceRecordsTheCommand : Prop :=
  ∀ (i : Instr) (s t : State), s.phase ≠ .fault → exec i s = .next t → t.phase = .fault →
    t.err.code ≠ .none ∧ t.err.op = i.op ∧ t.err.a = i.a ∧ t.err.phaseAt = s.phase ∧
    ((∀ byte, i ≠ .decByte byte) → t = { s with err := t.err, phase := .fault } ∧ t.err.bitpos = 0) ∧
    t = { s with err := t.err, phase := .fault, outs := t.outs, dacc := t.dacc, decRem := t.decRem,
                 decSymcnt := t.decSymcnt }

/-- Rule R165: the transition table of `PHASE`, over every command and phase, with the faults each command can raise in its
own phase, and the row of the illegal encodings. -/
def Obligations.PhaseTransitions : Prop :=
  (∀ (i : Instr) (s t : State), exec i s = .next t →
    (legalPhase i = none → t.phase = successPhase s.phase i) ∧
    (∀ p, legalPhase i = some p →
      (s.phase = .fault → t = s) ∧
      (s.phase ≠ .fault → s.phase ≠ p → t.phase = .fault ∧ t.err.code = .sequence) ∧
      (s.phase = p → t.phase = successPhase p i ∨ (t.phase = .fault ∧ t.err.code ∈ ownFaults i)))) ∧
  ∀ (w : Word) (s : State), (∀ i, decode w ≠ .ok i) → ∃ t : State, step (s.presentWord w) = .next t ∧
    (s.phase = .fault → t = s) ∧ (s.phase ≠ .fault → t.phase = .fault ∧ t.err.code = .illegalCmd)

/-- Which command writes which store (R168): a store changes only under the commands listed for it. -/
def Obligations.OnlyListedCommandsWriteEachStore : Prop :=
  ∀ (i : Instr) (s t : State), exec i s = .next t → i ≠ .clear →
    (t.ft ≠ s.ft → (∃ y, i = .freqSym y) ∨ ∃ y c, i = .freqLoad y c) ∧
    ((t.gt ≠ s.gt ∨ t.ngroups ≠ s.ngroups ∨ t.alpha ≠ s.alpha ∨ t.root ≠ s.root ∨ t.treeValid ≠ s.treeValid ∨ t.pl ≠ s.pl) →
      i = .tbBuild) ∧
    ((t.ct ≠ s.ct ∨ t.ctValid ≠ s.ctValid) → i = .ctGen) ∧
    ((t.encSymcnt ≠ s.encSymcnt ∨ t.encBitlen ≠ s.encBitlen) → i = .encStart ∨ ∃ y, i = .encSym y) ∧
    (t.epend ≠ s.epend → i = .encStart ∨ i = .encEnd ∨ ∃ y, i = .encSym y) ∧
    ((t.dacc ≠ s.dacc ∨ t.decRem ≠ s.decRem ∨ t.decSymcnt ≠ s.decSymcnt) →
      (∃ n, i = .decStart n) ∨ ∃ b, i = .decByte b) ∧
    (t.err ≠ s.err → t.phase = .fault) ∧
    (t.outb ≠ s.outb → i = .encEnd ∨ ∃ y, i = .encSym y) ∧
    (t.outs ≠ s.outs → ∃ b, i = .decByte b) ∧
    (t.rsp ≠ s.rsp → (∃ x, i = .rdCsr x) ∨ (∃ y, i = .rdFreq y) ∨ (∃ k, i = .rdGroup k) ∨ (∃ y, i = .rdClen y) ∨
      ∃ y c, i = .rdCode y c)

/-- What a command moves out (R67, R77, R90): the core only appends to its channels, no command to two of them; a read
appends exactly one word and no other command any, DEC_BYTE at most 8 symbols, ENC_END at most one byte, and ENC_SYM at
most 32 from fewer than eight pending bits and a code of at most 255. -/
def Obligations.CommandsAppendToOneChannel : Prop :=
  ∀ (i : Instr) (s t : State), exec i s = .next t →
    ∃ (bs : List Byte) (ys : List Sym) (ws : List Word),
      t.outb = s.outb ++ bs ∧ t.outs = s.outs ++ ys ∧ t.rsp = s.rsp ++ ws ∧
      ((bs = [] ∧ ys = []) ∨ (bs = [] ∧ ws = []) ∨ (ys = [] ∧ ws = [])) ∧
      (ws.length = if (∃ x, i = .rdCsr x) ∨ (∃ y, i = .rdFreq y) ∨ (∃ k, i = .rdGroup k) ∨ (∃ y, i = .rdClen y) ∨
        ∃ y c, i = .rdCode y c then 1 else 0) ∧
      ys.length ≤ 8 ∧ (i = .encEnd → bs.length ≤ 1) ∧
      (s.epend.length < 8 → (∀ y, (codeAt s.ct y).len ≤ 255) → bs.length ≤ 32)

/-- Leaving phase FAULT (R182): only CLEAR or reset does, and both leave no fault recorded, no interrupt and empty
tables. The queue of inputs is the model's own field (log 1), a reset in place of completing a command one input (log 9). -/
def Obligations.OnlyClearOrResetLeavesFault : Prop :=
  ∀ s t : State, s.phase = .fault → step s = .next t → t.phase ≠ .fault →
    (∃ rest, s.host = .cmd (encode .clear) :: rest ∨ s.host = .reset :: rest ∨ ∃ w, s.host = .resetDuring w :: rest) ∧
    t.phase = .freq ∧ t.err = ErrRecord.zero ∧ t.errIrq = false ∧ t.ft = State.reset.ft ∧ t.gt = State.reset.gt ∧
    t.ct = State.reset.ct ∧ t.treeValid = false ∧ t.ctValid = false

/-- The interrupt line (R183): level, equal to `ERR.code ≠ 0` and to `STATUS.ERR_PENDING`; high exactly in phase FAULT; a
command that raises a fault takes it high; CLEAR and reset take it low. -/
def Obligations.ErrIrqFollowsTheFaultRecord : Prop :=
  ∀ s : State,
    (s.errIrq = true ↔ s.err.code ≠ .none) ∧ (csrWord s 0x01).getLsbD 5 = s.errIrq ∧
    (s.Inv → (s.errIrq = true ↔ s.phase = .fault)) ∧
    (∀ i t, s.phase ≠ .fault → exec i s = .next t → t.phase = .fault → t.errIrq = true) ∧
    (∀ t, exec .clear s = .next t → t.errIrq = false) ∧ s.wasReset.errIrq = false

/-! ## The machine -/

/-- The reset state meets the invariant. -/
def Obligations.ResetMeetsTheInvariant : Prop := State.reset.Inv

/-- Every step keeps the invariant, whatever the host does (R29, R30, R31, R35, R53, R74, R143, R152): the tree tables hold
a tree of the frequency table while `TREE_VALID` is set, `CT` is the code table of that tree while `CT_VALID` is set,
the record is empty outside phase FAULT, and the encoder's and decoder's state is bounded. -/
def Obligations.EveryStepKeepsTheInvariant : Prop := ∀ s t : State, s.Inv → step s = .next t → t.Inv

/-- Every step from a state that meets the invariant answers a next state (R66, R166, R211): no command hangs, and CT_GEN's
walk ends. -/
def Obligations.EveryStepCompletes : Prop := ∀ s : State, s.Inv → ∃ t : State, step s = .next t

/-- Rule R155: for a text whose symbols all have a count of at least 1, a decode session over the bytes of its encode
session, told the number of its symbols, raises no fault and emits exactly the text. -/
def Obligations.DecodeSessionInvertsEncodeSession : Prop :=
  ∀ (s : State) (text : List Sym), s.Inv → s.phase = .ready → text.length < 2 ^ 48 →
    (∀ y ∈ text, freqAt s.ft y ≠ 0) →
    ∃ (bytes : List Byte) (t u : State),
      runCommands (.encStart :: text.map .encSym ++ [.encEnd]) s = .next t ∧ t.outb = s.outb ++ bytes ∧
      runCommands (.decStart (BitVec.ofNat 48 text.length) :: bytes.map .decByte ++ [.decEnd]) t = .next u ∧
      u.outs = s.outs ++ text ∧ u.phase = .ready ∧ u.err.code = .none

/-- The whole path (R204, R155, and the first property of HUF §8 in 95_test_vectors.md S4): from any state, COMPRESS of a
non-empty text of fewer than 2^32 symbols and then a decode session over the bytes it wrote give the text back. -/
def Obligations.CompressThenDecompressRestoresTheText : Prop :=
  ∀ (s : State) (text : List Sym), text ≠ [] → text.length < 2 ^ 32 →
    ∃ (bytes : List Byte) (t u : State),
      runCommands (Pseudo.compress text).expand s = .next t ∧ t.outb = s.outb ++ bytes ∧
      t.encSymcnt.toNat = text.length ∧
      runCommands (Pseudo.decBytes t.encSymcnt bytes).expand t = .next u ∧
      u.outs = s.outs ++ text ∧ u.phase = .ready ∧ u.err.code = .none
end

