-- ==== Sys2Proof/Laws/State.lean ====
section
/-! SUPPORT. One lemma per field per update of the state, true by rfl: no later proof unfolds a record update. -/

namespace Sys2Proof.Machine

/-! ### `State.setFreq` -/

@[simp] theorem setFreq_phase (s : State) (sym : Sym) (v : Count) : (s.setFreq sym v).phase = s.phase := rfl
@[simp] theorem setFreq_ft (s : State) (sym : Sym) (v : Count) : (s.setFreq sym v).ft = s.ft.set sym.toNat v sym.isLt := rfl
@[simp] theorem setFreq_gt (s : State) (sym : Sym) (v : Count) : (s.setFreq sym v).gt = s.gt := rfl
@[simp] theorem setFreq_ngroups (s : State) (sym : Sym) (v : Count) : (s.setFreq sym v).ngroups = s.ngroups := rfl
@[simp] theorem setFreq_alpha (s : State) (sym : Sym) (v : Count) : (s.setFreq sym v).alpha = s.alpha := rfl
@[simp] theorem setFreq_root (s : State) (sym : Sym) (v : Count) : (s.setFreq sym v).root = s.root := rfl
@[simp] theorem setFreq_treeValid (s : State) (sym : Sym) (v : Count) : (s.setFreq sym v).treeValid = s.treeValid := rfl
@[simp] theorem setFreq_pl (s : State) (sym : Sym) (v : Count) : (s.setFreq sym v).pl = s.pl := rfl
@[simp] theorem setFreq_ct (s : State) (sym : Sym) (v : Count) : (s.setFreq sym v).ct = s.ct := rfl
@[simp] theorem setFreq_ctValid (s : State) (sym : Sym) (v : Count) : (s.setFreq sym v).ctValid = s.ctValid := rfl
@[simp] theorem setFreq_epend (s : State) (sym : Sym) (v : Count) : (s.setFreq sym v).epend = s.epend := rfl
@[simp] theorem setFreq_encSymcnt (s : State) (sym : Sym) (v : Count) : (s.setFreq sym v).encSymcnt = s.encSymcnt := rfl
@[simp] theorem setFreq_encBitlen (s : State) (sym : Sym) (v : Count) : (s.setFreq sym v).encBitlen = s.encBitlen := rfl
@[simp] theorem setFreq_dacc (s : State) (sym : Sym) (v : Count) : (s.setFreq sym v).dacc = s.dacc := rfl
@[simp] theorem setFreq_decRem (s : State) (sym : Sym) (v : Count) : (s.setFreq sym v).decRem = s.decRem := rfl
@[simp] theorem setFreq_decSymcnt (s : State) (sym : Sym) (v : Count) : (s.setFreq sym v).decSymcnt = s.decSymcnt := rfl
@[simp] theorem setFreq_err (s : State) (sym : Sym) (v : Count) : (s.setFreq sym v).err = s.err := rfl
@[simp] theorem setFreq_outb (s : State) (sym : Sym) (v : Count) : (s.setFreq sym v).outb = s.outb := rfl
@[simp] theorem setFreq_outs (s : State) (sym : Sym) (v : Count) : (s.setFreq sym v).outs = s.outs := rfl
@[simp] theorem setFreq_rsp (s : State) (sym : Sym) (v : Count) : (s.setFreq sym v).rsp = s.rsp := rfl
@[simp] theorem setFreq_host (s : State) (sym : Sym) (v : Count) : (s.setFreq sym v).host = s.host := rfl

/-! ### `State.setGroup` -/

@[simp] theorem setGroup_phase (s : State) (k : GroupNo) (g : Group) : (s.setGroup k g).phase = s.phase := rfl
@[simp] theorem setGroup_ft (s : State) (k : GroupNo) (g : Group) : (s.setGroup k g).ft = s.ft := rfl
@[simp] theorem setGroup_gt (s : State) (k : GroupNo) (g : Group) : (s.setGroup k g).gt = s.gt.setIfInBounds k.toNat g := rfl
@[simp] theorem setGroup_ngroups (s : State) (k : GroupNo) (g : Group) : (s.setGroup k g).ngroups = s.ngroups := rfl
@[simp] theorem setGroup_alpha (s : State) (k : GroupNo) (g : Group) : (s.setGroup k g).alpha = s.alpha := rfl
@[simp] theorem setGroup_root (s : State) (k : GroupNo) (g : Group) : (s.setGroup k g).root = s.root := rfl
@[simp] theorem setGroup_treeValid (s : State) (k : GroupNo) (g : Group) : (s.setGroup k g).treeValid = s.treeValid := rfl
@[simp] theorem setGroup_pl (s : State) (k : GroupNo) (g : Group) : (s.setGroup k g).pl = s.pl := rfl
@[simp] theorem setGroup_ct (s : State) (k : GroupNo) (g : Group) : (s.setGroup k g).ct = s.ct := rfl
@[simp] theorem setGroup_ctValid (s : State) (k : GroupNo) (g : Group) : (s.setGroup k g).ctValid = s.ctValid := rfl
@[simp] theorem setGroup_epend (s : State) (k : GroupNo) (g : Group) : (s.setGroup k g).epend = s.epend := rfl
@[simp] theorem setGroup_encSymcnt (s : State) (k : GroupNo) (g : Group) : (s.setGroup k g).encSymcnt = s.encSymcnt := rfl
@[simp] theorem setGroup_encBitlen (s : State) (k : GroupNo) (g : Group) : (s.setGroup k g).encBitlen = s.encBitlen := rfl
@[simp] theorem setGroup_dacc (s : State) (k : GroupNo) (g : Group) : (s.setGroup k g).dacc = s.dacc := rfl
@[simp] theorem setGroup_decRem (s : State) (k : GroupNo) (g : Group) : (s.setGroup k g).decRem = s.decRem := rfl
@[simp] theorem setGroup_decSymcnt (s : State) (k : GroupNo) (g : Group) : (s.setGroup k g).decSymcnt = s.decSymcnt := rfl
@[simp] theorem setGroup_err (s : State) (k : GroupNo) (g : Group) : (s.setGroup k g).err = s.err := rfl
@[simp] theorem setGroup_outb (s : State) (k : GroupNo) (g : Group) : (s.setGroup k g).outb = s.outb := rfl
@[simp] theorem setGroup_outs (s : State) (k : GroupNo) (g : Group) : (s.setGroup k g).outs = s.outs := rfl
@[simp] theorem setGroup_rsp (s : State) (k : GroupNo) (g : Group) : (s.setGroup k g).rsp = s.rsp := rfl
@[simp] theorem setGroup_host (s : State) (k : GroupNo) (g : Group) : (s.setGroup k g).host = s.host := rfl

/-! ### `State.emitRsp` -/

@[simp] theorem emitRsp_phase (s : State) (w : Word) : (s.emitRsp w).phase = s.phase := rfl
@[simp] theorem emitRsp_ft (s : State) (w : Word) : (s.emitRsp w).ft = s.ft := rfl
@[simp] theorem emitRsp_gt (s : State) (w : Word) : (s.emitRsp w).gt = s.gt := rfl
@[simp] theorem emitRsp_ngroups (s : State) (w : Word) : (s.emitRsp w).ngroups = s.ngroups := rfl
@[simp] theorem emitRsp_alpha (s : State) (w : Word) : (s.emitRsp w).alpha = s.alpha := rfl
@[simp] theorem emitRsp_root (s : State) (w : Word) : (s.emitRsp w).root = s.root := rfl
@[simp] theorem emitRsp_treeValid (s : State) (w : Word) : (s.emitRsp w).treeValid = s.treeValid := rfl
@[simp] theorem emitRsp_pl (s : State) (w : Word) : (s.emitRsp w).pl = s.pl := rfl
@[simp] theorem emitRsp_ct (s : State) (w : Word) : (s.emitRsp w).ct = s.ct := rfl
@[simp] theorem emitRsp_ctValid (s : State) (w : Word) : (s.emitRsp w).ctValid = s.ctValid := rfl
@[simp] theorem emitRsp_epend (s : State) (w : Word) : (s.emitRsp w).epend = s.epend := rfl
@[simp] theorem emitRsp_encSymcnt (s : State) (w : Word) : (s.emitRsp w).encSymcnt = s.encSymcnt := rfl
@[simp] theorem emitRsp_encBitlen (s : State) (w : Word) : (s.emitRsp w).encBitlen = s.encBitlen := rfl
@[simp] theorem emitRsp_dacc (s : State) (w : Word) : (s.emitRsp w).dacc = s.dacc := rfl
@[simp] theorem emitRsp_decRem (s : State) (w : Word) : (s.emitRsp w).decRem = s.decRem := rfl
@[simp] theorem emitRsp_decSymcnt (s : State) (w : Word) : (s.emitRsp w).decSymcnt = s.decSymcnt := rfl
@[simp] theorem emitRsp_err (s : State) (w : Word) : (s.emitRsp w).err = s.err := rfl
@[simp] theorem emitRsp_outb (s : State) (w : Word) : (s.emitRsp w).outb = s.outb := rfl
@[simp] theorem emitRsp_outs (s : State) (w : Word) : (s.emitRsp w).outs = s.outs := rfl
@[simp] theorem emitRsp_rsp (s : State) (w : Word) : (s.emitRsp w).rsp = s.rsp ++ [w] := rfl
@[simp] theorem emitRsp_host (s : State) (w : Word) : (s.emitRsp w).host = s.host := rfl

/-! ### `State.emitOutb` -/

@[simp] theorem emitOutb_phase (s : State) (bs : List Byte) : (s.emitOutb bs).phase = s.phase := rfl
@[simp] theorem emitOutb_ft (s : State) (bs : List Byte) : (s.emitOutb bs).ft = s.ft := rfl
@[simp] theorem emitOutb_gt (s : State) (bs : List Byte) : (s.emitOutb bs).gt = s.gt := rfl
@[simp] theorem emitOutb_ngroups (s : State) (bs : List Byte) : (s.emitOutb bs).ngroups = s.ngroups := rfl
@[simp] theorem emitOutb_alpha (s : State) (bs : List Byte) : (s.emitOutb bs).alpha = s.alpha := rfl
@[simp] theorem emitOutb_root (s : State) (bs : List Byte) : (s.emitOutb bs).root = s.root := rfl
@[simp] theorem emitOutb_treeValid (s : State) (bs : List Byte) : (s.emitOutb bs).treeValid = s.treeValid := rfl
@[simp] theorem emitOutb_pl (s : State) (bs : List Byte) : (s.emitOutb bs).pl = s.pl := rfl
@[simp] theorem emitOutb_ct (s : State) (bs : List Byte) : (s.emitOutb bs).ct = s.ct := rfl
@[simp] theorem emitOutb_ctValid (s : State) (bs : List Byte) : (s.emitOutb bs).ctValid = s.ctValid := rfl
@[simp] theorem emitOutb_epend (s : State) (bs : List Byte) : (s.emitOutb bs).epend = s.epend := rfl
@[simp] theorem emitOutb_encSymcnt (s : State) (bs : List Byte) : (s.emitOutb bs).encSymcnt = s.encSymcnt := rfl
@[simp] theorem emitOutb_encBitlen (s : State) (bs : List Byte) : (s.emitOutb bs).encBitlen = s.encBitlen := rfl
@[simp] theorem emitOutb_dacc (s : State) (bs : List Byte) : (s.emitOutb bs).dacc = s.dacc := rfl
@[simp] theorem emitOutb_decRem (s : State) (bs : List Byte) : (s.emitOutb bs).decRem = s.decRem := rfl
@[simp] theorem emitOutb_decSymcnt (s : State) (bs : List Byte) : (s.emitOutb bs).decSymcnt = s.decSymcnt := rfl
@[simp] theorem emitOutb_err (s : State) (bs : List Byte) : (s.emitOutb bs).err = s.err := rfl
@[simp] theorem emitOutb_outb (s : State) (bs : List Byte) : (s.emitOutb bs).outb = s.outb ++ bs := rfl
@[simp] theorem emitOutb_outs (s : State) (bs : List Byte) : (s.emitOutb bs).outs = s.outs := rfl
@[simp] theorem emitOutb_rsp (s : State) (bs : List Byte) : (s.emitOutb bs).rsp = s.rsp := rfl
@[simp] theorem emitOutb_host (s : State) (bs : List Byte) : (s.emitOutb bs).host = s.host := rfl

/-! ### `State.emitOuts` -/

@[simp] theorem emitOuts_phase (s : State) (y : Sym) : (s.emitOuts y).phase = s.phase := rfl
@[simp] theorem emitOuts_ft (s : State) (y : Sym) : (s.emitOuts y).ft = s.ft := rfl
@[simp] theorem emitOuts_gt (s : State) (y : Sym) : (s.emitOuts y).gt = s.gt := rfl
@[simp] theorem emitOuts_ngroups (s : State) (y : Sym) : (s.emitOuts y).ngroups = s.ngroups := rfl
@[simp] theorem emitOuts_alpha (s : State) (y : Sym) : (s.emitOuts y).alpha = s.alpha := rfl
@[simp] theorem emitOuts_root (s : State) (y : Sym) : (s.emitOuts y).root = s.root := rfl
@[simp] theorem emitOuts_treeValid (s : State) (y : Sym) : (s.emitOuts y).treeValid = s.treeValid := rfl
@[simp] theorem emitOuts_pl (s : State) (y : Sym) : (s.emitOuts y).pl = s.pl := rfl
@[simp] theorem emitOuts_ct (s : State) (y : Sym) : (s.emitOuts y).ct = s.ct := rfl
@[simp] theorem emitOuts_ctValid (s : State) (y : Sym) : (s.emitOuts y).ctValid = s.ctValid := rfl
@[simp] theorem emitOuts_epend (s : State) (y : Sym) : (s.emitOuts y).epend = s.epend := rfl
@[simp] theorem emitOuts_encSymcnt (s : State) (y : Sym) : (s.emitOuts y).encSymcnt = s.encSymcnt := rfl
@[simp] theorem emitOuts_encBitlen (s : State) (y : Sym) : (s.emitOuts y).encBitlen = s.encBitlen := rfl
@[simp] theorem emitOuts_dacc (s : State) (y : Sym) : (s.emitOuts y).dacc = s.dacc := rfl
@[simp] theorem emitOuts_decRem (s : State) (y : Sym) : (s.emitOuts y).decRem = s.decRem := rfl
@[simp] theorem emitOuts_decSymcnt (s : State) (y : Sym) : (s.emitOuts y).decSymcnt = s.decSymcnt := rfl
@[simp] theorem emitOuts_err (s : State) (y : Sym) : (s.emitOuts y).err = s.err := rfl
@[simp] theorem emitOuts_outb (s : State) (y : Sym) : (s.emitOuts y).outb = s.outb := rfl
@[simp] theorem emitOuts_outs (s : State) (y : Sym) : (s.emitOuts y).outs = s.outs ++ [y] := rfl
@[simp] theorem emitOuts_rsp (s : State) (y : Sym) : (s.emitOuts y).rsp = s.rsp := rfl
@[simp] theorem emitOuts_host (s : State) (y : Sym) : (s.emitOuts y).host = s.host := rfl

/-! ### `State.raise` -/

@[simp] theorem raise_phase (s : State) (op a : Byte) (code : FaultCode) (aux : Byte) (bp : BitVec 3) : (s.raise op a code aux bp).phase = .fault := rfl
@[simp] theorem raise_ft (s : State) (op a : Byte) (code : FaultCode) (aux : Byte) (bp : BitVec 3) : (s.raise op a code aux bp).ft = s.ft := rfl
@[simp] theorem raise_gt (s : State) (op a : Byte) (code : FaultCode) (aux : Byte) (bp : BitVec 3) : (s.raise op a code aux bp).gt = s.gt := rfl
@[simp] theorem raise_ngroups (s : State) (op a : Byte) (code : FaultCode) (aux : Byte) (bp : BitVec 3) : (s.raise op a code aux bp).ngroups = s.ngroups := rfl
@[simp] theorem raise_alpha (s : State) (op a : Byte) (code : FaultCode) (aux : Byte) (bp : BitVec 3) : (s.raise op a code aux bp).alpha = s.alpha := rfl
@[simp] theorem raise_root (s : State) (op a : Byte) (code : FaultCode) (aux : Byte) (bp : BitVec 3) : (s.raise op a code aux bp).root = s.root := rfl
@[simp] theorem raise_treeValid (s : State) (op a : Byte) (code : FaultCode) (aux : Byte) (bp : BitVec 3) : (s.raise op a code aux bp).treeValid = s.treeValid := rfl
@[simp] theorem raise_pl (s : State) (op a : Byte) (code : FaultCode) (aux : Byte) (bp : BitVec 3) : (s.raise op a code aux bp).pl = s.pl := rfl
@[simp] theorem raise_ct (s : State) (op a : Byte) (code : FaultCode) (aux : Byte) (bp : BitVec 3) : (s.raise op a code aux bp).ct = s.ct := rfl
@[simp] theorem raise_ctValid (s : State) (op a : Byte) (code : FaultCode) (aux : Byte) (bp : BitVec 3) : (s.raise op a code aux bp).ctValid = s.ctValid := rfl
@[simp] theorem raise_epend (s : State) (op a : Byte) (code : FaultCode) (aux : Byte) (bp : BitVec 3) : (s.raise op a code aux bp).epend = s.epend := rfl
@[simp] theorem raise_encSymcnt (s : State) (op a : Byte) (code : FaultCode) (aux : Byte) (bp : BitVec 3) : (s.raise op a code aux bp).encSymcnt = s.encSymcnt := rfl
@[simp] theorem raise_encBitlen (s : State) (op a : Byte) (code : FaultCode) (aux : Byte) (bp : BitVec 3) : (s.raise op a code aux bp).encBitlen = s.encBitlen := rfl
@[simp] theorem raise_dacc (s : State) (op a : Byte) (code : FaultCode) (aux : Byte) (bp : BitVec 3) : (s.raise op a code aux bp).dacc = s.dacc := rfl
@[simp] theorem raise_decRem (s : State) (op a : Byte) (code : FaultCode) (aux : Byte) (bp : BitVec 3) : (s.raise op a code aux bp).decRem = s.decRem := rfl
@[simp] theorem raise_decSymcnt (s : State) (op a : Byte) (code : FaultCode) (aux : Byte) (bp : BitVec 3) : (s.raise op a code aux bp).decSymcnt = s.decSymcnt := rfl
@[simp] theorem raise_err (s : State) (op a : Byte) (code : FaultCode) (aux : Byte) (bp : BitVec 3) : (s.raise op a code aux bp).err = ⟨code, op, a, aux, s.phase, bp⟩ := rfl
@[simp] theorem raise_outb (s : State) (op a : Byte) (code : FaultCode) (aux : Byte) (bp : BitVec 3) : (s.raise op a code aux bp).outb = s.outb := rfl
@[simp] theorem raise_outs (s : State) (op a : Byte) (code : FaultCode) (aux : Byte) (bp : BitVec 3) : (s.raise op a code aux bp).outs = s.outs := rfl
@[simp] theorem raise_rsp (s : State) (op a : Byte) (code : FaultCode) (aux : Byte) (bp : BitVec 3) : (s.raise op a code aux bp).rsp = s.rsp := rfl
@[simp] theorem raise_host (s : State) (op a : Byte) (code : FaultCode) (aux : Byte) (bp : BitVec 3) : (s.raise op a code aux bp).host = s.host := rfl

/-! ### `State.cleared` -/

@[simp] theorem cleared_phase (s : State) : (s.cleared).phase = State.reset.phase := rfl
@[simp] theorem cleared_ft (s : State) : (s.cleared).ft = State.reset.ft := rfl
@[simp] theorem cleared_gt (s : State) : (s.cleared).gt = State.reset.gt := rfl
@[simp] theorem cleared_ngroups (s : State) : (s.cleared).ngroups = State.reset.ngroups := rfl
@[simp] theorem cleared_alpha (s : State) : (s.cleared).alpha = State.reset.alpha := rfl
@[simp] theorem cleared_root (s : State) : (s.cleared).root = State.reset.root := rfl
@[simp] theorem cleared_treeValid (s : State) : (s.cleared).treeValid = State.reset.treeValid := rfl
@[simp] theorem cleared_pl (s : State) : (s.cleared).pl = State.reset.pl := rfl
@[simp] theorem cleared_ct (s : State) : (s.cleared).ct = State.reset.ct := rfl
@[simp] theorem cleared_ctValid (s : State) : (s.cleared).ctValid = State.reset.ctValid := rfl
@[simp] theorem cleared_epend (s : State) : (s.cleared).epend = State.reset.epend := rfl
@[simp] theorem cleared_encSymcnt (s : State) : (s.cleared).encSymcnt = State.reset.encSymcnt := rfl
@[simp] theorem cleared_encBitlen (s : State) : (s.cleared).encBitlen = State.reset.encBitlen := rfl
@[simp] theorem cleared_dacc (s : State) : (s.cleared).dacc = State.reset.dacc := rfl
@[simp] theorem cleared_decRem (s : State) : (s.cleared).decRem = State.reset.decRem := rfl
@[simp] theorem cleared_decSymcnt (s : State) : (s.cleared).decSymcnt = State.reset.decSymcnt := rfl
@[simp] theorem cleared_err (s : State) : (s.cleared).err = State.reset.err := rfl
@[simp] theorem cleared_outb (s : State) : (s.cleared).outb = s.outb := rfl
@[simp] theorem cleared_outs (s : State) : (s.cleared).outs = s.outs := rfl
@[simp] theorem cleared_rsp (s : State) : (s.cleared).rsp = s.rsp := rfl
@[simp] theorem cleared_host (s : State) : (s.cleared).host = s.host := rfl

/-! ### `State.wasReset` -/

@[simp] theorem wasReset_phase (s : State) : (s.wasReset).phase = State.reset.phase := rfl
@[simp] theorem wasReset_ft (s : State) : (s.wasReset).ft = State.reset.ft := rfl
@[simp] theorem wasReset_gt (s : State) : (s.wasReset).gt = State.reset.gt := rfl
@[simp] theorem wasReset_ngroups (s : State) : (s.wasReset).ngroups = State.reset.ngroups := rfl
@[simp] theorem wasReset_alpha (s : State) : (s.wasReset).alpha = State.reset.alpha := rfl
@[simp] theorem wasReset_root (s : State) : (s.wasReset).root = State.reset.root := rfl
@[simp] theorem wasReset_treeValid (s : State) : (s.wasReset).treeValid = State.reset.treeValid := rfl
@[simp] theorem wasReset_pl (s : State) : (s.wasReset).pl = State.reset.pl := rfl
@[simp] theorem wasReset_ct (s : State) : (s.wasReset).ct = State.reset.ct := rfl
@[simp] theorem wasReset_ctValid (s : State) : (s.wasReset).ctValid = State.reset.ctValid := rfl
@[simp] theorem wasReset_epend (s : State) : (s.wasReset).epend = State.reset.epend := rfl
@[simp] theorem wasReset_encSymcnt (s : State) : (s.wasReset).encSymcnt = State.reset.encSymcnt := rfl
@[simp] theorem wasReset_encBitlen (s : State) : (s.wasReset).encBitlen = State.reset.encBitlen := rfl
@[simp] theorem wasReset_dacc (s : State) : (s.wasReset).dacc = State.reset.dacc := rfl
@[simp] theorem wasReset_decRem (s : State) : (s.wasReset).decRem = State.reset.decRem := rfl
@[simp] theorem wasReset_decSymcnt (s : State) : (s.wasReset).decSymcnt = State.reset.decSymcnt := rfl
@[simp] theorem wasReset_err (s : State) : (s.wasReset).err = State.reset.err := rfl
@[simp] theorem wasReset_outb (s : State) : (s.wasReset).outb = State.reset.outb := rfl
@[simp] theorem wasReset_outs (s : State) : (s.wasReset).outs = State.reset.outs := rfl
@[simp] theorem wasReset_rsp (s : State) : (s.wasReset).rsp = State.reset.rsp := rfl
@[simp] theorem wasReset_host (s : State) : (s.wasReset).host = s.host := rfl

/-! ### `State.presentInput` -/

@[simp] theorem presentInput_phase (s : State) (e : HostEvent) : (s.presentInput e).phase = s.phase := rfl
@[simp] theorem presentInput_ft (s : State) (e : HostEvent) : (s.presentInput e).ft = s.ft := rfl
@[simp] theorem presentInput_gt (s : State) (e : HostEvent) : (s.presentInput e).gt = s.gt := rfl
@[simp] theorem presentInput_ngroups (s : State) (e : HostEvent) : (s.presentInput e).ngroups = s.ngroups := rfl
@[simp] theorem presentInput_alpha (s : State) (e : HostEvent) : (s.presentInput e).alpha = s.alpha := rfl
@[simp] theorem presentInput_root (s : State) (e : HostEvent) : (s.presentInput e).root = s.root := rfl
@[simp] theorem presentInput_treeValid (s : State) (e : HostEvent) : (s.presentInput e).treeValid = s.treeValid := rfl
@[simp] theorem presentInput_pl (s : State) (e : HostEvent) : (s.presentInput e).pl = s.pl := rfl
@[simp] theorem presentInput_ct (s : State) (e : HostEvent) : (s.presentInput e).ct = s.ct := rfl
@[simp] theorem presentInput_ctValid (s : State) (e : HostEvent) : (s.presentInput e).ctValid = s.ctValid := rfl
@[simp] theorem presentInput_epend (s : State) (e : HostEvent) : (s.presentInput e).epend = s.epend := rfl
@[simp] theorem presentInput_encSymcnt (s : State) (e : HostEvent) : (s.presentInput e).encSymcnt = s.encSymcnt := rfl
@[simp] theorem presentInput_encBitlen (s : State) (e : HostEvent) : (s.presentInput e).encBitlen = s.encBitlen := rfl
@[simp] theorem presentInput_dacc (s : State) (e : HostEvent) : (s.presentInput e).dacc = s.dacc := rfl
@[simp] theorem presentInput_decRem (s : State) (e : HostEvent) : (s.presentInput e).decRem = s.decRem := rfl
@[simp] theorem presentInput_decSymcnt (s : State) (e : HostEvent) : (s.presentInput e).decSymcnt = s.decSymcnt := rfl
@[simp] theorem presentInput_err (s : State) (e : HostEvent) : (s.presentInput e).err = s.err := rfl
@[simp] theorem presentInput_outb (s : State) (e : HostEvent) : (s.presentInput e).outb = s.outb := rfl
@[simp] theorem presentInput_outs (s : State) (e : HostEvent) : (s.presentInput e).outs = s.outs := rfl
@[simp] theorem presentInput_rsp (s : State) (e : HostEvent) : (s.presentInput e).rsp = s.rsp := rfl
@[simp] theorem presentInput_host (s : State) (e : HostEvent) : (s.presentInput e).host = e :: s.host := rfl

/-! ### `State.presentWord` -/

@[simp] theorem presentWord_phase (s : State) (w : Word) : (s.presentWord w).phase = s.phase := rfl
@[simp] theorem presentWord_ft (s : State) (w : Word) : (s.presentWord w).ft = s.ft := rfl
@[simp] theorem presentWord_gt (s : State) (w : Word) : (s.presentWord w).gt = s.gt := rfl
@[simp] theorem presentWord_ngroups (s : State) (w : Word) : (s.presentWord w).ngroups = s.ngroups := rfl
@[simp] theorem presentWord_alpha (s : State) (w : Word) : (s.presentWord w).alpha = s.alpha := rfl
@[simp] theorem presentWord_root (s : State) (w : Word) : (s.presentWord w).root = s.root := rfl
@[simp] theorem presentWord_treeValid (s : State) (w : Word) : (s.presentWord w).treeValid = s.treeValid := rfl
@[simp] theorem presentWord_pl (s : State) (w : Word) : (s.presentWord w).pl = s.pl := rfl
@[simp] theorem presentWord_ct (s : State) (w : Word) : (s.presentWord w).ct = s.ct := rfl
@[simp] theorem presentWord_ctValid (s : State) (w : Word) : (s.presentWord w).ctValid = s.ctValid := rfl
@[simp] theorem presentWord_epend (s : State) (w : Word) : (s.presentWord w).epend = s.epend := rfl
@[simp] theorem presentWord_encSymcnt (s : State) (w : Word) : (s.presentWord w).encSymcnt = s.encSymcnt := rfl
@[simp] theorem presentWord_encBitlen (s : State) (w : Word) : (s.presentWord w).encBitlen = s.encBitlen := rfl
@[simp] theorem presentWord_dacc (s : State) (w : Word) : (s.presentWord w).dacc = s.dacc := rfl
@[simp] theorem presentWord_decRem (s : State) (w : Word) : (s.presentWord w).decRem = s.decRem := rfl
@[simp] theorem presentWord_decSymcnt (s : State) (w : Word) : (s.presentWord w).decSymcnt = s.decSymcnt := rfl
@[simp] theorem presentWord_err (s : State) (w : Word) : (s.presentWord w).err = s.err := rfl
@[simp] theorem presentWord_outb (s : State) (w : Word) : (s.presentWord w).outb = s.outb := rfl
@[simp] theorem presentWord_outs (s : State) (w : Word) : (s.presentWord w).outs = s.outs := rfl
@[simp] theorem presentWord_rsp (s : State) (w : Word) : (s.presentWord w).rsp = s.rsp := rfl
@[simp] theorem presentWord_host (s : State) (w : Word) : (s.presentWord w).host = .cmd w :: s.host := rfl

/-! ### `State.packSymbol` -/

@[simp] theorem packSymbol_phase (s : State) (e : CodeEntry) : (s.packSymbol e).phase = s.phase := rfl
@[simp] theorem packSymbol_ft (s : State) (e : CodeEntry) : (s.packSymbol e).ft = s.ft := rfl
@[simp] theorem packSymbol_gt (s : State) (e : CodeEntry) : (s.packSymbol e).gt = s.gt := rfl
@[simp] theorem packSymbol_ngroups (s : State) (e : CodeEntry) : (s.packSymbol e).ngroups = s.ngroups := rfl
@[simp] theorem packSymbol_alpha (s : State) (e : CodeEntry) : (s.packSymbol e).alpha = s.alpha := rfl
@[simp] theorem packSymbol_root (s : State) (e : CodeEntry) : (s.packSymbol e).root = s.root := rfl
@[simp] theorem packSymbol_treeValid (s : State) (e : CodeEntry) : (s.packSymbol e).treeValid = s.treeValid := rfl
@[simp] theorem packSymbol_pl (s : State) (e : CodeEntry) : (s.packSymbol e).pl = s.pl := rfl
@[simp] theorem packSymbol_ct (s : State) (e : CodeEntry) : (s.packSymbol e).ct = s.ct := rfl
@[simp] theorem packSymbol_ctValid (s : State) (e : CodeEntry) : (s.packSymbol e).ctValid = s.ctValid := rfl
@[simp] theorem packSymbol_epend (s : State) (e : CodeEntry) : (s.packSymbol e).epend = (packBits s.epend e.bits).1 := rfl
@[simp] theorem packSymbol_encSymcnt (s : State) (e : CodeEntry) : (s.packSymbol e).encSymcnt = s.encSymcnt + 1 := rfl
@[simp] theorem packSymbol_encBitlen (s : State) (e : CodeEntry) : (s.packSymbol e).encBitlen = s.encBitlen + BitVec.ofNat 56 e.len := rfl
@[simp] theorem packSymbol_dacc (s : State) (e : CodeEntry) : (s.packSymbol e).dacc = s.dacc := rfl
@[simp] theorem packSymbol_decRem (s : State) (e : CodeEntry) : (s.packSymbol e).decRem = s.decRem := rfl
@[simp] theorem packSymbol_decSymcnt (s : State) (e : CodeEntry) : (s.packSymbol e).decSymcnt = s.decSymcnt := rfl
@[simp] theorem packSymbol_err (s : State) (e : CodeEntry) : (s.packSymbol e).err = s.err := rfl
@[simp] theorem packSymbol_outb (s : State) (e : CodeEntry) : (s.packSymbol e).outb = s.outb ++ (packBits s.epend e.bits).2 := rfl
@[simp] theorem packSymbol_outs (s : State) (e : CodeEntry) : (s.packSymbol e).outs = s.outs := rfl
@[simp] theorem packSymbol_rsp (s : State) (e : CodeEntry) : (s.packSymbol e).rsp = s.rsp := rfl
@[simp] theorem packSymbol_host (s : State) (e : CodeEntry) : (s.packSymbol e).host = s.host := rfl

/-! ### `State.emitDecoded` -/

@[simp] theorem emitDecoded_phase (s : State) (y : Sym) : (s.emitDecoded y).phase = s.phase := rfl
@[simp] theorem emitDecoded_ft (s : State) (y : Sym) : (s.emitDecoded y).ft = s.ft := rfl
@[simp] theorem emitDecoded_gt (s : State) (y : Sym) : (s.emitDecoded y).gt = s.gt := rfl
@[simp] theorem emitDecoded_ngroups (s : State) (y : Sym) : (s.emitDecoded y).ngroups = s.ngroups := rfl
@[simp] theorem emitDecoded_alpha (s : State) (y : Sym) : (s.emitDecoded y).alpha = s.alpha := rfl
@[simp] theorem emitDecoded_root (s : State) (y : Sym) : (s.emitDecoded y).root = s.root := rfl
@[simp] theorem emitDecoded_treeValid (s : State) (y : Sym) : (s.emitDecoded y).treeValid = s.treeValid := rfl
@[simp] theorem emitDecoded_pl (s : State) (y : Sym) : (s.emitDecoded y).pl = s.pl := rfl
@[simp] theorem emitDecoded_ct (s : State) (y : Sym) : (s.emitDecoded y).ct = s.ct := rfl
@[simp] theorem emitDecoded_ctValid (s : State) (y : Sym) : (s.emitDecoded y).ctValid = s.ctValid := rfl
@[simp] theorem emitDecoded_epend (s : State) (y : Sym) : (s.emitDecoded y).epend = s.epend := rfl
@[simp] theorem emitDecoded_encSymcnt (s : State) (y : Sym) : (s.emitDecoded y).encSymcnt = s.encSymcnt := rfl
@[simp] theorem emitDecoded_encBitlen (s : State) (y : Sym) : (s.emitDecoded y).encBitlen = s.encBitlen := rfl
@[simp] theorem emitDecoded_dacc (s : State) (y : Sym) : (s.emitDecoded y).dacc = [] := rfl
@[simp] theorem emitDecoded_decRem (s : State) (y : Sym) : (s.emitDecoded y).decRem = s.decRem - 1 := rfl
@[simp] theorem emitDecoded_decSymcnt (s : State) (y : Sym) : (s.emitDecoded y).decSymcnt = s.decSymcnt + 1 := rfl
@[simp] theorem emitDecoded_err (s : State) (y : Sym) : (s.emitDecoded y).err = s.err := rfl
@[simp] theorem emitDecoded_outb (s : State) (y : Sym) : (s.emitDecoded y).outb = s.outb := rfl
@[simp] theorem emitDecoded_outs (s : State) (y : Sym) : (s.emitDecoded y).outs = s.outs ++ [y] := rfl
@[simp] theorem emitDecoded_rsp (s : State) (y : Sym) : (s.emitDecoded y).rsp = s.rsp := rfl
@[simp] theorem emitDecoded_host (s : State) (y : Sym) : (s.emitDecoded y).host = s.host := rfl

end Sys2Proof.Machine
end

