-- ==== Sys2Proof/Laws/Bits.lean ====
section
/-! SUPPORT. Bit strings against bytes: packing eight bits and expanding a byte undo each other. -/

namespace Sys2Proof.Machine

@[simp] theorem bitsOfByte_length (b : Byte) : (bitsOfByte b).length = 8 := by simp [bitsOfByte]

/-- A list of eight bits, spelled out. -/
theorem eight_bits {x : BitString} (h : x.length = 8) :
    ∃ a b c d e f g i, x = [a, b, c, d, e, f, g, i] := by
  match x, h with
  | [a, b, c, d, e, f, g, i], _ => exact ⟨a, b, c, d, e, f, g, i, rfl⟩

/-- Expanding a byte made of eight bits gives the bits back (R63). -/
theorem bitsOfByte_byte8 {x : BitString} (h : x.length = 8) : bitsOfByte (byte8 x) = x := by
  obtain ⟨a, b, c, d, e, f, g, i, rfl⟩ := eight_bits h
  revert a b c d e f g i
  decide +kernel

theorem padTo_length {n : Nat} {x : BitString} (h : x.length ≤ n) : (padTo n x).length = n := by
  simp [padTo]; omega

/-- Expanding a padded byte gives the bits and then zeros (R139). -/
theorem bitsOfByte_pad8 {x : BitString} (h : x.length ≤ 8) :
    bitsOfByte (pad8 x) = x ++ List.replicate (8 - x.length) false := by
  rw [pad8, bitsOfByte_byte8 (padTo_length h), padTo]

theorem properPrefix_iff {x y : BitString} : properPrefix x y = true ↔ x <+: y ∧ x.length < y.length := by
  simp [properPrefix]

end Sys2Proof.Machine
end

