-- ==== Sys2Proof/Laws/Tables.lean ====
section
/-! SUPPORT. Reading a table after writing it, and the tables after reset. -/

namespace Sys2Proof.Machine

theorem mem_allSymbols (y : Sym) : y ∈ allSymbols := by
  simp only [allSymbols, List.mem_map, List.mem_range]
  exact ⟨y.toNat, y.isLt, by simp⟩

theorem allSymbols_nodup : allSymbols.Nodup := by decide +kernel

theorem allSymbols_length : allSymbols.length = 256 := by simp [allSymbols]

@[simp] theorem freqAt_set_same (ft : Vector Count 256) (y : Sym) (v : Count) :
    freqAt (ft.set y.toNat v y.isLt) y = v := by simp [freqAt]

theorem freqAt_set_other (ft : Vector Count 256) {y z : Sym} (v : Count) (h : z ≠ y) :
    freqAt (ft.set y.toNat v y.isLt) z = freqAt ft z := by
  have hne : y.toNat ≠ z.toNat := fun e => h (BitVec.eq_of_toNat_eq e.symm)
  simp [freqAt, hne]

theorem freqAt_set (ft : Vector Count 256) (y z : Sym) (v : Count) :
    freqAt (ft.set y.toNat v y.isLt) z = if z = y then v else freqAt ft z := by
  split
  · subst_vars; simp
  · exact freqAt_set_other ft v ‹_›

@[simp] theorem codeAt_setCode_same (ct : Vector CodeEntry 256) (y : Sym) (e : CodeEntry) :
    codeAt (setCode ct y e) y = e := by simp [codeAt, setCode]

theorem codeAt_setCode_other (ct : Vector CodeEntry 256) {y z : Sym} (e : CodeEntry) (h : z ≠ y) :
    codeAt (setCode ct y e) z = codeAt ct z := by
  have hne : y.toNat ≠ z.toNat := fun e => h (BitVec.eq_of_toNat_eq e.symm)
  simp [codeAt, setCode, hne]

theorem codeAt_setCode (ct : Vector CodeEntry 256) (y z : Sym) (e : CodeEntry) :
    codeAt (setCode ct y e) z = if z = y then e else codeAt ct z := by
  split
  · subst_vars; simp
  · exact codeAt_setCode_other ct e ‹_›

theorem groupAt?_set_same (gt : Vector Group 255) {k : GroupNo} (g : Group) (h : k.toNat < 255) :
    groupAt? (gt.setIfInBounds k.toNat g) k = some g := by simp [groupAt?, h]

theorem groupAt?_set_other (gt : Vector Group 255) {j k : GroupNo} (g : Group) (h : j ≠ k) :
    groupAt? (gt.setIfInBounds k.toNat g) j = groupAt? gt j := by
  have hne : k.toNat ≠ j.toNat := fun e => h (BitVec.eq_of_toNat_eq e.symm)
  simp [groupAt?, hne]

theorem groupAt_set_same (gt : Vector Group 255) {k : GroupNo} (g : Group) (h : k.toNat < 255) :
    groupAt (gt.setIfInBounds k.toNat g) k = g := by simp [groupAt, groupAt?_set_same gt g h]

theorem groupAt_set_other (gt : Vector Group 255) {j k : GroupNo} (g : Group) (h : j ≠ k) :
    groupAt (gt.setIfInBounds k.toNat g) j = groupAt gt j := by simp [groupAt, groupAt?_set_other gt g h]

/-- Below the capacity a group is there to read. -/
theorem groupAt?_eq (gt : Vector Group 255) {k : GroupNo} (h : k.toNat < 255) :
    groupAt? gt k = some (groupAt gt k) := by simp [groupAt, groupAt?, h]

@[simp] theorem reset_freqAt (y : Sym) : freqAt State.reset.ft y = 0 := by simp [freqAt, State.reset]

@[simp] theorem reset_codeAt (y : Sym) : codeAt State.reset.ct y = CodeEntry.zero := by simp [codeAt, State.reset]

@[simp] theorem reset_groupAt (k : GroupNo) : groupAt State.reset.gt k = Group.zero := by
  by_cases h : k.toNat < 255 <;> simp [groupAt, groupAt?, State.reset, h]

/-- Two frequency tables that read alike are equal. -/
theorem freq_ext {a b : Vector Count 256} (h : ∀ y, freqAt a y = freqAt b y) : a = b := by
  apply Vector.ext
  intro i hi
  have := h (BitVec.ofNat 8 i)
  have hm : i % 256 = i := Nat.mod_eq_of_lt hi
  simpa [freqAt, hm] using this

/-- Two code tables that read alike are equal. -/
theorem code_ext {a b : Vector CodeEntry 256} (h : ∀ y, codeAt a y = codeAt b y) : a = b := by
  apply Vector.ext
  intro i hi
  have := h (BitVec.ofNat 8 i)
  have hm : i % 256 = i := Nat.mod_eq_of_lt hi
  simpa [codeAt, hm] using this

theorem mem_present {ft : Vector Count 256} {y : Sym} : y ∈ present ft ↔ freqAt ft y ≠ 0 := by
  simp [present, mem_allSymbols]

theorem present_nodup (ft : Vector Count 256) : (present ft).Nodup := allSymbols_nodup.filter _

theorem alphabetSize_le (ft : Vector Count 256) : alphabetSize ft ≤ 256 := by
  have := List.length_filter_le (fun y => freqAt ft y != 0) allSymbols
  simpa [alphabetSize, present, allSymbols_length] using this

theorem alphabetSize_eq_zero {ft : Vector Count 256} : alphabetSize ft = 0 ↔ ∀ y, freqAt ft y = 0 := by
  simp only [alphabetSize, List.length_eq_zero_iff, present, List.filter_eq_nil_iff]
  constructor
  · intro h y; simpa using h y (mem_allSymbols y)
  · intro h y _; simp [h y]

end Sys2Proof.Machine
end

