-- ==== Sys2Proof/Laws/Codes.lean ====
section
/-! SUPPORT. The walk of CT_GEN against the paths of the tree. -/

namespace Sys2Proof.Machine

@[simp] theorem follow_nil (gt : Vector Group 255) (n : NRef) : follow gt n [] = some n := by
  cases n <;> rfl

theorem follow_group_cons {gt : Vector Group 255} {k : GroupNo} {g : Group} (h : groupAt? gt k = some g)
    (b : Bool) (bs : BitString) : follow gt (.group k) (b :: bs) = follow gt (if b then g.c1 else g.c0) bs := by
  simp [follow, h]

/-- Following one more bit (R156): the child of the group reached. -/
theorem follow_append (gt : Vector Group 255) (n : NRef) (x y : BitString) :
    follow gt n (x ++ y) = (follow gt n x).bind fun m => follow gt m y := by
  induction x generalizing n with
  | nil => simp
  | cons b bs ih =>
    cases n with
    | leaf s => simp [follow]
    | group k =>
      simp only [List.cons_append, follow]
      cases h : groupAt? gt k with
      | none => rfl
      | some g => exact ih _

/-- The walk changes an entry only for a leaf it reaches, to the string of the way there (R131). -/
theorem visit_sound {gt : Vector Group 255} {depth : Nat} {n : NRef} {acc : BitString}
    {ct ct' : Vector CodeEntry 256} (h : visit gt depth n acc ct = some ct') (y : Sym) :
    codeAt ct' y = codeAt ct y ∨ ∃ x, follow gt n x = some (.leaf y) ∧ codeAt ct' y = ⟨true, acc ++ x⟩ := by
  induction depth generalizing n acc ct ct' with
  | zero => simp [visit] at h
  | succ d ih =>
    cases n with
    | leaf z =>
      simp only [visit, Option.some.injEq] at h
      subst h
      by_cases hy : y = z
      · subst hy; exact .inr ⟨[], by simp, by simp⟩
      · exact .inl (codeAt_setCode_other _ _ hy)
    | group k =>
      simp only [visit] at h
      split at h
      · cases h
      · rename_i g hg
        split at h
        · cases h
        · rename_i ct1 h1
          rcases ih h with he | ⟨x, hx, he⟩
          · rcases ih h1 with he1 | ⟨x, hx, he1⟩
            · exact .inl (he.trans he1)
            · exact .inr ⟨false :: x, by simp [follow, hg, hx], by rw [he, he1]; simp⟩
          · exact .inr ⟨true :: x, by simp [follow, hg, hx], by rw [he]; simp⟩

/-- Every leaf the walk reaches gets an entry (R130). -/
theorem visit_complete {gt : Vector Group 255} {depth : Nat} {n : NRef} {acc x : BitString}
    {ct ct' : Vector CodeEntry 256} {y : Sym} (h : visit gt depth n acc ct = some ct')
    (hx : follow gt n x = some (.leaf y)) : (codeAt ct' y).valid = true := by
  induction depth generalizing n acc ct ct' x with
  | zero => simp [visit] at h
  | succ d ih =>
    cases n with
    | leaf z =>
      simp only [visit, Option.some.injEq] at h
      subst h
      cases x with
      | nil => simp at hx; subst hx; simp
      | cons b bs => simp [follow] at hx
    | group k =>
      simp only [visit] at h
      split at h
      · cases h
      · rename_i g hg
        split at h
        · cases h
        · rename_i ct1 h1
          cases x with
          | nil => simp at hx
          | cons b bs =>
            simp only [follow, hg] at hx
            cases b with
            | true => exact ih h (by simpa using hx)
            | false =>
              have hv := ih h1 (by simpa using hx)
              rcases visit_sound h y with he | ⟨z, -, he⟩
              · rw [he]; exact hv
              · rw [he]

end Sys2Proof.Machine
end

