-- ==== Sys2Proof/Laws/Decoder.lean ====
section
/-! SUPPORT. What the matcher and the loop of DEC_BYTE can do, said once. -/

namespace Sys2Proof.Machine

/-- What a match means (R138): the symbol has a code and it is the bits. -/
theorem codeInverse_some {ct : Vector CodeEntry 256} {x : BitString} {y : Sym} (h : codeInverse ct x = some y) :
    (codeAt ct y).valid = true ∧ (codeAt ct y).bits = x := by
  have := List.find?_some h
  simpa using this

/-- What no match means: no valid code is the bits. -/
theorem codeInverse_none {ct : Vector CodeEntry 256} {x : BitString} :
    codeInverse ct x = none ↔ ∀ y, (codeAt ct y).valid = true → (codeAt ct y).bits ≠ x := by
  simp only [codeInverse, List.find?_eq_none]
  constructor
  · intro h y hv he
    exact h y (mem_allSymbols y) (by simp [hv, he])
  · intro h y _ hm
    simp only [Bool.and_eq_true, beq_iff_eq] at hm
    exact h y hm.1 hm.2

/-- What being inside a code means (R152). -/
theorem insideCode_iff {ct : Vector CodeEntry 256} {x : BitString} :
    insideCode ct x = true ↔
      ∃ y, (codeAt ct y).valid = true ∧ x <+: (codeAt ct y).bits ∧ x.length < (codeAt ct y).bits.length := by
  simp [insideCode, properPrefix_iff, mem_allSymbols]

/-- The frame of the loop of DEC_BYTE (R168): it touches `OUTS`, the decoder's state, and on a fault `ERR` and `PHASE`. -/
theorem decodeBits_frame (byte : Byte) (is : List Nat) (s : State) :
    ∃ outs dacc rem cnt err phase, decodeBits byte is s =
      { s with outs := outs, dacc := dacc, decRem := rem, decSymcnt := cnt, err := err, phase := phase } := by
  induction is generalizing s with
  | nil => exact ⟨s.outs, s.dacc, s.decRem, s.decSymcnt, s.err, s.phase, rfl⟩
  | cons i is ih =>
    unfold decodeBits
    split
    · exact ⟨s.outs, s.dacc, s.decRem, s.decSymcnt, s.err, s.phase, rfl⟩
    · simp only
      split
      · obtain ⟨o, d, r, c, e, p, h⟩ := ih ({ s with dacc := s.dacc ++ [byte.getLsbD i] }.emitDecoded ‹Sym›)
        exact ⟨o, d, r, c, e, p, h⟩
      · split
        · obtain ⟨o, d, r, c, e, p, h⟩ := ih { s with dacc := s.dacc ++ [byte.getLsbD i] }
          exact ⟨o, d, r, c, e, p, h⟩
        · exact ⟨_, _, _, _, _, _, rfl⟩

/-- The loop of DEC_BYTE only appends symbols, one per bit at most, and it ends either with phase and record as they were
or in the fault MISSING_CODE of the byte (R151, R152, R184). -/
theorem decodeBits_outcome (byte : Byte) (is : List Nat) (s : State) :
    (∃ ys, ys.length ≤ is.length ∧ (decodeBits byte is s).outs = s.outs ++ ys) ∧
    (((decodeBits byte is s).phase = s.phase ∧ (decodeBits byte is s).err = s.err) ∨
      ((decodeBits byte is s).phase = .fault ∧ ∃ aux bp,
        (decodeBits byte is s).err = ⟨.missingCode, 0x41, byte, aux, s.phase, bp⟩)) := by
  induction is generalizing s with
  | nil => exact ⟨⟨[], by simp, by simp [decodeBits]⟩, .inl ⟨rfl, rfl⟩⟩
  | cons i is ih =>
    unfold decodeBits
    split
    · exact ⟨⟨[], by simp, by simp⟩, .inl ⟨rfl, rfl⟩⟩
    · simp only
      split
      · obtain ⟨⟨ys, hl, ho⟩, hp⟩ := ih ({ s with dacc := s.dacc ++ [byte.getLsbD i] }.emitDecoded ‹Sym›)
        exact ⟨⟨‹Sym› :: ys, by simpa using hl, by rw [ho]; simp⟩, hp⟩
      · split
        · obtain ⟨⟨ys, hl, ho⟩, hp⟩ := ih { s with dacc := s.dacc ++ [byte.getLsbD i] }
          exact ⟨⟨ys, by simp; omega, ho⟩, hp⟩
        · exact ⟨⟨[], by simp, by simp⟩, .inr ⟨rfl, _, _, rfl⟩⟩

end Sys2Proof.Machine
end

