-- ==== Sys2Proof/Laws/Encoder.lean ====
section
/-! SUPPORT. What the loop of ENC_SYM does, said once. -/

namespace Sys2Proof.Machine

/-- The packed bytes and the bits still pending spell the pending bits and the new ones, in order; fewer than eight stay
(R139, R141). -/
theorem packBits_spec (bits pending : BitString) (h : pending.length < 8) :
    pending ++ bits = (packBits pending bits).2.flatMap bitsOfByte ++ (packBits pending bits).1 ∧
      (packBits pending bits).1.length < 8 := by
  induction bits generalizing pending with
  | nil => simpa [packBits] using h
  | cons b bs ih =>
    unfold packBits
    split
    · rename_i h8
      obtain ⟨ih1, ih2⟩ := ih [] (by simp)
      refine ⟨?_, ih2⟩
      rw [List.nil_append] at ih1
      simp only [List.flatMap_cons, bitsOfByte_byte8 h8, List.append_assoc]
      rw [← ih1]; simp
    · rename_i h8
      obtain ⟨ih1, ih2⟩ := ih (pending ++ [b]) (by simp at h8 ⊢; omega)
      exact ⟨by rw [← ih1]; simp, ih2⟩

theorem flatMap_bitsOfByte_length (bs : List Byte) : (bs.flatMap bitsOfByte).length = 8 * bs.length := by
  induction bs with
  | nil => rfl
  | cons b bs ih => simp [ih]; omega

/-- How many bytes leave, and how many bits stay (R141). -/
theorem packBits_lengths (bits pending : BitString) (h : pending.length < 8) :
    (packBits pending bits).2.length = (pending.length + bits.length) / 8 ∧
      (packBits pending bits).1.length = (pending.length + bits.length) % 8 := by
  obtain ⟨h1, h2⟩ := packBits_spec bits pending h
  have := congrArg List.length h1
  simp only [List.length_append, flatMap_bitsOfByte_length] at this
  omega

end Sys2Proof.Machine
end

