-- ==== Sys2Proof/Laws/Encoding.lean ====
section
/-! SUPPORT. The three fields of a word of format C. -/

namespace Sys2Proof

@[simp] theorem opField_formatC (op a : Byte) (b : BitVec 48) : opField (formatC op a b) = op := by
  apply BitVec.eq_of_getLsbD_eq
  intro i hi
  simp only [opField, formatC, BitVec.getLsbD_extractLsb', BitVec.getLsbD_append]
  simp only [hi, show ¬ (56 + i < 48) by omega, show ¬ (56 + i - 48 < 8) by omega, decide_true, Bool.true_and, if_false]
  congr 1; omega

@[simp] theorem aField_formatC (op a : Byte) (b : BitVec 48) : aField (formatC op a b) = a := by
  apply BitVec.eq_of_getLsbD_eq
  intro i hi
  simp only [aField, formatC, BitVec.getLsbD_extractLsb', BitVec.getLsbD_append]
  simp only [hi, show ¬ (48 + i < 48) by omega, show 48 + i - 48 < 8 by omega, decide_true, Bool.true_and, if_false, if_true]
  congr 1; omega

@[simp] theorem bField_formatC (op a : Byte) (b : BitVec 48) : bField (formatC op a b) = b := by
  apply BitVec.eq_of_getLsbD_eq
  intro i hi
  simp only [bField, formatC, BitVec.getLsbD_extractLsb', BitVec.getLsbD_append]
  simp [hi]

/-- A word is the format C of its own fields. -/
theorem formatC_fields (w : Word) : formatC (opField w) (aField w) (bField w) = w := by
  apply BitVec.eq_of_getLsbD_eq
  intro i hi
  simp only [opField, aField, bField, formatC, BitVec.getLsbD_extractLsb', BitVec.getLsbD_append]
  by_cases h1 : i < 48
  · simp [h1]
  · by_cases h2 : i - 48 < 8
    · simp only [h1, h2, if_true, if_false, decide_true, Bool.true_and]; congr 1; omega
    · simp only [h1, h2, if_false, show i - 48 - 8 < 8 by omega, decide_true, Bool.true_and]; congr 1; omega

end Sys2Proof
end

