-- ==== Sys2Proof/Laws/Phases.lean ====
section
/-! SUPPORT. The phase check, said once: what a phase-bound command can answer, and where. -/

namespace Sys2Proof.Machine

variable {p : Phase} {op a : Byte} {s t : State} {run : State → Result}

@[simp] theorem inPhase_fault (h : s.phase = .fault) : inPhase p op a s run = .next s := by simp [inPhase, h]

theorem inPhase_here (h : s.phase = p) (hp : p ≠ .fault) : inPhase p op a s run = run s := by
  subst h; simp [inPhase, hp]

theorem inPhase_wrong (h : s.phase ≠ .fault) (hp : s.phase ≠ p) :
    inPhase p op a s run = .next (s.raise op a .sequence 0 0) := by simp [inPhase, h, hp]

/-- Everything a phase-bound command can do: ignored, SEQUENCE, or its own pseudocode. -/
theorem inPhase_cases (h : inPhase p op a s run = .next t) :
    (s.phase = .fault ∧ t = s) ∨ (s.phase ≠ .fault ∧ s.phase ≠ p ∧ t = s.raise op a .sequence 0 0) ∨
    (s.phase ≠ .fault ∧ s.phase = p ∧ run s = .next t) := by
  unfold inPhase at h
  split at h
  · exact .inl ⟨‹_›, by cases h; rfl⟩
  · split at h
    · exact .inr (.inr ⟨‹_›, ‹_›, h⟩)
    · exact .inr (.inl ⟨‹_›, ‹_›, by cases h; rfl⟩)

/-- A command whose meaning is a phase check with its own opcode and `A` is legal in that phase only. -/
theorem onlyIn_of_inPhase {i : Instr} {run : State → Result}
    (h : ∀ s, exec i s = inPhase p i.op i.a s run) : OnlyIn p i := by
  intro s
  refine ⟨fun hf => by rw [h, inPhase_fault hf], fun hf hp => ?_⟩
  show exec i s = _
  rw [h, inPhase_wrong hf hp]
  rfl

/-- A step that takes a presented word is the word's own effect on the state. -/
theorem step_presentWord (w : Word) (s : State) : step (s.presentWord w) = acceptWord w s := rfl

theorem acceptWord_of_decode {w : Word} {i : Instr} (h : decode w = .ok i) (s : State) : acceptWord w s = exec i s := by
  simp [acceptWord, h]

theorem runWords_nil (s : State) : runWords [] s = .next s := rfl

theorem runWords_cons_of_next {w : Word} {ws : List Word} {s t : State} (h : acceptWord w s = .next t) :
    runWords (w :: ws) s = runWords ws t := by
  simp [runWords, step_presentWord, h]

theorem runWords_append_of_next {v ws : List Word} {s t : State} (h : runWords v s = .next t) :
    runWords (v ++ ws) s = runWords ws t := by
  induction v generalizing s with
  | nil => cases h; rfl
  | cons w v ih =>
    simp only [runWords, List.cons_append] at h ⊢
    split at h
    · exact ih h
    · cases h
    · cases h

end Sys2Proof.Machine
end

