-- ==== Sys2Proof/Laws/Tree.lean ====
section
/-! SUPPORT. What the operations of the tree builder do, said once: the order, the insertion, the merges. -/

namespace Sys2Proof.Machine

/-- The comparator as one condition on counts and names (R111). -/
theorem before_iff (s : State) (x y : NRef) :
    s.before x y = true ↔ (s.cnt y).toNat < (s.cnt x).toNat ∨ (s.cnt x = s.cnt y ∧
      match x, y with
      | .leaf _, .group _ => True
      | .group _, .leaf _ => False
      | .leaf a, .leaf b => b.toNat < a.toNat
      | .group j, .group k => j.toNat < k.toNat) := by
  unfold State.before
  by_cases h : s.cnt x = s.cnt y
  · cases x <;> cases y <;> simp [h]
  · simp [h]

/-- Insertion adds one entry and loses none (R117). -/
theorem insertInOrder_perm (s : State) (x : NRef) (l : List NRef) : (s.insertInOrder x l).Perm (x :: l) := by
  induction l with
  | nil => exact .refl _
  | cons y l ih =>
    unfold State.insertInOrder
    split
    · exact .refl _
    · exact (List.Perm.cons y ih).trans (List.Perm.swap x y l)

theorem insertInOrder_length (s : State) (x : NRef) (l : List NRef) :
    (s.insertInOrder x l).length = l.length + 1 := by simpa using (insertInOrder_perm s x l).length_eq

/-- The initial list holds the leaves of the alphabet (R114). -/
theorem initialList_perm (s : State) : s.initialList.Perm ((present s.ft).map NRef.leaf) := by
  unfold State.initialList
  induction (present s.ft).map NRef.leaf with
  | nil => exact .refl _
  | cons x l ih => exact (insertInOrder_perm s x _).trans (List.Perm.cons x ih)

theorem initialList_length (s : State) : s.initialList.length = alphabetSize s.ft := by
  simpa [alphabetSize] using (initialList_perm s).length_eq

@[simp] theorem newGroup_eq (c : GCount) (x y : NRef) : newGroup c x y = ⟨c, x, y⟩ := rfl

/-- A merge step on a list whose last two entries are `x` and `y` (R117). -/
theorem mergeStep_eq {s : State} {l : List NRef} {x y : NRef} (h : s.pl = l ++ [x, y]) :
    s.mergeStep = { s with
      gt := s.gt.setIfInBounds s.ngroups.toNat ⟨s.cnt x + s.cnt y, x, y⟩
      ngroups := s.ngroups + 1
      pl := (s.setGroup s.ngroups ⟨s.cnt x + s.cnt y, x, y⟩).insertInOrder (.group s.ngroups) l } := by
  have hr : s.pl.reverse = y :: x :: l.reverse := by simp [h]
  unfold State.mergeStep
  rw [hr]
  simp [State.setGroup]

/-- The final merge on a list of two entries (R119). -/
theorem finalMerge_eq {s : State} {x y : NRef} (h : s.pl = [x, y]) :
    s.finalMerge = { s with
      gt := s.gt.setIfInBounds s.ngroups.toNat ⟨0, x, y⟩
      ngroups := s.ngroups + 1
      pl := [.group s.ngroups]
      root := ⟨true, .group s.ngroups⟩ } := by
  unfold State.finalMerge
  rw [h]
  simp [State.setGroup]

/-- A list of more than two entries ends in two. -/
theorem exists_last_two {l : List NRef} (h : 2 < l.length) : ∃ l' x y, l' ≠ [] ∧ l = l' ++ [x, y] := by
  have h1 : l ≠ [] := by intro e; simp [e] at h
  obtain ⟨m, y, rfl⟩ : ∃ m y, l = m ++ [y] := ⟨l.dropLast, l.getLast h1, (List.dropLast_append_getLast h1).symm⟩
  have h2 : m ≠ [] := by intro e; simp [e] at h
  obtain ⟨n, x, rfl⟩ : ∃ n x, m = n ++ [x] := ⟨m.dropLast, m.getLast h2, (List.dropLast_append_getLast h2).symm⟩
  refine ⟨n, x, y, ?_, by simp⟩
  intro e; simp [e] at h

/-- The frame of a merge step (R168): it touches `GT`, `NGROUPS` and `PL`. -/
theorem mergeStep_frame (s : State) : ∃ gt n pl, s.mergeStep = { s with gt := gt, ngroups := n, pl := pl } := by
  unfold State.mergeStep
  split
  · exact ⟨_, _, _, rfl⟩
  · exact ⟨s.gt, s.ngroups, s.pl, rfl⟩

/-- A merge step shortens a list of more than two entries by one (R117). -/
theorem mergeStep_length {s : State} (h : 2 < s.pl.length) : s.mergeStep.pl.length = s.pl.length - 1 := by
  obtain ⟨l, x, y, -, hl⟩ := exists_last_two h
  rw [mergeStep_eq hl]
  simp [insertInOrder_length, hl]

/-- An invariant of the merge loop: what every merge step on more than two entries keeps holds at its end, and two entries
or fewer are left (R113, R166). -/
theorem mergeWhile_induction {P : State → Prop} (step : ∀ s, P s → 2 < s.pl.length → P s.mergeStep)
    (fuel : Nat) (s : State) (hf : s.pl.length ≤ fuel + 2) (hp : P s) :
    P (mergeWhile fuel s) ∧ (mergeWhile fuel s).pl.length = min s.pl.length 2 := by
  induction fuel generalizing s with
  | zero => exact ⟨hp, by simp [mergeWhile]; omega⟩
  | succ n ih =>
    unfold mergeWhile
    split
    · rename_i h
      obtain ⟨h1, h2⟩ := ih s.mergeStep (by rw [mergeStep_length h]; omega) (step s hp h)
      refine ⟨h1, ?_⟩
      rw [h2, mergeStep_length h]; omega
    · exact ⟨hp, by omega⟩

/-- The frame of the merge loop (R168). -/
theorem mergeWhile_frame (fuel : Nat) (s : State) :
    ∃ gt n pl, mergeWhile fuel s = { s with gt := gt, ngroups := n, pl := pl } := by
  induction fuel generalizing s with
  | zero => exact ⟨s.gt, s.ngroups, s.pl, rfl⟩
  | succ f ih =>
    unfold mergeWhile
    split
    · obtain ⟨g, n, p, h⟩ := mergeStep_frame s
      obtain ⟨g', n', p', h'⟩ := ih s.mergeStep
      rw [h] at h'
      exact ⟨g', n', p', by rw [h, h']⟩
    · exact ⟨s.gt, s.ngroups, s.pl, rfl⟩

/-- The frame of the tree builder (R113, R168): it touches the tree's own tables, `TREE_VALID` and `PHASE`. -/
theorem buildTree_frame (s : State) (l : Nat) : ∃ gt n pl root, s.buildTree l =
    { s with gt := gt, ngroups := n, pl := pl, root := root, alpha := BitVec.ofNat 9 l, treeValid := true,
             phase := .tree } := by
  unfold State.buildTree State.growTree
  split
  · unfold State.singleRoot
    split <;> exact ⟨_, _, _, _, rfl⟩
  · obtain ⟨g, n, p, h⟩ := mergeWhile_frame s.startTree.pl.length s.startTree
    rw [h]
    unfold State.finalMerge
    split <;> exact ⟨_, _, _, _, rfl⟩

/-- The tree builder on an alphabet of one symbol (R116). -/
theorem buildTree_one {s : State} {x : NRef} (h : s.initialList = [x]) : s.buildTree 1 =
    { s with pl := [x], ngroups := 0, root := ⟨true, x⟩, alpha := 1, treeValid := true, phase := .tree } := by
  simp [State.buildTree, State.growTree, State.startTree, State.singleRoot, h]

/-- What the tree builder leaves on two symbols or more, from what the merge loop leaves: an invariant of the merge steps
holds of the state `m` before the final merge, which has two entries (R113, R119). -/
theorem buildTree_many {P : State → Prop} {s : State} (h : 2 ≤ alphabetSize s.ft) (start : P s.startTree)
    (step : ∀ s, P s → 2 < s.pl.length → P s.mergeStep) :
    ∃ m x y, P m ∧ m.pl = [x, y] ∧ s.buildTree (alphabetSize s.ft) =
      { m.finalMerge with alpha := BitVec.ofNat 9 (alphabetSize s.ft), treeValid := true, phase := .tree } := by
  obtain ⟨hP, hl⟩ := mergeWhile_induction step s.startTree.pl.length s.startTree (by simp) start
  have hs : s.startTree.pl.length = alphabetSize s.ft := initialList_length s
  have h2 : (mergeWhile s.startTree.pl.length s.startTree).pl.length = 2 := by omega
  obtain ⟨x, y, hxy⟩ := List.length_eq_two.mp h2
  refine ⟨_, x, y, hP, hxy, ?_⟩
  rw [State.buildTree, State.growTree, if_neg (by omega)]

end Sys2Proof.Machine
end

