-- ==== Sys2Proof/Laws/Exec.lean ====
section
/-! SUPPORT. Everything a command can do, said once: `Effect i s t` lists the ways from `s` to `t` under `i`, and
`exec_effect` says there is no other. Claims over all commands are proved by cases on it. -/

namespace Sys2Proof.Machine

/-- The ways a command takes a state to its next state. -/
inductive Effect : Instr → State → State → Prop where
  /-- NOP (R160) -/
  | nop (s : State) : Effect .nop s s
  /-- CLEAR (R161) -/
  | clear (s : State) : Effect .clear s s.cleared
  /-- a read command answers its word (R90) -/
  | rdCsr (s : State) (idx : Byte) : Effect (.rdCsr idx) s (s.emitRsp (csrWord s idx))
  | rdFreq (s : State) (y : Sym) : Effect (.rdFreq y) s (s.emitRsp (freqWord (freqAt s.ft y)))
  | rdGroup (s : State) (k : GroupNo) (w : Word) : Effect (.rdGroup k) s (s.emitRsp w)
  | rdClen (s : State) (y : Sym) : Effect (.rdClen y) s (s.emitRsp (clenWord (codeAt s.ct y)))
  | rdCode (s : State) (y : Sym) (c : BitVec 2) : Effect (.rdCode y c) s (s.emitRsp (codeWord (codeAt s.ct y) c))
  /-- a phase-bound command in phase FAULT is ignored (R181) -/
  | ignored (i : Instr) (s : State) (p : Phase) (hi : legalPhase i = some p) (h : s.phase = .fault) : Effect i s s
  /-- a phase-bound command in another phase raises SEQUENCE (R176) -/
  | sequence (i : Instr) (s : State) (p : Phase) (hi : legalPhase i = some p) (h : s.phase ≠ .fault)
      (hp : s.phase ≠ p) : Effect i s (s.raise i.op i.a .sequence 0 0)
  /-- a command in its own phase raises one of its own faults before any effect (R184) -/
  | faulted (i : Instr) (s : State) (p : Phase) (hi : legalPhase i = some p) (hp : s.phase = p) (c : FaultCode)
      (aux : Byte) (hc : c ∈ ownFaults i) : Effect i s (s.raise i.op i.a c aux 0)
  | freqSym (s : State) (y : Sym) (h : s.phase = .freq) (hm : freqAt s.ft y ≠ BitVec.allOnes 32) :
      Effect (.freqSym y) s (s.setFreq y (freqAt s.ft y + 1))
  | freqLoad (s : State) (y : Sym) (c : Count) (h : s.phase = .freq) : Effect (.freqLoad y c) s (s.setFreq y c)
  | tbBuild (s : State) (h : s.phase = .freq) (hl : alphabetSize s.ft ≠ 0) :
      Effect .tbBuild s (s.buildTree (alphabetSize s.ft))
  | ctGen (s : State) (ct : Vector CodeEntry 256) (h : s.phase = .tree) (hc : codeTableOf s.gt s.root.ref = some ct) :
      Effect .ctGen s { s with ct := ct, ctValid := true, phase := .ready }
  | encStart (s : State) (h : s.phase = .ready) :
      Effect .encStart s { s with epend := [], encSymcnt := 0, encBitlen := 0, phase := .enc }
  | encSym (s : State) (y : Sym) (h : s.phase = .enc) (hv : (codeAt s.ct y).valid = true)
      (hm : s.encSymcnt ≠ BitVec.allOnes 48) : Effect (.encSym y) s (s.packSymbol (codeAt s.ct y))
  | encEnd (s : State) (h : s.phase = .enc) :
      Effect .encEnd s { s.emitOutb (if s.epend.length > 0 then [pad8 s.epend] else []) with
        epend := [], phase := .ready }
  | decStart (s : State) (n : SCount) (h : s.phase = .ready) :
      Effect (.decStart n) s { s with dacc := [], decRem := n, decSymcnt := 0, phase := .dec }
  | decByte (s : State) (b : Byte) (h : s.phase = .dec) (hr : s.decRem ≠ 0) :
      Effect (.decByte b) s (decodeBits b [7, 6, 5, 4, 3, 2, 1, 0] s)
  | decEnd (s : State) (h : s.phase = .dec) (hr : s.decRem = 0) : Effect .decEnd s { s with phase := .ready }

/-- A command does nothing but what `Effect` lists. -/
theorem exec_effect {i : Instr} {s t : State} (h : exec i s = .next t) : Effect i s t := by
  cases i with
  | nop => cases h; exact .nop s
  | clear => cases h; exact .clear s
  | rdCsr idx => cases h; exact .rdCsr s idx
  | rdFreq y => cases h; exact .rdFreq s y
  | rdClen y => cases h; exact .rdClen s y
  | rdCode y c => cases h; exact .rdCode s y c
  | rdGroup k => simp only [exec, execRdGroup] at h; split at h <;> cases h <;> exact .rdGroup s k _
  | freqSym y =>
    simp only [exec, execFreqSym] at h
    rcases inPhase_cases h with ⟨hf, rfl⟩ | ⟨hf, hp, rfl⟩ | ⟨-, hp, h⟩
    · exact .ignored _ _ _ rfl hf
    · exact .sequence _ _ _ rfl hf hp
    · split at h <;> cases h
      · exact .faulted (.freqSym y) _ _ rfl hp .countOverflow 0 (by simp [ownFaults])
      · exact .freqSym s y hp ‹_›
  | freqLoad y c =>
    simp only [exec, execFreqLoad] at h
    rcases inPhase_cases h with ⟨hf, rfl⟩ | ⟨hf, hp, rfl⟩ | ⟨-, hp, h⟩
    · exact .ignored _ _ _ rfl hf
    · exact .sequence _ _ _ rfl hf hp
    · cases h; exact .freqLoad s y c hp
  | tbBuild =>
    simp only [exec, execTbBuild] at h
    rcases inPhase_cases h with ⟨hf, rfl⟩ | ⟨hf, hp, rfl⟩ | ⟨-, hp, h⟩
    · exact .ignored _ _ _ rfl hf
    · exact .sequence _ _ _ rfl hf hp
    · split at h <;> cases h
      · exact .faulted .tbBuild _ _ rfl hp .emptyInput 0 (by simp [ownFaults])
      · exact .tbBuild s hp ‹_›
  | ctGen =>
    simp only [exec, execCtGen] at h
    rcases inPhase_cases h with ⟨hf, rfl⟩ | ⟨hf, hp, rfl⟩ | ⟨-, hp, h⟩
    · exact .ignored _ _ _ rfl hf
    · exact .sequence _ _ _ rfl hf hp
    · split at h <;> cases h
      exact .ctGen s _ hp ‹_›
  | encStart =>
    simp only [exec, execEncStart] at h
    rcases inPhase_cases h with ⟨hf, rfl⟩ | ⟨hf, hp, rfl⟩ | ⟨-, hp, h⟩
    · exact .ignored _ _ _ rfl hf
    · exact .sequence _ _ _ rfl hf hp
    · cases h; exact .encStart s hp
  | encSym y =>
    simp only [exec, execEncSym] at h
    rcases inPhase_cases h with ⟨hf, rfl⟩ | ⟨hf, hp, rfl⟩ | ⟨-, hp, h⟩
    · exact .ignored _ _ _ rfl hf
    · exact .sequence _ _ _ rfl hf hp
    · split at h
      · cases h; exact .faulted (.encSym y) _ _ rfl hp .missingCode 0 (by simp [ownFaults])
      · rename_i hv
        split at h <;> cases h
        · exact .faulted (.encSym y) _ _ rfl hp .countOverflow 0 (by simp [ownFaults])
        · exact .encSym s y hp (by simpa using hv) ‹_›
  | encEnd =>
    simp only [exec, execEncEnd] at h
    rcases inPhase_cases h with ⟨hf, rfl⟩ | ⟨hf, hp, rfl⟩ | ⟨-, hp, h⟩
    · exact .ignored _ _ _ rfl hf
    · exact .sequence _ _ _ rfl hf hp
    · cases h; exact .encEnd s hp
  | decStart n =>
    simp only [exec, execDecStart] at h
    rcases inPhase_cases h with ⟨hf, rfl⟩ | ⟨hf, hp, rfl⟩ | ⟨-, hp, h⟩
    · exact .ignored _ _ _ rfl hf
    · exact .sequence _ _ _ rfl hf hp
    · cases h; exact .decStart s n hp
  | decByte b =>
    simp only [exec, execDecByte] at h
    rcases inPhase_cases h with ⟨hf, rfl⟩ | ⟨hf, hp, rfl⟩ | ⟨-, hp, h⟩
    · exact .ignored _ _ _ rfl hf
    · exact .sequence _ _ _ rfl hf hp
    · split at h <;> cases h
      · exact .faulted (.decByte b) _ _ rfl hp .trailingData 0 (by simp [ownFaults])
      · exact .decByte s b hp ‹_›
  | decEnd =>
    simp only [exec, execDecEnd] at h
    rcases inPhase_cases h with ⟨hf, rfl⟩ | ⟨hf, hp, rfl⟩ | ⟨-, hp, h⟩
    · exact .ignored _ _ _ rfl hf
    · exact .sequence _ _ _ rfl hf hp
    · split at h <;> cases h
      · exact .decEnd s hp ‹_›
      · exact .faulted .decEnd _ _ rfl hp .truncatedStream _ (by simp [ownFaults])

end Sys2Proof.Machine
end

