-- ==== Sys2Proof/Laws/PerInstr.lean ====
section
/-! SUPPORT. Statements made for every command as syntax, one lemma per constructor. `RowMatch`: the word of a command
matches the row of the opcode table that has its mnemonic (30_encoding.md rule R84). -/

namespace Sys2Proof

/-- The test of a row works field by field. -/
theorem formatC_and (op a op' a' : Byte) (b b' : BitVec 48) :
    formatC op a b &&& formatC op' a' b' = formatC (op &&& op') (a &&& a') (b &&& b') := by
  apply BitVec.eq_of_getLsbD_eq
  intro i _
  simp only [formatC, BitVec.getLsbD_and, BitVec.getLsbD_append]
  split
  · rfl
  · split <;> rfl

/-- A word whose fields agree with a row's on the row's mask matches the row. -/
theorem rowMatch_of_fields (r : OpRow) (op a : Byte) (b : BitVec 48) (hop : op &&& opField r.mask = opField r.pattern)
    (ha : a &&& aField r.mask = aField r.pattern) (hb : b &&& bField r.mask = bField r.pattern) :
    r.holds (formatC op a b) = true := by
  have h : formatC op a b &&& r.mask = r.pattern := by
    rw [← formatC_fields r.mask, ← formatC_fields r.pattern, formatC_and, hop, ha, hb]
  simp [OpRow.holds, h]

/-- A field under an all-zero mask is zero. -/
theorem field_and_zero {n : Nat} (x m p : BitVec n) (hm : m = 0#n) (hp : p = 0#n) : x &&& m = p := by
  subst hm; subst hp; exact BitVec.and_zero

/-- A zero-extended field under a mask that covers only the bits above it is zero. -/
theorem zeroExtend_and_high {n k : Nat} (x : BitVec n) (m p : BitVec k) (hp : p = 0#k)
    (hm : ∀ i < n, m.getLsbD i = false) : x.zeroExtend k &&& m = p := by
  subst hp
  apply BitVec.eq_of_getLsbD_eq
  intro i _
  by_cases h : i < n
  · simp [hm i h]
  · simp [BitVec.getLsbD_of_ge x i (by omega)]

end Sys2Proof

namespace Sys2Proof.Laws.RowMatch

/-- Rule R84: the command's word matches its own row of the table. -/
def Statement (i : Instr) : Prop := ∃ r ∈ opTable, r.mnemonic = i.mnemonic ∧ r.holds (encode i) = true

theorem nop : Statement .nop :=
  ⟨⟨"NOP", 0x0000000000000000, 0xFFFFFFFFFFFFFFFF⟩, by decide, rfl,
    rowMatch_of_fields _ 0x00 0 0 (by decide) (by decide)
      (by decide)⟩

theorem clear : Statement .clear :=
  ⟨⟨"CLEAR", 0x0100000000000000, 0xFFFFFFFFFFFFFFFF⟩, by decide, rfl,
    rowMatch_of_fields _ 0x01 0 0 (by decide) (by decide)
      (by decide)⟩

theorem freqSym (sym : Sym) : Statement (.freqSym sym) :=
  ⟨⟨"FREQ_SYM", 0x1000000000000000, 0xFF00FFFFFFFFFFFF⟩, by decide, rfl,
    rowMatch_of_fields _ 0x10 sym 0 (by decide) (field_and_zero _ _ _ (by decide) (by decide))
      (by decide)⟩

theorem freqLoad (sym : Sym) (count : Count) : Statement (.freqLoad sym count) :=
  ⟨⟨"FREQ_LOAD", 0x1100000000000000, 0xFF00FFFF00000000⟩, by decide, rfl,
    rowMatch_of_fields _ 0x11 sym (count.zeroExtend 48) (by decide) (field_and_zero _ _ _ (by decide) (by decide))
      (zeroExtend_and_high count _ _ (by decide) (by decide))⟩

theorem tbBuild : Statement .tbBuild :=
  ⟨⟨"TB_BUILD", 0x2000000000000000, 0xFFFFFFFFFFFFFFFF⟩, by decide, rfl,
    rowMatch_of_fields _ 0x20 0 0 (by decide) (by decide)
      (by decide)⟩

theorem ctGen : Statement .ctGen :=
  ⟨⟨"CT_GEN", 0x2100000000000000, 0xFFFFFFFFFFFFFFFF⟩, by decide, rfl,
    rowMatch_of_fields _ 0x21 0 0 (by decide) (by decide)
      (by decide)⟩

theorem encStart : Statement .encStart :=
  ⟨⟨"ENC_START", 0x3000000000000000, 0xFFFFFFFFFFFFFFFF⟩, by decide, rfl,
    rowMatch_of_fields _ 0x30 0 0 (by decide) (by decide)
      (by decide)⟩

theorem encSym (sym : Sym) : Statement (.encSym sym) :=
  ⟨⟨"ENC_SYM", 0x3100000000000000, 0xFF00FFFFFFFFFFFF⟩, by decide, rfl,
    rowMatch_of_fields _ 0x31 sym 0 (by decide) (field_and_zero _ _ _ (by decide) (by decide))
      (by decide)⟩

theorem encEnd : Statement .encEnd :=
  ⟨⟨"ENC_END", 0x3200000000000000, 0xFFFFFFFFFFFFFFFF⟩, by decide, rfl,
    rowMatch_of_fields _ 0x32 0 0 (by decide) (by decide)
      (by decide)⟩

theorem decStart (n : SCount) : Statement (.decStart n) :=
  ⟨⟨"DEC_START", 0x4000000000000000, 0xFFFF000000000000⟩, by decide, rfl,
    rowMatch_of_fields _ 0x40 0 n (by decide) (by decide)
      (field_and_zero _ _ _ (by decide) (by decide))⟩

theorem decByte (byte : Byte) : Statement (.decByte byte) :=
  ⟨⟨"DEC_BYTE", 0x4100000000000000, 0xFF00FFFFFFFFFFFF⟩, by decide, rfl,
    rowMatch_of_fields _ 0x41 byte 0 (by decide) (field_and_zero _ _ _ (by decide) (by decide))
      (by decide)⟩

theorem decEnd : Statement .decEnd :=
  ⟨⟨"DEC_END", 0x4200000000000000, 0xFFFFFFFFFFFFFFFF⟩, by decide, rfl,
    rowMatch_of_fields _ 0x42 0 0 (by decide) (by decide)
      (by decide)⟩

theorem rdCsr (idx : Byte) : Statement (.rdCsr idx) :=
  ⟨⟨"RD_CSR", 0x5000000000000000, 0xFF00FFFFFFFFFFFF⟩, by decide, rfl,
    rowMatch_of_fields _ 0x50 idx 0 (by decide) (field_and_zero _ _ _ (by decide) (by decide))
      (by decide)⟩

theorem rdFreq (sym : Sym) : Statement (.rdFreq sym) :=
  ⟨⟨"RD_FREQ", 0x5100000000000000, 0xFF00FFFFFFFFFFFF⟩, by decide, rfl,
    rowMatch_of_fields _ 0x51 sym 0 (by decide) (field_and_zero _ _ _ (by decide) (by decide))
      (by decide)⟩

theorem rdGroup (k : GroupNo) : Statement (.rdGroup k) :=
  ⟨⟨"RD_GROUP", 0x5200000000000000, 0xFF00FFFFFFFFFFFF⟩, by decide, rfl,
    rowMatch_of_fields _ 0x52 k 0 (by decide) (field_and_zero _ _ _ (by decide) (by decide))
      (by decide)⟩

theorem rdClen (sym : Sym) : Statement (.rdClen sym) :=
  ⟨⟨"RD_CLEN", 0x5300000000000000, 0xFF00FFFFFFFFFFFF⟩, by decide, rfl,
    rowMatch_of_fields _ 0x53 sym 0 (by decide) (field_and_zero _ _ _ (by decide) (by decide))
      (by decide)⟩

theorem rdCode (sym : Sym) (chunk : BitVec 2) : Statement (.rdCode sym chunk) :=
  ⟨⟨"RD_CODE", 0x5400000000000000, 0xFF00FFFFFFFFFFFC⟩, by decide, rfl,
    rowMatch_of_fields _ 0x54 sym (chunk.zeroExtend 48) (by decide) (field_and_zero _ _ _ (by decide) (by decide))
      (zeroExtend_and_high chunk _ _ (by decide) (by decide))⟩

end Sys2Proof.Laws.RowMatch
end

