-- ==== Sys2Proof/Laws/Run.lean ====
section
/-! SUPPORT. What runs do (70_reset_and_hazards.md rule R212): a taking moves one item from the core to the host, draining
moves them all, and a run of words to its end gives the host what the words left on the channels. -/

namespace Sys2Proof.Machine

theorem step_presentInput (e : HostEvent) (s : State) : step (s.presentInput e) = hostEvent e s := rfl

@[simp] theorem runInputs_nil (r : Run) : runInputs [] r = .next r := rfl

theorem runInputs_cons_of_next {e : HostEvent} {es : List HostEvent} {r r' : Run} (h : r.input e = .next r') :
    runInputs (e :: es) r = runInputs es r' := by simp [runInputs, h]

theorem runInputs_append_of_next {es fs : List HostEvent} {r r' : Run} (h : runInputs es r = .next r') :
    runInputs (es ++ fs) r = runInputs fs r' := by
  induction es generalizing r with
  | nil => cases h; rfl
  | cons e es ih =>
    simp only [runInputs, List.cons_append] at h ⊢
    split at h
    · exact ih h
    · cases h
    · cases h

/-- Everything the core has put out, taken or not: what the host will hold once it has drained the channels. -/
def Run.output (r : Run) : Taken :=
  ⟨r.taken.outb ++ r.state.outb, r.taken.outs ++ r.state.outs, r.taken.rsp ++ r.state.rsp⟩

/-- A taking loses and reorders nothing (20_memory.md rule R62), and touches the channels alone. -/
theorem input_take {e : HostEvent} (he : e = .takeRsp ∨ e = .takeOutb ∨ e = .takeOuts) (r : Run) :
    ∃ r' : Run, r.input e = .next r' ∧ r'.output = r.output ∧
      r'.state = { r.state with outb := r'.state.outb, outs := r'.state.outs, rsp := r'.state.rsp } := by
  have h {α : Type} (l : List α) : l.take 1 ++ l.tail = l := by cases l <;> rfl
  rcases he with rfl | rfl | rfl <;>
    exact ⟨_, rfl, by simp [Run.output, HostEvent.takes, h], rfl⟩

theorem runInputs_takeOutb (s : State) (k : Taken) :
    runInputs (List.replicate s.outb.length .takeOutb) ⟨s, k⟩ =
      .next ⟨{ s with outb := [] }, { k with outb := k.outb ++ s.outb }⟩ := by
  obtain ⟨l, hl⟩ : ∃ l, l = s.outb := ⟨_, rfl⟩
  induction l generalizing s k with
  | nil => simp [← hl]; rw [hl]
  | cons b l ih =>
    rw [← hl, List.length_cons, List.replicate_succ,
      runInputs_cons_of_next (r' := ⟨{ s with outb := l }, { k with outb := k.outb ++ [b] }⟩)]
    · simpa using ih { s with outb := l } { k with outb := k.outb ++ [b] } rfl
    · simp [Run.input, step_presentInput, hostEvent, HostEvent.takes, ← hl]

theorem runInputs_takeOuts (s : State) (k : Taken) :
    runInputs (List.replicate s.outs.length .takeOuts) ⟨s, k⟩ =
      .next ⟨{ s with outs := [] }, { k with outs := k.outs ++ s.outs }⟩ := by
  obtain ⟨l, hl⟩ : ∃ l, l = s.outs := ⟨_, rfl⟩
  induction l generalizing s k with
  | nil => simp [← hl]; rw [hl]
  | cons y l ih =>
    rw [← hl, List.length_cons, List.replicate_succ,
      runInputs_cons_of_next (r' := ⟨{ s with outs := l }, { k with outs := k.outs ++ [y] }⟩)]
    · simpa using ih { s with outs := l } { k with outs := k.outs ++ [y] } rfl
    · simp [Run.input, step_presentInput, hostEvent, HostEvent.takes, ← hl]

theorem runInputs_takeRsp (s : State) (k : Taken) :
    runInputs (List.replicate s.rsp.length .takeRsp) ⟨s, k⟩ =
      .next ⟨{ s with rsp := [] }, { k with rsp := k.rsp ++ s.rsp }⟩ := by
  obtain ⟨l, hl⟩ : ∃ l, l = s.rsp := ⟨_, rfl⟩
  induction l generalizing s k with
  | nil => simp [← hl]; rw [hl]
  | cons w l ih =>
    rw [← hl, List.length_cons, List.replicate_succ,
      runInputs_cons_of_next (r' := ⟨{ s with rsp := l }, { k with rsp := k.rsp ++ [w] }⟩)]
    · simpa using ih { s with rsp := l } { k with rsp := k.rsp ++ [w] } rfl
    · simp [Run.input, step_presentInput, hostEvent, HostEvent.takes, ← hl]

/-- Draining gives the host everything and leaves the channels empty and the rest as it is. -/
theorem runInputs_drain (r : Run) :
    runInputs r.state.drain r = .next ⟨{ r.state with outb := [], outs := [], rsp := [] }, r.output⟩ := by
  rw [State.drain, List.append_assoc, runInputs_append_of_next (runInputs_takeOutb r.state r.taken),
    runInputs_append_of_next (runInputs_takeOuts { r.state with outb := [] } _)]
  exact runInputs_takeRsp { r.state with outb := [], outs := [] } _

/-- A run of words is a run of inputs in which the host takes nothing. -/
theorem runInputs_words {ws : List Word} {s t : State} (h : runWords ws s = .next t) (k : Taken) :
    runInputs (ws.map .cmd) ⟨s, k⟩ = .next ⟨t, k⟩ := by
  induction ws generalizing s with
  | nil => cases h; rfl
  | cons w ws ih =>
    simp only [runWords] at h
    split at h
    · rename_i u hu
      rw [List.map_cons, runInputs_cons_of_next (r' := ⟨u, k⟩)]
      · exact ih h
      · simp only [Run.input]
        rw [show step (s.presentInput (.cmd w)) = .next u from hu]
        rfl
    · cases h
    · cases h

/-- The run to its end of words that lead from `s` to `t`: the host holds what `t` has on its channels. -/
theorem runToEnd_of_runWords {ws : List Word} {s t : State} (h : runWords ws s = .next t) :
    runToEnd ws s = .next ⟨{ t with outb := [], outs := [], rsp := [] }, ⟨t.outb, t.outs, t.rsp⟩⟩ := by
  simp only [runToEnd, runInputs_words h]
  exact runInputs_drain ⟨t, .none⟩

/-- Such a run has a result exactly when no fault is recorded and no session is open at its end, and the result is what
the words left on the channels. -/
theorem result_of_runWords {ws : List Word} {s t : State} (h : runWords ws s = .next t) (he : t.err.code = .none)
    (hp : t.phase = .freq ∨ t.phase = .tree ∨ t.phase = .ready) :
    ∃ r, runToEnd ws s = .next r ∧ r.result = some ⟨t.outb, t.outs, t.rsp⟩ := by
  refine ⟨_, runToEnd_of_runWords h, ?_⟩
  rcases hp with hp | hp | hp <;> simp [Run.result, State.endedWell, he, hp]

end Sys2Proof.Machine
end

