-- ==== Sys2Proof/Machine/Assembler.lean ====
section
/-! DEFINITION. The assembler syntax of 30_encoding.md rule R88, with the pseudo-instructions of rule R89: a line of
text to the commands it stands for. No rule of the machine depends on it. -/

namespace Sys2Proof.Machine

/-- The pieces of a line (R88). -/
inductive Token where
  /-- a mnemonic or a number -/
  | word (cs : List Char)
  /-- a character in single quotes -/
  | char (c : Char)
  /-- a text in double quotes (R89) -/
  | text (cs : List Char)
  /-- the operand separator -/
  | comma
  deriving DecidableEq, Repr

/-- A character of a mnemonic or a number. -/
def wordChar (c : Char) : Bool := c.isAlphanum || c == '_'

/-- A line cut into tokens; a semicolon outside quotes starts a comment (R88). `fuel` is the number of characters. -/
def tokens : Nat → List Char → Option (List Token)
  | _, [] => some []
  | 0, _ :: _ => none
  | fuel + 1, c :: cs =>
    if c = ' ' ∨ c.toNat = 0x09 then tokens fuel cs
    else if c = ';' then some []
    else if c = ',' then (tokens fuel cs).map (.comma :: ·)
    else if c.toNat = 0x27 then
      match cs with
      | x :: q :: rest => if q.toNat = 0x27 then (tokens fuel rest).map (.char x :: ·) else none
      | _ => none
    else if c.toNat = 0x22 then
      match cs.dropWhile (·.toNat != 0x22) with
      | _ :: rest => (tokens fuel rest).map (.text (cs.takeWhile (·.toNat != 0x22)) :: ·)
      | [] => none
    else if wordChar c then
      (tokens fuel (cs.dropWhile wordChar)).map (.word (c :: cs.takeWhile wordChar) :: ·)
    else none

/-- The value of a digit in a base of at most 16. -/
def digit (base : Nat) (c : Char) : Option Nat :=
  let n := c.toNat
  let v := if 0x30 ≤ n ∧ n ≤ 0x39 then n - 0x30
    else if 0x61 ≤ n ∧ n ≤ 0x66 then n - 0x61 + 10
    else if 0x41 ≤ n ∧ n ≤ 0x46 then n - 0x41 + 10 else 16
  if v < base then some v else none

/-- The value of a non-empty string of digits. -/
def digits (base : Nat) (cs : List Char) : Option Nat :=
  if cs.isEmpty then none
  else cs.foldl (fun v c => v.bind fun v => (digit base c).map (base * v + ·)) (some 0)

/-- A number: decimal, or hexadecimal after 0x (R88). -/
def number : List Char → Option Nat
  | '0' :: 'x' :: cs => digits 16 cs
  | cs => digits 10 cs

/-- A number as a field of `w` bits, where it fits (R82). -/
def field (w n : Nat) : Option (BitVec w) := if n < 2 ^ w then some (BitVec.ofNat w n) else none

/-- A numeric operand of `w` bits. -/
def numOperand (w : Nat) : Token → Option (BitVec w)
  | .word cs => (number cs).bind (field w)
  | _ => none

/-- A symbol or byte operand: a number, or a character standing for its code point (R88). -/
def symOperand : Token → Option Sym
  | .char c => field 8 c.toNat
  | t => numOperand 8 t

/-- The operand tokens of a line, without their commas. -/
def operands : List Token → Option (List Token)
  | [] => some []
  | [.comma] => none
  | [t] => some [t]
  | t :: .comma :: rest => if t = .comma ∨ rest = [] then none else (operands rest).map (t :: ·)
  | _ => none

/-- The symbols of a text (R88, R89). -/
def textSymbols (cs : List Char) : Option (List Sym) := cs.mapM fun c => field 8 c.toNat

/-- The commands of a mnemonic with its operands, in the order of rule R84's operand column (R88); a pseudo-instruction
gives its expansion (R89). DESIGN CHOICE: DEC_BYTES may be written with no byte operand, which rule R89 does not show, and
stands for DEC_START, DEC_END (log 14). -/
def command (m : String) (ops : List Token) : Option (List Instr) :=
  match m, ops with
  | "NOP", [] => some [.nop]
  | "CLEAR", [] => some [.clear]
  | "FREQ_SYM", [a] => (symOperand a).map fun a => [.freqSym a]
  | "FREQ_LOAD", [a, b] => (symOperand a).bind fun a => (numOperand 32 b).map fun b => [.freqLoad a b]
  | "TB_BUILD", [] => some [.tbBuild]
  | "CT_GEN", [] => some [.ctGen]
  | "ENC_START", [] => some [.encStart]
  | "ENC_SYM", [a] => (symOperand a).map fun a => [.encSym a]
  | "ENC_END", [] => some [.encEnd]
  | "DEC_START", [b] => (numOperand 48 b).map fun b => [.decStart b]
  | "DEC_BYTE", [a] => (symOperand a).map fun a => [.decByte a]
  | "DEC_END", [] => some [.decEnd]
  | "RD_CSR", [a] => (numOperand 8 a).map fun a => [.rdCsr a]
  | "RD_FREQ", [a] => (symOperand a).map fun a => [.rdFreq a]
  | "RD_GROUP", [a] => (numOperand 8 a).map fun a => [.rdGroup a]
  | "RD_CLEN", [a] => (symOperand a).map fun a => [.rdClen a]
  | "RD_CODE", [a, b] => (symOperand a).bind fun a => (numOperand 2 b).map fun b => [.rdCode a b]
  | "BUILD", [] => some (Pseudo.expand .build)
  | "FREQ_TEXT", [.text t] => (textSymbols t).map fun t => Pseudo.expand (.freqText t)
  | "ENC_TEXT", [.text t] => (textSymbols t).map fun t => Pseudo.expand (.encText t)
  | "DEC_BYTES", n :: bs =>
      (numOperand 48 n).bind fun n => (bs.mapM symOperand).map fun bs => Pseudo.expand (.decBytes n bs)
  | "RD_STATUS", [] => some (Pseudo.expand .rdStatus)
  | "RD_ERR", [] => some (Pseudo.expand .rdErr)
  | "COMPRESS", [.text t] => (textSymbols t).map fun t => Pseudo.expand (.compress t)
  | _, _ => none

/-- One line: a command or pseudo-instruction, or nothing but a comment (R88); none for a line of no such form. -/
def assembleLine (line : List Char) : Option (List Instr) :=
  match tokens line.length line with
  | some [] => some []
  | some (.word m :: rest) => (operands rest).bind (command (String.ofList m))
  | _ => none

/-- The command words of a program text, line by line (R80, R88, R89). -/
def assemble (lines : List (List Char)) : Option (List Word) :=
  (lines.mapM assembleLine).map fun is => is.flatten.map encode

end Sys2Proof.Machine
end

