-- ==== Sys2Proof/Tests/Slice0.lean ====
section
/-! SUPPORT. Tests of the model's own work, their expected values from 30_encoding.md and 95_test_vectors.md (the vector is
named at each), and for every statement with hypotheses a witness that meets them. -/

namespace Sys2Proof.Tests

open Sys2Proof.Machine

/-! ## Decoding: one word per command, its bits written from rules R81 to R84 -/

theorem test_decode_nop : decode 0x0000000000000000 = .ok .nop := rfl
theorem test_decode_clear : decode 0x0100000000000000 = .ok .clear := rfl
theorem test_decode_freqSym : decode (0x10#8 ++ 0x61#8 ++ 0#48) = .ok (.freqSym 0x61) := rfl
theorem test_decode_freqLoad : decode (0x11#8 ++ 0x62#8 ++ 0#16 ++ 3#32) = .ok (.freqLoad 0x62 3) := rfl
theorem test_decode_tbBuild : decode (0x20#8 ++ 0#56) = .ok .tbBuild := rfl
theorem test_decode_ctGen : decode (0x21#8 ++ 0#56) = .ok .ctGen := rfl
theorem test_decode_encStart : decode (0x30#8 ++ 0#56) = .ok .encStart := rfl
theorem test_decode_encSym : decode (0x31#8 ++ 0x62#8 ++ 0#48) = .ok (.encSym 0x62) := rfl
theorem test_decode_encEnd : decode (0x32#8 ++ 0#56) = .ok .encEnd := rfl
theorem test_decode_decStart : decode (0x40#8 ++ 0#8 ++ 0x800000000009#48) = .ok (.decStart 0x800000000009) := rfl
theorem test_decode_decByte : decode (0x41#8 ++ 0x80#8 ++ 0#48) = .ok (.decByte 0x80) := rfl
theorem test_decode_decEnd : decode (0x42#8 ++ 0#56) = .ok .decEnd := rfl
theorem test_decode_rdCsr : decode (0x50#8 ++ 0x0A#8 ++ 0#48) = .ok (.rdCsr 0x0A) := rfl
theorem test_decode_rdFreq : decode (0x51#8 ++ 0x61#8 ++ 0#48) = .ok (.rdFreq 0x61) := rfl
theorem test_decode_rdGroup : decode (0x52#8 ++ 0xFE#8 ++ 0#48) = .ok (.rdGroup 0xFE) := rfl
theorem test_decode_rdClen : decode (0x53#8 ++ 0x61#8 ++ 0#48) = .ok (.rdClen 0x61) := rfl
theorem test_decode_rdCode : decode (0x54#8 ++ 0x63#8 ++ 0#46 ++ 3#2) = .ok (.rdCode 0x63 3) := rfl

/-- Vectors X4, X5, X6, X7, Q5: words that are no command. -/
theorem test_decode_rejects :
    decode 0x02AB000000001234 = .error (.reservedOpcode 0x02) ∧ decode 0x2001000000000000 = .error (.mustBeZero "TB_BUILD") ∧
    decode 0x2000000000000001 = .error (.mustBeZero "TB_BUILD") ∧ decode 0x5400000000000004 = .error (.mustBeZero "RD_CODE") ∧
    decode 0x1161000100000000 = .error (.mustBeZero "FREQ_LOAD") := ⟨rfl, rfl, rfl, rfl, rfl⟩

/-- The host's view of the decoder. -/
theorem test_decodeTableWord :
    decodeTableWord 64 0x5463000000000003 = some (.rdCode 0x63 3) ∧ decodeTableWord 64 0xFF00000000000000 = none := ⟨rfl, rfl⟩

/-! ## Well-formed terms, and one ill-formed term for each check -/

theorem test_params_wellFormed : Config.params.wellFormed = true := by decide
theorem test_params_widths :
    Config.params.symW = 8 ∧ State.reset.ft.size = Config.params.nsym ∧ State.reset.gt.size = Config.params.ngrp ∧
    (NRef.leaf 0).bits.toFin = 0 ∧ Config.params.nrefW = 9 := by decide
theorem test_illFormed_symW : Params.wellFormed { Config.params with symW := 9 } = false := by decide
theorem test_illFormed_nsym : Params.wellFormed { Config.params with nsym := 255 } = false := by decide
theorem test_illFormed_cntW : Params.wellFormed { Config.params with cntW := 33, gcntW := 41 } = false := by decide
theorem test_illFormed_gcntW : Params.wellFormed { Config.params with gcntW := 32 } = false := by decide
theorem test_illFormed_ngrp : Params.wellFormed { Config.params with ngrp := 256 } = false := by decide
theorem test_illFormed_maxLen : Params.wellFormed { Config.params with maxLen := 256 } = false := by decide
theorem test_illFormed_lenW : Params.wellFormed { Config.params with lenW := 7, blenW := 55 } = false := by decide
theorem test_illFormed_nrefW : Params.wellFormed { Config.params with nrefW := 8 } = false := by decide
theorem test_illFormed_scntW : Params.wellFormed { Config.params with scntW := 47, blenW := 55 } = false := by decide
theorem test_illFormed_blenW : Params.wellFormed { Config.params with blenW := 48 } = false := by decide
theorem test_illFormed_cmdW : Params.wellFormed { Config.params with cmdW := 32 } = false := by decide
theorem test_legalWord : legalWord 0x1161000000000003 = true := by decide
/-- One illegal word per row of the table: a must-be-zero bit of that row set; and a reserved opcode. -/
theorem test_illegalWords : ([0x0000000000000001, 0x0100000000000001, 0x1061000000000001, 0x1161000100000000,
    0x2001000000000000, 0x2100000000000001, 0x3000000000000001, 0x3161000000000001, 0x3201000000000000,
    0x4001000000000000, 0x4100800000000000, 0x4200000000000001, 0x5000000000000001, 0x5100000000000001,
    0x5200000000000001, 0x5300000000000001, 0x5400000000000004, 0x02AB000000001234] : List Word).any legalWord = false := by
  decide

/-! ## States of vector V1 ("aaaaaaaab") and of the one-symbol vector V3 ("aaaa") -/

/-- What a command leaves, where it answers a next state. -/
def nextOf : Result → Option State
  | .next t => some t
  | .fault _ => none
  | .refused _ => none

/-- The result of a run, where it answers one. -/
def resultOf : Host.Outcome Run Fault Refusal → Option Taken
  | .next r => r.result
  | .fault _ => none
  | .refused _ => none

/-- V1 before TB_BUILD: a 8, b 1. -/
def countedV1 : State := (State.reset.setFreq 0x61 8).setFreq 0x62 1

/-- V1 after TB_BUILD. -/
def treeV1 : State :=
  { countedV1 with phase := .tree, gt := (State.reset.setGroup 0 ⟨0, .leaf 0x61, .leaf 0x62⟩).gt, ngroups := 1, alpha := 2,
                   root := ⟨true, .group 0⟩, treeValid := true, pl := [.group 0] }

/-- V1 after CT_GEN. -/
def readyV1 : State :=
  { treeV1 with phase := .ready, ctValid := true,
                ct := setCode (setCode State.reset.ct 0x61 ⟨true, [false]⟩) 0x62 ⟨true, [true]⟩ }

/-- V1 after ENC_START. -/
def encV1 : State := { readyV1 with phase := .enc }

/-- V1 after DEC_START 9. -/
def decV1 : State := { readyV1 with phase := .dec, decRem := 9 }

/-- V3 before TB_BUILD: a 4. -/
def countedV3 : State := State.reset.setFreq 0x61 4

/-- V3 after TB_BUILD. -/
def treeV3 : State :=
  { countedV3 with phase := .tree, alpha := 1, root := ⟨true, .leaf 0x61⟩, treeValid := true, pl := [.leaf 0x61] }

/-- V3 after CT_GEN. -/
def readyV3 : State :=
  { treeV3 with phase := .ready, ctValid := true, ct := setCode State.reset.ct 0x61 ⟨true, [false]⟩ }

/-- V3 after DEC_START 4. -/
def decV3 : State := { readyV3 with phase := .dec, decRem := 4 }

/-- Phase FAULT as the empty build leaves it (vector T1). -/
def faultT1 : State := { State.reset with phase := .fault, err := ⟨.emptyInput, 0x20, 0, 0, .freq, 0⟩ }

/-! ## One step per test -/

/-- Y8. -/
theorem test_nop : exec .nop encV1 = .next encV1 := rfl
/-- Y9: the pending bit is lost. -/
theorem test_clear : exec .clear { encV1 with epend := [true], outb := [0x00] } =
    .next { State.reset with outb := [0x00] } := rfl
/-- Q1. -/
theorem test_freqSym : (nextOf (exec (.freqSym 0x61) countedV1)).map (fun t => (freqAt t.ft 0x61, freqAt t.ft 0x62)) =
    some (9, 1) := by decide +kernel
/-- Q4. -/
theorem test_freqSym_overflow :
    (nextOf (exec (.freqSym 0x61) (State.reset.setFreq 0x61 0xFFFFFFFF))).map
      (fun t => (csrErr t, freqAt t.ft 0x61)) = some (0x0000000000611007, 0xFFFFFFFF) := by decide +kernel
/-- Q3: a load overwrites. -/
theorem test_freqLoad : (nextOf (exec (.freqLoad 0x61 5) countedV1)).map (fun t => freqAt t.ft 0x61) = some 5 := by
  decide +kernel
/-- V1. -/
theorem test_tbBuild : (nextOf (exec .tbBuild countedV1)).map
    (fun t => (groupAt t.gt 0, t.pl, [csrStatus t, csrAlpha t, csrRoot t, csrNgroups t])) =
    some (⟨0, .leaf 0x61, .leaf 0x62⟩, [.group 0], [0x09, 2, 0x300, 1]) := by decide +kernel
/-- T6: the sum of two counts at their maximum does not wrap, and the new group comes before the equal leaf's smaller count. -/
theorem test_tbBuild_wide : (nextOf (exec .tbBuild 
      (((State.reset.setFreq 0x61 0xFFFFFFFF).setFreq 0x62 0xFFFFFFFF).setFreq 0x63 0xFFFFFFFF))).map
      (fun t => (groupAt t.gt 0, groupAt t.gt 1, t.pl)) =
    some (⟨0x1FFFFFFFE, .leaf 0x62, .leaf 0x61⟩, ⟨0, .group 0, .leaf 0x63⟩, [.group 1]) := by decide +kernel
/-- V1. -/
theorem test_ctGen : (nextOf (exec .ctGen treeV1)).map
    (fun t => (codeAt t.ct 0x61, codeAt t.ct 0x62, codeAt t.ct 0x63, csrStatus t)) =
    some (⟨true, [false]⟩, ⟨true, [true]⟩, ⟨false, []⟩, 0x1A) := by decide +kernel
/-- S2, V3: the code of the only symbol is "0". -/
theorem test_ctGen_single : (nextOf (exec .ctGen treeV3)).map
    (fun t => (codeAt t.ct 0x61, codeAt t.ct 0x62, t.phase)) = some (⟨true, [false]⟩, ⟨false, []⟩, .ready) := by
  decide +kernel
/-- E7: a session starts from an empty stream. -/
theorem test_encStart : (nextOf (exec .encStart { readyV1 with encSymcnt := 9, encBitlen := 9 })).map
    (fun t => (t.phase, t.encSymcnt, t.encBitlen)) = some (.enc, 0, 0) := by decide +kernel
/-- E1: the eighth symbol writes the byte. -/
theorem test_encSym : (nextOf (exec (.encSym 0x61)
    { encV1 with epend := List.replicate 7 false, encSymcnt := 7, encBitlen := 7 })).map (fun t => (t.outb, t.epend, t.encBitlen)) = some ([0x00], [], 8) := by decide +kernel
/-- E6. -/
theorem test_encSym_missing : (nextOf (exec (.encSym 0x7A) encV1)).map csrErr = some 0x00000003007A3103 := by
  decide +kernel
/-- E2: "1" padded. -/
theorem test_encEnd : (nextOf (exec .encEnd { encV1 with epend := [true] })).map (fun t => (t.outb, t.phase)) =
    some ([0x80], .ready) := by decide +kernel
/-- DV8: DEC_DONE at once for N = 0. -/
theorem test_decStart : (nextOf (exec (.decStart 0) readyV1)).map csrStatus = some 0x5C := by decide +kernel
/-- DV3: the padding bits after the last symbol are not checked. -/
theorem test_decByte : (nextOf (exec (.decByte 0xFF) { decV1 with decRem := 1, decSymcnt := 8 })).map
    (fun t => (t.outs, t.decRem, t.decSymcnt, t.phase)) = some ([0x62], 0, 9, .dec) := by decide +kernel
/-- DV10: a fault in mid-byte keeps what was decoded before it. -/
theorem test_decByte_missing : (nextOf (exec (.decByte 0x20) decV3)).map
    (fun t => (csrErr t, t.outs, t.decRem, t.decSymcnt, t.dacc)) =
    some (0x0000005401204103, [0x61, 0x61], 2, 2, [true]) := by decide +kernel
/-- DV4. -/
theorem test_decEnd : (nextOf (exec .decEnd { decV1 with decRem := 1, decSymcnt := 8 })).map csrErr =
    some 0x0000000400004204 := by decide +kernel
/-- E5: seven pending bits and the byte they would pad to. -/
theorem test_rdCsr : (nextOf (exec (.rdCsr 0x08) { encV1 with epend := [true, false, false, false, false, true, true] })).map
    (·.rsp) = some [0x0000000000008607] := by decide +kernel
/-- Y1. -/
theorem test_rdCsr_id : (nextOf (exec (.rdCsr 0x00) faultT1)).map (·.rsp) = some [0x0000200848554631] := by decide +kernel
/-- Q4: a count is read in phase FAULT too. -/
theorem test_rdFreq : (nextOf (exec (.rdFreq 0x61) (faultT1.setFreq 0x61 0xFFFFFFFF))).map
    (·.rsp) = some [0x00000000FFFFFFFF] := by decide +kernel
/-- V4: `GT[1] = (4, b, G0)`. -/
theorem test_rdGroup : (nextOf (exec (.rdGroup 1) 
    { treeV1.setGroup 1 ⟨4, .leaf 0x62, .group 0⟩ with ngroups := 2 })).map (·.rsp) = some [0x8200620000000004] := by
  decide +kernel
/-- V2: RD_GROUP past the groups in use. -/
theorem test_rdGroup_unused : (nextOf (exec (.rdGroup 1) treeV1)).map (·.rsp) = some [0] := by decide +kernel
/-- V2: the length of "00". -/
theorem test_rdClen : (nextOf (exec (.rdClen 0x61) { readyV1 with ct := setCode readyV1.ct 0x61 ⟨true, [false, false]⟩ })).map
    (·.rsp) = some [0x8000000000000002] := by decide +kernel
/-- V2: the code "01". -/
theorem test_rdCode : (nextOf (exec (.rdCode 0x63 0) { readyV1 with ct := setCode readyV1.ct 0x63 ⟨true, [false, true]⟩ })).map
    (·.rsp) = some [0x4000000000000000] := by decide +kernel

/-- X4: an illegal word outside phase FAULT; X8: the same word inside it. -/
theorem test_step_illegal :
    (nextOf (step (State.presentWord { encV1 with epend := [true] } 0x02AB000000001234))).map
      (fun t => (csrErr t, t.epend)) = some (0x0000000300AB0205, [true]) ∧
    step (faultT1.presentWord 0xFF00000000000000) = .next faultT1 := ⟨by decide +kernel, rfl⟩

/-- X1: a command out of phase. -/
theorem test_step_sequence : (nextOf (step (readyV1.presentWord 0x3161000000000000))).map
    (fun t => (csrErr t, csrStatus t)) = some (0x0000000200613106, 0x3F) := by decide +kernel

/-- Y10: reset drops the bytes not yet taken. -/
theorem test_step_reset : step { readyV1 with outb := [0x00, 0x80], host := [.reset] } = .next State.reset := rfl

/-- E2 to the end: the padded byte and STATUS = 0x1A (P1) are the result of the run; a session left open has none (R212). -/
theorem test_run_result :
    resultOf (runToEnd [0x3200000000000000, 0x5001000000000000] { encV1 with epend := [true] }) =
      some ⟨[0x80], [], [0x1A]⟩ ∧ Run.result ⟨encV1, .none⟩ = none := by decide +kernel

/-- A word placed by `withFetchWord` is the next one run. -/
theorem test_withFetchWord : step (State.reset.withFetchWord 64 0x1062000000000000) = exec (.freqSym 0x62) State.reset :=
  rfl

/-- Program P2's source lines against its words (R88, R89). -/
theorem test_assemble : (assemble ["CLEAR ; new invocation".toList, "FREQ_LOAD 'a', 8".toList, "FREQ_LOAD 'b', 1".toList,
    "BUILD".toList, "DEC_BYTES 9, 0x00, 0x80".toList, "RD_STATUS".toList, "RD_CSR 0x0A".toList]) =
    some [0x0100000000000000, 0x1161000000000008, 0x1162000000000001, 0x2000000000000000, 0x2100000000000000,
      0x4000000000000009, 0x4100000000000000, 0x4180000000000000, 0x4200000000000000, 0x5001000000000000,
      0x500A000000000000] := by decide +kernel

/-! ## Facts of the states of V1 and V3 -/

theorem freq_V1 (y : Sym) : freqAt countedV1.ft y = if y = 0x62 then 1 else if y = 0x61 then 8 else 0 := by
  simp only [countedV1, State.setFreq, freqAt_set, reset_freqAt]

theorem present_V1 (y : Sym) : freqAt countedV1.ft y ≠ 0 ↔ y = 0x61 ∨ y = 0x62 := by
  rw [freq_V1]
  split
  · simp_all
  · split <;> simp_all

theorem alphabet_V1 : alphabetSize countedV1.ft = 2 := by decide +kernel

theorem freq_V3 (y : Sym) : freqAt countedV3.ft y = if y = 0x61 then 4 else 0 := by
  simp only [countedV3, State.setFreq, freqAt_set, reset_freqAt]

theorem present_V3 (y : Sym) : freqAt countedV3.ft y ≠ 0 ↔ y = 0x61 := by
  rw [freq_V3]
  split <;> simp_all

theorem alphabet_V3 : alphabetSize countedV3.ft = 1 := by decide +kernel

theorem codes_V1 (y : Sym) : codeAt readyV1.ct y =
    if y = 0x62 then ⟨true, [true]⟩ else if y = 0x61 then ⟨true, [false]⟩ else CodeEntry.zero := by
  simp only [readyV1, codeAt_setCode, reset_codeAt]

theorem codes_V3 (y : Sym) : codeAt readyV3.ct y = if y = 0x61 then ⟨true, [false]⟩ else CodeEntry.zero := by
  simp only [readyV3, codeAt_setCode, reset_codeAt]

theorem group_V1 (k : GroupNo) : groupAt treeV1.gt k = if k = 0 then ⟨0, .leaf 0x61, .leaf 0x62⟩ else Group.zero := by
  split
  · subst_vars; exact groupAt_set_same State.reset.gt (k := 0) _ (by decide)
  · exact (groupAt_set_other State.reset.gt (k := 0) _ ‹_›).trans (reset_groupAt k)

theorem children_V1 : treeChildren treeV1 = [.leaf 0x61, .leaf 0x62] := by
  have h : treeV1.ngroups.toNat = 1 := rfl
  simp [treeChildren, h, group_V1]

theorem treeShape_V1 : TreeShape treeV1 where
  alpha_eq := alphabet_V1.symm
  groups_eq := alphabet_V1.symm
  root_valid := rfl
  root_single h := absurd (alphabet_V1.symm.trans h) (by decide)
  root_group _ := rfl
  list_root := rfl
  child_lower k j hk hj := by
    obtain rfl : k = 0 := BitVec.eq_of_toNat_eq (by simpa [treeV1] using hk)
    simp only [group_V1] at hj
    rcases hj with hj | hj <;> cases hj
  one_parent := by
    rw [children_V1]; decide
  child_iff n := by
    rw [children_V1]
    cases n with
    | leaf y => simpa [IsNode, treeV1] using (present_V1 y).symm
    | group k => simp [IsNode, treeV1, BitVec.toNat_eq]
  counts k hk := by simp [treeV1] at hk
  root_count _ := by rw [group_V1]; rfl
  unused_zero k hk := by
    rw [group_V1, if_neg]
    rintro rfl
    simp [treeV1] at hk

theorem treeShape_V3 : TreeShape treeV3 where
  alpha_eq := alphabet_V3.symm
  groups_eq := alphabet_V3.symm
  root_valid := rfl
  root_single _ := ⟨0x61, (present_V3 _).mpr rfl, rfl⟩
  root_group h := absurd (h.trans_eq alphabet_V3) (by decide)
  list_root := rfl
  child_lower k j hk := absurd hk (Nat.not_lt_zero _)
  one_parent := List.nodup_nil
  child_iff n := by
    have h : treeChildren treeV3 = [] := rfl
    rw [h]
    cases n with
    | leaf y => simpa [IsNode, treeV3] using (present_V3 y).mp
    | group k => simp [IsNode, treeV3, countedV3, State.setFreq, State.reset]
  counts k hk := absurd hk (Nat.not_lt_zero _)
  root_count h := absurd h (by decide)
  unused_zero k _ := reset_groupAt k

theorem codeTable_V1 : codeTableOf readyV1.gt readyV1.root.ref = some readyV1.ct := by
  have h : groupAt? readyV1.gt 0 = some ⟨0, .leaf 0x61, .leaf 0x62⟩ :=
    groupAt?_set_same State.reset.gt (k := 0) _ (by decide)
  have hr : readyV1.root.ref = .group 0 := rfl
  simp only [codeTableOf, hr, visit, h]
  rfl

theorem inv_readyV1 : readyV1.Inv :=
  ⟨⟨by decide, by decide, by decide, by decide⟩, ⟨by decide, fun _ => rfl, by decide, by decide⟩,
    ⟨fun _ => { treeShape_V1 with }, by decide, fun _ => codeTable_V1, by decide⟩,
    ⟨by decide, by decide, fun _ _ => rfl, by decide⟩,
    ⟨by decide, fun _ => .inl rfl, fun _ _ => rfl, fun _ _ => rfl, by decide⟩⟩

theorem inv_decV1 : decV1.Inv :=
  ⟨⟨by decide, by decide, by decide, by decide⟩, ⟨by decide, fun _ => rfl, by decide, by decide⟩,
    ⟨fun _ => { treeShape_V1 with }, by decide, fun _ => codeTable_V1, by decide⟩,
    ⟨by decide, by decide, fun _ _ => rfl, by decide⟩,
    ⟨by decide, fun _ => .inl rfl, fun _ h => absurd h (by decide), fun _ _ => rfl, by decide⟩⟩

theorem inv_decV3 : decV3.Inv :=
  ⟨⟨by decide, by decide, by decide, by decide⟩, ⟨by decide, fun _ => rfl, by decide, by decide⟩,
    ⟨fun _ => { treeShape_V3 with }, by decide, fun _ => rfl, by decide⟩,
    ⟨by decide, by decide, fun _ _ => rfl, by decide⟩,
    ⟨by decide, fun _ => .inl rfl, fun _ h => absurd h (by decide), fun _ _ => rfl, by decide⟩⟩

theorem inv_reset : State.reset.Inv :=
  ⟨⟨by decide, by decide, by decide, by decide⟩, ⟨by decide, fun _ => rfl, by decide, by decide⟩,
    ⟨fun h => absurd h (by decide), fun _ => ⟨rfl, rfl, rfl, rfl, rfl⟩, fun h => absurd h (by decide), fun _ => rfl⟩,
    ⟨by decide, by decide, fun _ _ => rfl, by decide⟩,
    ⟨by decide, fun _ => .inl rfl, by decide, fun _ _ => rfl, by decide⟩⟩

theorem prefixFree_V1 : PrefixFree decV1.ct := by
  intro a b ha hb hp
  have h (y : Sym) : codeAt decV1.ct y = _ := codes_V1 y
  rw [h] at ha hb hp
  rw [h] at hp
  by_cases a1 : a = 0x62 <;> by_cases a2 : a = 0x61 <;> by_cases b1 : b = 0x62 <;> by_cases b2 : b = 0x61 <;>
    simp_all [CodeEntry.zero]

theorem prefixFree_V3 : PrefixFree decV3.ct := by
  intro a b ha hb _
  have h (y : Sym) : codeAt decV3.ct y = _ := codes_V3 y
  rw [h] at ha hb
  by_cases a1 : a = 0x61 <;> by_cases b1 : b = 0x61 <;> simp_all [CodeEntry.zero]

theorem codesNonempty_V1 : CodesNonempty decV1.ct := by
  intro a ha
  have h : codeAt decV1.ct a = _ := codes_V1 a
  rw [h] at ha ⊢
  by_cases a1 : a = 0x62 <;> by_cases a2 : a = 0x61 <;> simp_all [CodeEntry.zero]

theorem codesNonempty_V3 : CodesNonempty decV3.ct := by
  intro a ha
  have h : codeAt decV3.ct a = _ := codes_V3 a
  rw [h] at ha ⊢
  by_cases a1 : a = 0x61 <;> simp_all [CodeEntry.zero]

/-! ## Witnesses: for every statement with hypotheses, terms that meet them, clause by clause -/

theorem test_witness_EncodeOfDecode : decode 0x11FF0000FFFFFFFF = .ok (.freqLoad 0xFF 0xFFFFFFFF) := rfl

theorem test_witness_RowMatchIsDecoding :
    (∃ r ∈ opTable, (0x5463000000000003 : Word) &&& r.mask = r.pattern) ∧
    decode 0x5463000000000003 = .ok (.rdCode 0x63 3) := ⟨by decide, rfl⟩

theorem test_witness_IllegalWordFaultsOrIsIgnored :
    (∀ r ∈ opTable, (0x02AB000000001234 : Word) &&& r.mask ≠ r.pattern) ∧
    encV1.phase ≠ .fault ∧ faultT1.phase = .fault ∧
    (encV1.presentWord 0x02AB000000001234).host = .cmd 0x02AB000000001234 :: [] := ⟨by decide, by decide, rfl, rfl⟩

theorem test_witness_StepRunsTheDecodedCommand :
    (State.reset.presentWord 0x1062000000000000).host = .cmd 0x1062000000000000 :: [] ∧
    decode 0x1062000000000000 = .ok (.freqSym 0x62) := ⟨rfl, rfl⟩

theorem test_witness_ResetAndTakingAct : ∃ s1 s2 s3 s4 s5 s6 : State,
    s1.host = [.reset] ∧ s2.host = [.resetDuring 0x2000000000000000] ∧ s3.host = [.takeRsp] ∧ s4.host = [.takeOutb] ∧
    s5.host = [.takeOuts] ∧ s6.host = [] :=
  ⟨{ encV1 with host := [.reset] }, { encV1 with host := [.resetDuring 0x2000000000000000] },
    { encV1 with rsp := [1], host := [.takeRsp] }, { encV1 with outb := [1], host := [.takeOutb] },
    { encV1 with host := [.takeOuts] }, encV1, rfl, rfl, rfl, rfl, rfl, rfl⟩

theorem test_witness_CommandsIgnoreLaterInputs : ∃ t, exec (.rdCsr 0) (encV1.presentWord 0) = .next t := ⟨_, rfl⟩

theorem test_witness_ClearStartsANewInvocation :
    (∃ t, exec .clear faultT1 = .next t ∧ faultT1.phase = .fault ∧ t.phase ≠ .fault) ∧
    ∃ t, exec .clear encV1 = .next t ∧ encV1.phase ≠ .freq ∧ t.phase = .freq :=
  ⟨⟨_, rfl, rfl, by decide⟩, _, rfl, by decide, rfl⟩

/-- Unassigned indices at both ends of their range. -/
theorem test_witness_RdCsrAnswersTheRegister : 0x0C ≤ (0x0C : Byte).toNat ∧ 0x0C ≤ (0xFF : Byte).toNat := by decide

theorem test_witness_CsrTableAndCounterLayout :
    ({ encV1 with epend := List.replicate 7 true } : State).epend.length ≤ 7 ∧
    ({ decV1 with dacc := List.replicate 255 true } : State).dacc.length ≤ 255 ∧
    0x03 ≤ (0x03 : Byte).toNat ∧ (0x0B : Byte).toNat ≤ 0x0B := by
  exact ⟨List.length_replicate.le, List.length_replicate.le, by decide, by decide⟩

theorem test_witness_FreqSymCountsOne :
    (freqAt (State.reset.setFreq 0x61 0xFFFFFFFE).ft 0x61).toNat < 2 ^ 32 - 1 ∧
    (freqAt (State.reset.setFreq 0x61 0xFFFFFFFF).ft 0x61).toNat = 2 ^ 32 - 1 ∧
    State.reset.phase = .freq ∧ faultT1.phase = .fault ∧ treeV1.phase ≠ .fault ∧ treeV1.phase ≠ .freq := by
  refine ⟨?_, ?_, rfl, rfl, by decide, by decide⟩
  · exact (congrArg BitVec.toNat (freqAt_set_same State.reset.ft 0x61 0xFFFFFFFE)).trans_lt (by decide)
  · exact congrArg BitVec.toNat (freqAt_set_same State.reset.ft 0x61 0xFFFFFFFF)

theorem test_witness_FreqLoadSetsTheCount :
    State.reset.phase = .freq ∧ (0x1161000100000000 : Word).extractLsb' 56 8 = 0x11 ∧
    (0x1161000100000000 : Word).extractLsb' 32 16 ≠ 0 := by decide

theorem test_witness_CountingATextGivesOccurrences : ([0x61, 0x61, 0x62] : List Sym).length < 2 ^ 32 := by decide

theorem test_witness_FrequencyCommandsCommute :
    countedV1.phase = .freq ∧ (0x61 : Sym) ≠ 0x62 ∧ (freqAt countedV1.ft 0x61).toNat < 2 ^ 32 - 1 ∧
    (freqAt countedV1.ft 0x62).toNat < 2 ^ 32 - 1 := by
  refine ⟨rfl, by decide, ?_, ?_⟩ <;> simp [freq_V1]

/-- The state of V4 with the groups of its first two merges: counts a 5, r 2, b 2, d 1, c 1; G0 2, G1 4. -/
def countedV4 : State :=
  (((((State.reset.setFreq 0x61 5).setFreq 0x72 2).setFreq 0x62 2).setFreq 0x64 1).setFreq 0x63 1).setGroup 0
    ⟨2, .leaf 0x64, .leaf 0x63⟩ |>.setGroup 1 ⟨4, .leaf 0x62, .group 0⟩

/-- Each clause of the comparator: unequal counts; leaf and group of count 2; two leaves of count 2; two groups of count 0;
and a chain for transitivity. -/
theorem test_witness_CanonicalOrderIsStrictTotal :
    (countedV4.cnt (.leaf 0x61)).toNat ≠ (countedV4.cnt (.leaf 0x72)).toNat ∧
    countedV4.cnt (.leaf 0x72) = countedV4.cnt (.group 0) ∧ countedV4.cnt (.leaf 0x72) = countedV4.cnt (.leaf 0x62) ∧
    countedV4.cnt (.group 2) = countedV4.cnt (.group 3) ∧
    countedV4.before (.leaf 0x61) (.leaf 0x72) = true ∧ countedV4.before (.leaf 0x72) (.group 0) = true := by
  decide +kernel

/-- The leaves of V1 in order: a 8 before b 1; and the reset state meets the invariant in phase FREQ. -/
theorem test_witness_InitialListIsTheSortedAlphabet :
    State.reset.Inv ∧ State.reset.phase = .freq ∧ [NRef.leaf 0x61, .leaf 0x62].Sublist countedV1.initialList :=
  ⟨inv_reset, rfl, by decide +kernel⟩

/-- V4 before its second merge, `PL = [a, r, b, G0]`. -/
theorem test_witness_MergeStepMergesTheLastTwo :
    ∃ s : State, s.pl = [.leaf 0x61, .leaf 0x72] ++ [.leaf 0x62, .group 0] ∧ s.ngroups.toNat < 255 ∧
      (s.cnt (.leaf 0x62)).toNat + (s.cnt (.group 0)).toNat < 2 ^ 40 ∧
      [NRef.leaf 0x61, .leaf 0x72].Pairwise (fun a b => s.before a b = true) ∧
      ∀ j, .group j ∈ [NRef.leaf 0x61, .leaf 0x72] → j.toNat < s.ngroups.toNat :=
  ⟨{ countedV4 with pl := [.leaf 0x61, .leaf 0x72, .leaf 0x62, .group 0], ngroups := 1 }, rfl, by decide, by decide +kernel,
    by decide +kernel, by simp⟩

/-- V4: the second group against a list that holds the first. -/
theorem test_witness_NewGroupStandsAfterItsEquals :
    [NRef.leaf 0x61, .leaf 0x72, .group 0].Pairwise (fun a b => countedV4.before a b = true) ∧
    ∀ j, .group j ∈ [NRef.leaf 0x61, .leaf 0x72, .group 0] → j.toNat < (1 : GroupNo).toNat :=
  ⟨by decide +kernel, by simp⟩

/-- The last group number there is. -/
theorem test_witness_FinalMergeMakesTheRoot : ∃ s : State, s.pl = [.leaf 0x61, .leaf 0x62] ∧ s.ngroups.toNat = 254 :=
  ⟨{ countedV1 with pl := [.leaf 0x61, .leaf 0x62], ngroups := 254 }, rfl, rfl⟩

theorem test_witness_TbBuildOnEmptyAlphabetFaults : State.reset.phase = .freq ∧ ∀ y, freqAt State.reset.ft y = 0 :=
  ⟨rfl, reset_freqAt⟩

theorem test_witness_TbBuildOnOneSymbol : countedV3.phase = .freq ∧ ∀ y, freqAt countedV3.ft y ≠ 0 ↔ y = 0x61 :=
  ⟨rfl, present_V3⟩

/-- The smallest alphabets, one symbol and two. -/
theorem test_witness_TbBuildCompletes :
    countedV1.phase = .freq ∧ (∃ y, freqAt countedV1.ft y ≠ 0) ∧ 2 ≤ alphabetSize countedV1.ft ∧
    countedV3.phase = .freq ∧ ∃ y, freqAt countedV3.ft y ≠ 0 :=
  ⟨rfl, ⟨0x61, (present_V1 _).mpr (.inl rfl)⟩, alphabet_V1.ge, rfl, ⟨0x61, (present_V3 _).mpr rfl⟩⟩

theorem test_witness_BuiltTreeHasTheTreeShape :
    countedV1.phase = .freq ∧ countedV1.gt = State.reset.gt ∧ ∃ y, freqAt countedV1.ft y ≠ 0 :=
  ⟨rfl, rfl, 0x61, (present_V1 _).mpr (.inl rfl)⟩

/-- V1 before TB_BUILD with an answer not yet taken. -/
def answeredV1 : State := { countedV1 with rsp := [1] }

/-- TB_BUILD answers a next state in phase FREQ, whatever else the state holds. -/
theorem tbBuild_answers {s : State} (h : s.phase = .freq) : ∃ t, exec .tbBuild s = .next t := by
  simp only [exec, execTbBuild, inPhase_here h (by decide)]
  split <;> exact ⟨_, rfl⟩

theorem test_witness_TreeIsAFunctionOfFrequencies : ∃ s s' t t' : State, s ≠ s' ∧ s.phase = .freq ∧ s'.phase = .freq ∧
    s.gt = State.reset.gt ∧ s'.gt = State.reset.gt ∧ s.ft = s'.ft ∧ (∃ y, freqAt s.ft y ≠ 0) ∧
    exec .tbBuild s = .next t ∧ exec .tbBuild s' = .next t' := by
  obtain ⟨t, ht⟩ := tbBuild_answers (s := countedV1) rfl
  obtain ⟨t', ht'⟩ := tbBuild_answers (s := answeredV1) rfl
  exact ⟨countedV1, answeredV1, t, t', fun h => List.cons_ne_nil _ _ (congrArg State.rsp h).symm,
    rfl, rfl, rfl, rfl, rfl, ⟨0x61, (present_V1 _).mpr (.inl rfl)⟩, ht, ht'⟩

/-- The last group in use and the first that is not. -/
theorem test_witness_RdGroupAnswersTheGroup :
    (0 : GroupNo).toNat < treeV1.ngroups.toNat ∧ treeV1.ngroups.toNat ≤ (1 : GroupNo).toNat := by decide

theorem test_witness_CtGenWritesThePaths :
    (treeV1.phase = .tree ∧ TreeShape treeV1 ∧ treeV1.root.ref = .group 0) ∧
    (treeV3.phase = .tree ∧ TreeShape treeV3 ∧ treeV3.root.ref = .leaf 0x61) :=
  ⟨⟨rfl, treeShape_V1, rfl⟩, rfl, treeShape_V3, rfl⟩

theorem test_witness_CodeTableIsACompletePrefixCode :
    (readyV1.Inv ∧ readyV1.ctValid = true ∧ 2 ≤ readyV1.alpha.toNat ∧ (codeAt readyV1.ct 0x61).valid = true) ∧
    (decV3.Inv ∧ decV3.ctValid = true ∧ decV3.alpha.toNat = 1) :=
  ⟨⟨inv_readyV1, rfl, by decide, by simp [codes_V1]⟩, inv_decV3, rfl, rfl⟩

/-- A code of the greatest length, and no code. -/
theorem test_witness_RdClenAnswersTheLength :
    (codeAt (setCode State.reset.ct 0x61 ⟨true, List.replicate 255 true⟩) 0x61).len = 255 ∧
    codeAt State.reset.ct 0x62 = ⟨false, []⟩ := by
  rw [codeAt_setCode_same]
  exact ⟨List.length_replicate, reset_codeAt _⟩

theorem test_witness_RdCodeAnswersTheChunk :
    codeAt State.reset.ct 0x62 = ⟨false, []⟩ ∧ (0x5400000000000004 : Word).extractLsb' 56 8 = 0x54 ∧
    (0x5400000000000004 : Word).extractLsb' 2 46 ≠ 0 := ⟨reset_codeAt _, by decide, by decide⟩

theorem test_witness_CodeRegisterChunks :
    (⟨true, List.replicate 255 true⟩ : CodeEntry).len ≤ 255 ∧
    codeAt (setCode State.reset.ct 0x61 ⟨true, List.replicate 255 true⟩) 0x61 = ⟨true, List.replicate 255 true⟩ :=
  ⟨List.length_replicate.le, codeAt_setCode_same _ _ _⟩

theorem test_witness_EncStartOpensASession :
    readyV1.phase = .ready ∧ faultT1.phase = .fault ∧ encV1.phase ≠ .fault ∧ encV1.phase ≠ .ready := by decide

/-- Seven bits pending and the count one below its maximum; no code; the count at its maximum. -/
theorem test_witness_EncSymAppendsTheCode : ∃ s u : State,
    (s.phase = .enc ∧ s.epend.length = 7 ∧ (codeAt s.ct 0x61).valid = true ∧ s.encSymcnt.toNat = 2 ^ 48 - 2 ∧
      s.encBitlen.toNat ≤ 255 * s.encSymcnt.toNat ∧ (codeAt s.ct 0x61).len ≤ 255) ∧
    (codeAt s.ct 0x7A).valid = false ∧
    (u.phase = .enc ∧ (codeAt u.ct 0x61).valid = true ∧ u.encSymcnt.toNat = 2 ^ 48 - 1) :=
  ⟨{ encV1 with epend := List.replicate 7 true, encSymcnt := 0xFFFFFFFFFFFE, encBitlen := 0xFFFFFFFFFFFF },
    { encV1 with encSymcnt := 0xFFFFFFFFFFFF },
    ⟨rfl, rfl, congrArg CodeEntry.valid (codes_V1 0x61), by decide, by decide,
      (congrArg CodeEntry.len (codes_V1 0x61)).trans_le (by decide)⟩,
    congrArg CodeEntry.valid (codes_V1 0x7A), rfl, congrArg CodeEntry.valid (codes_V1 0x61), by decide⟩

theorem test_witness_EncEndPadsTheLastByte : ∃ s u : State,
    (s.phase = .enc ∧ s.epend = []) ∧ (u.phase = .enc ∧ u.epend ≠ [] ∧ u.epend.length = 7) :=
  ⟨encV1, { encV1 with epend := List.replicate 7 true }, ⟨rfl, rfl⟩, rfl, by decide, rfl⟩

theorem test_witness_EncodeSessionEmitsThePackedText :
    readyV1.phase = .ready ∧ ([0x61, 0x62] : List Sym).length < 2 ^ 48 ∧
    ∀ y ∈ ([0x61, 0x62] : List Sym), (codeAt readyV1.ct y).valid = true ∧ (codeAt readyV1.ct y).len ≤ 255 := by
  refine ⟨rfl, by decide, ?_⟩
  simp [codes_V1, CodeEntry.len]

theorem test_witness_DecStartOpensASession :
    readyV1.phase = .ready ∧ faultT1.phase = .fault ∧ decV1.phase ≠ .fault ∧ decV1.phase ≠ .ready := by decide

/-- DV3: the last symbol due ends with bit 7 and the rest is ignored; and eight symbols of nine, with nothing left over. -/
theorem test_witness_DecByteEmitsTheMatchedSymbols : ∃ s u : State,
    (s.phase = .dec ∧ s.decRem ≠ 0 ∧ PrefixFree s.ct ∧ CodesNonempty s.ct ∧ PartialMatch s.ct s.dacc ∧
      (∀ y ∈ [(0x62 : Sym)], (codeAt s.ct y).valid = true) ∧
      s.dacc ++ bitsOfByte 0xFF = payload s.ct [0x62] ++ List.replicate 7 true ∧ [(0x62 : Sym)].length = s.decRem.toNat) ∧
    (u.phase = .dec ∧ u.decRem ≠ 0 ∧ PrefixFree u.ct ∧ CodesNonempty u.ct ∧ PartialMatch u.ct u.dacc ∧
      (∀ y ∈ List.replicate 8 (0x61 : Sym), (codeAt u.ct y).valid = true) ∧
      u.dacc ++ bitsOfByte 0x00 = payload u.ct (List.replicate 8 0x61) ++ [] ∧
      (List.replicate 8 (0x61 : Sym)).length < u.decRem.toNat ∧ PartialMatch u.ct []) := by
  have ha : codeAt decV1.ct 0x61 = ⟨true, [false]⟩ := codes_V1 0x61
  have hb : codeAt decV1.ct 0x62 = ⟨true, [true]⟩ := codes_V1 0x62
  refine ⟨{ decV1 with decRem := 1, decSymcnt := 8 }, decV1,
    ⟨rfl, by decide, prefixFree_V1, codesNonempty_V1, .inl rfl, ?_, ?_, rfl⟩,
    rfl, by decide, prefixFree_V1, codesNonempty_V1, .inl rfl, ?_, ?_, by decide, .inl rfl⟩
  · intro y hy; rw [List.mem_singleton.mp hy]; exact congrArg CodeEntry.valid hb
  · simp only [payload, List.flatMap_cons, List.flatMap_nil, hb]; decide
  · intro y hy; rw [List.eq_of_mem_replicate hy]; exact congrArg CodeEntry.valid ha
  · simp only [payload, List.replicate, List.flatMap_cons, List.flatMap_nil, ha]; decide

/-- DV10. -/
theorem test_witness_DecByteMissingCodeKeepsEarlierSymbols :
    decV3.phase = .dec ∧ [(0x61 : Sym), 0x61].length < decV3.decRem.toNat ∧ PrefixFree decV3.ct ∧ CodesNonempty decV3.ct ∧
    PartialMatch decV3.ct decV3.dacc ∧ (∀ y ∈ [(0x61 : Sym), 0x61], (codeAt decV3.ct y).valid = true) ∧
    decV3.dacc ++ bitsOfByte 0x20 = payload decV3.ct [0x61, 0x61] ++ [true] ++ List.replicate 5 false ∧
    PartialMatch decV3.ct [true].dropLast ∧ insideCode decV3.ct [true] = false ∧
    ∀ y, (codeAt decV3.ct y).valid = true → (codeAt decV3.ct y).bits ≠ [true] := by
  have hc (y : Sym) : codeAt decV3.ct y = if y = 0x61 then ⟨true, [false]⟩ else CodeEntry.zero := codes_V3 y
  have ha : codeAt decV3.ct 0x61 = ⟨true, [false]⟩ := codes_V3 0x61
  refine ⟨rfl, by decide, prefixFree_V3, codesNonempty_V3, .inl rfl,
    fun y hy => by rw [List.eq_of_mem_replicate (n := 2) hy]; exact congrArg CodeEntry.valid ha, ?_, .inl rfl, by decide +kernel, ?_⟩
  · simp only [payload, List.flatMap_cons, List.flatMap_nil, ha]; decide
  · intro y
    rw [hc]
    split <;> simp [CodeEntry.zero]

theorem test_witness_DecByteAfterTheEndFaults : ∃ s : State, s.phase = .dec ∧ s.decRem = 0 :=
  ⟨{ decV1 with decRem := 0 }, rfl, rfl⟩

theorem test_witness_DecEndChecksTheCount : ∃ s u : State,
    (s.phase = .dec ∧ s.decRem = 0) ∧ (u.phase = .dec ∧ u.decRem ≠ 0 ∧ u.dacc.length ≤ 255) :=
  ⟨{ decV1 with decRem := 0 }, { decV1 with dacc := List.replicate 255 true }, ⟨rfl, rfl⟩, rfl, by decide,
    List.length_replicate.le⟩

theorem test_witness_GreedyMatcherIsTheTreeWalk :
    readyV1.Inv ∧ readyV1.ctValid = true ∧ 2 ≤ readyV1.alpha.toNat ∧
    IsNode readyV1 (.group 0) ∧ IsNode readyV1 (.leaf 0x61) ∧
    follow readyV1.gt readyV1.root.ref [] = some (.group 0) :=
  ⟨inv_readyV1, rfl, by decide, Nat.one_pos, (present_V1 _).mpr (.inl rfl), rfl⟩

/-- Two symbols; and one symbol with the first 1 at bit 5 (DV10), at bit 7 and at bit 4, the last of four symbols due. -/
theorem test_witness_MissingCodeNeedsOneSymbol :
    (decV1.Inv ∧ decV1.phase = .dec ∧ 2 ≤ decV1.alpha.toNat ∧ ∃ t, exec (.decByte 0xFF) decV1 = .next t) ∧
    (decV3.Inv ∧ decV3.phase = .dec ∧ decV3.alpha.toNat = 1) ∧
    (∀ p ∈ [((0x20 : Byte), 5), (0x80, 7), (0x10, 4)], p.1.getLsbD p.2 = true ∧
      (∀ j ≤ 7, p.2 < j → p.1.getLsbD j = false) ∧ 7 - p.2 < decV3.decRem.toNat) :=
  ⟨⟨inv_decV1, rfl, by decide, _, rfl⟩, ⟨inv_decV3, rfl, rfl⟩, by decide⟩

theorem test_witness_WrongPhaseRaisesSequence :
    legalPhase .ctGen = some .tree ∧ faultT1.phase = .fault ∧ readyV1.phase ≠ .fault ∧ readyV1.phase ≠ .tree ∧
    legalPhase .nop = none ∧ exec .nop readyV1 = .next readyV1 ∧ readyV1.err.code ≠ .sequence :=
  ⟨rfl, rfl, by decide, by decide, rfl, rfl, by decide⟩

/-- A legal word, a word of a read, an illegal word. -/
theorem test_witness_FaultPhaseIgnoresWords :
    faultT1.phase = .fault ∧ (∀ i, decode 0x1061000000000000 = .ok i → legalPhase i ≠ none) ∧
    (∀ i, decode 0xFF00000000000000 = .ok i → legalPhase i ≠ none) ∧
    decode 0x5002000000000000 = .ok (.rdCsr 2) ∧ decode 0x5002000000000000 ≠ .ok .clear ∧
    ∃ t, step (faultT1.presentWord 0x5002000000000000) = .next t := by
  refine ⟨rfl, ?_, ?_, rfl, ?_, _, rfl⟩
  · intro i h
    rw [show decode 0x1061000000000000 = .ok (.freqSym 0x61) from rfl] at h
    cases h; simp [legalPhase]
  · intro i h
    rw [show decode 0xFF00000000000000 = .error (.reservedOpcode 0xFF) from rfl] at h
    cases h
  · rw [show decode 0x5002000000000000 = .ok (.rdCsr 2) from rfl]
    intro h; cases h

/-- X1; and a fault of DEC_BYTE (DV9). -/
theorem test_witness_FaultSequenceRecordsTheCommand :
    (∃ t, exec (.encSym 0x61) readyV1 = .next t ∧ readyV1.phase ≠ .fault ∧ t.phase = .fault) ∧
    ∃ s t : State, exec (.decByte 0) s = .next t ∧ s.phase ≠ .fault ∧ t.phase = .fault :=
  ⟨⟨_, rfl, by decide, rfl⟩, { decV1 with decRem := 0 }, _, rfl, by decide, rfl⟩

/-- A command legal in every phase; one in phase FAULT, in a wrong phase and in its own. -/
theorem test_witness_PhaseTransitions :
    (legalPhase .clear = none ∧ ∃ t, exec .clear encV1 = .next t) ∧
    legalPhase .encStart = some .ready ∧ (∃ t, exec .encStart faultT1 = .next t) ∧ (∃ t, exec .encStart encV1 = .next t) ∧
    (∃ t, exec .encStart readyV1 = .next t) ∧ ∀ i, decode 0xFF00000000000000 ≠ .ok i := by
  refine ⟨⟨rfl, _, rfl⟩, rfl, ⟨_, rfl⟩, ⟨_, rfl⟩, ⟨_, rfl⟩, fun i h => ?_⟩
  rw [show decode 0xFF00000000000000 = .error (.reservedOpcode 0xFF) from rfl] at h
  cases h

theorem test_witness_OnlyListedCommandsWriteEachStore :
    (∃ t, exec (.freqLoad 0x61 9) countedV1 = .next t) ∧ Instr.freqLoad 0x61 9 ≠ .clear := ⟨⟨_, rfl⟩, by decide⟩

theorem test_witness_CommandsAppendToOneChannel : ∃ s t : State, exec .encEnd s = .next t ∧ s.epend.length < 8 ∧
    (∀ y, (codeAt s.ct y).len ≤ 255) := by
  refine ⟨encV1, _, rfl, by decide, fun y => ?_⟩
  rw [show codeAt encV1.ct y = _ from codes_V1 y]
  split
  · decide
  · split <;> decide

theorem test_witness_OnlyClearOrResetLeavesFault : ∃ s t : State,
    s.phase = .fault ∧ step s = .next t ∧ t.phase ≠ .fault :=
  ⟨faultT1.presentWord 0x0100000000000000, _, rfl, rfl, by decide⟩

theorem test_witness_ErrIrqFollowsTheFaultRecord :
    decV1.Inv ∧ (∃ t, exec .clear faultT1 = .next t) ∧
    ∃ t, readyV1.phase ≠ .fault ∧ exec (.encSym 0x61) readyV1 = .next t ∧ t.phase = .fault :=
  ⟨inv_decV1, ⟨_, rfl⟩, _, by decide, rfl, rfl⟩

theorem test_witness_EveryStepKeepsTheInvariant :
    State.reset.Inv ∧ decV1.Inv ∧ decV3.Inv ∧ ∃ t, step State.reset = .next t :=
  ⟨inv_reset, inv_decV1, inv_decV3, _, rfl⟩

theorem test_witness_EveryStepCompletes : readyV1.Inv := inv_readyV1

theorem test_witness_DecodeSessionInvertsEncodeSession :
    readyV1.Inv ∧ readyV1.phase = .ready ∧ ([0x61, 0x62] : List Sym).length < 2 ^ 48 ∧
    ∀ y ∈ ([0x61, 0x62] : List Sym), freqAt readyV1.ft y ≠ 0 := by
  refine ⟨inv_readyV1, rfl, by decide, fun y hy => (present_V1 y).mpr ?_⟩
  simpa using hy

theorem test_witness_CompressThenDecompressRestoresTheText :
    ([0x61, 0x62] : List Sym) ≠ [] ∧ ([0x61, 0x62] : List Sym).length < 2 ^ 32 := by decide

end Sys2Proof.Tests
end

section
namespace Sys2Proof.Machine

/-! ## The forest TB_BUILD works on (41_tree_builder.md rules R113 to R122)

Between two merges the groups created so far and the priority list form a forest: the list holds its roots. A merge
makes the last two roots the children of one new root, and what holds of the last forest is the shape of the tree. -/

/-- What every merge keeps, whatever count it gives its group. -/
structure Forest (s : State) : Prop where
  /-- every group takes one entry off the list (R122) -/
  size : s.ngroups.toNat + s.pl.length = alphabetSize s.ft
  /-- no node is a child twice, and no root is a child -/
  one_place : (treeChildren s ++ s.pl).Nodup
  /-- the children and the roots are the nodes -/
  place_iff : ∀ n, n ∈ treeChildren s ++ s.pl ↔ IsNode s n
  child_lower : ∀ k j : GroupNo, k.toNat < s.ngroups.toNat →
    ((groupAt s.gt k).c0 = .group j ∨ (groupAt s.gt k).c1 = .group j) → j.toNat < k.toNat
  unused_zero : ∀ k : GroupNo, s.ngroups.toNat ≤ k.toNat → groupAt s.gt k = Group.zero

/-- The sum of the counts of the roots. -/
def State.rootTotal (s : State) : Nat := (s.pl.map fun n => (s.cnt n).toNat).sum

/-- A forest whose groups carry the exact sums of their children's counts, as before the final merge (R117, R121). -/
structure CountedForest (s : State) : Prop extends Forest s where
  counts : ∀ k : GroupNo, k.toNat < s.ngroups.toNat →
    (groupAt s.gt k).count.toNat = (s.cnt (groupAt s.gt k).c0).toNat + (s.cnt (groupAt s.gt k).c1).toNat
  /-- no sum of counts leaves the width of a group's count -/
  total_fits : s.rootTotal < 2 ^ 40

/-- `t` is `s` after a merge of the last two roots `x` and `y` into a group of count `c` (R117, R119). -/
structure Merged (s t : State) (l : List NRef) (c : GCount) (x y : NRef) : Prop where
  list_before : s.pl = l ++ [x, y]
  table : t.gt = s.gt.setIfInBounds s.ngroups.toNat ⟨c, x, y⟩
  number : t.ngroups = s.ngroups + 1
  list_after : t.pl.Perm (.group s.ngroups :: l)
  frequencies : t.ft = s.ft

theorem merged_mergeStep {s : State} {l : List NRef} {x y : NRef} (h : s.pl = l ++ [x, y]) :
    Merged s s.mergeStep l (s.cnt x + s.cnt y) x y := by
  rw [mergeStep_eq h]
  exact ⟨h, rfl, rfl, insertInOrder_perm _ _ _, rfl⟩

theorem merged_finalMerge {s : State} {x y : NRef} (h : s.pl = [x, y]) : Merged s s.finalMerge [] 0 x y := by
  rw [finalMerge_eq h]
  exact ⟨h, rfl, rfl, .refl _, rfl⟩

section Merge
variable {s t : State} {l : List NRef} {c : GCount} {x y : NRef}

theorem Merged.mem_roots (m : Merged s t l c x y) : x ∈ s.pl ∧ y ∈ s.pl := by simp [m.list_before]

/-- There is room for the new group in the table and in `NGROUPS`. -/
theorem Merged.number_lt (m : Merged s t l c x y) (f : Forest s) : s.ngroups.toNat < 255 := by
  have hlen : s.pl.length = l.length + 2 := by simp [m.list_before]
  have := f.size
  have := alphabetSize_le s.ft
  omega

theorem Merged.number_toNat (m : Merged s t l c x y) (f : Forest s) : t.ngroups.toNat = s.ngroups.toNat + 1 := by
  have := m.number_lt f
  rw [m.number, BitVec.toNat_add]
  simp
  omega

theorem Merged.groupAt_new (m : Merged s t l c x y) (f : Forest s) : groupAt t.gt s.ngroups = ⟨c, x, y⟩ := by
  rw [m.table]
  exact groupAt_set_same _ _ (m.number_lt f)

theorem Merged.groupAt_old (m : Merged s t l c x y) {k : GroupNo} (hk : k ≠ s.ngroups) :
    groupAt t.gt k = groupAt s.gt k := by
  rw [m.table]
  exact groupAt_set_other _ _ hk

/-- The groups in use after the merge: the new one and those before. -/
theorem Merged.number_cases (m : Merged s t l c x y) (f : Forest s) {k : GroupNo} (hk : k.toNat < t.ngroups.toNat) :
    k = s.ngroups ∨ (k.toNat < s.ngroups.toNat ∧ groupAt t.gt k = groupAt s.gt k) := by
  rw [m.number_toNat f] at hk
  by_cases e : k = s.ngroups
  · exact .inl e
  · have hne : k.toNat ≠ s.ngroups.toNat := fun h => e (BitVec.eq_of_toNat_eq h)
    exact .inr ⟨by omega, m.groupAt_old e⟩

/-- The merge changes the count of no node there was. -/
theorem Merged.cnt_old (m : Merged s t l c x y) {n : NRef} (hn : IsNode s n) : t.cnt n = s.cnt n := by
  cases n with
  | leaf y => simp [State.cnt, m.frequencies]
  | group k =>
    have hk : k ≠ s.ngroups := by rintro rfl; simp [IsNode] at hn
    simp [State.cnt, m.groupAt_old hk]

theorem Merged.cnt_new (m : Merged s t l c x y) (f : Forest s) : t.cnt (.group s.ngroups) = c := by
  simp [State.cnt, m.groupAt_new f]

theorem Merged.isNode_iff (m : Merged s t l c x y) (f : Forest s) (n : NRef) :
    IsNode t n ↔ IsNode s n ∨ n = .group s.ngroups := by
  cases n with
  | leaf y => simp [IsNode, m.frequencies]
  | group k =>
    simp only [IsNode, m.number_toNat f, NRef.group.injEq, BitVec.toNat_eq]
    omega

/-- The merge adds its two entries to the children. -/
theorem Merged.treeChildren_eq (m : Merged s t l c x y) (f : Forest s) :
    treeChildren t = treeChildren s ++ [x, y] := by
  have hlt := m.number_lt f
  have hold : ∀ k ∈ List.range s.ngroups.toNat,
      groupAt t.gt (BitVec.ofNat 8 k) = groupAt s.gt (BitVec.ofNat 8 k) := by
    intro k hk
    rw [List.mem_range] at hk
    refine m.groupAt_old fun e => ?_
    have := congrArg BitVec.toNat e
    rw [BitVec.toNat_ofNat] at this
    omega
  have hnew : groupAt t.gt (BitVec.ofNat 8 s.ngroups.toNat) = ⟨c, x, y⟩ := by
    rw [BitVec.ofNat_toNat, BitVec.setWidth_eq]
    exact m.groupAt_new f
  rw [treeChildren, m.number_toNat f, List.range_succ, List.flatMap_append, List.flatMap_singleton, hnew, treeChildren]
  congr 1
  exact List.flatMap_congr fun k hk => by rw [hold k hk]

/-- The merge puts one node on top and moves the others. -/
theorem Merged.places_perm (m : Merged s t l c x y) (f : Forest s) :
    (treeChildren t ++ t.pl).Perm (.group s.ngroups :: (treeChildren s ++ s.pl)) := by
  rw [m.treeChildren_eq f, m.list_before]
  calc (treeChildren s ++ [x, y] ++ t.pl).Perm (treeChildren s ++ [x, y] ++ .group s.ngroups :: l) :=
        m.list_after.append_left _
    _ |>.Perm (.group s.ngroups :: (treeChildren s ++ [x, y] ++ l)) := List.perm_middle
    _ |>.Perm (.group s.ngroups :: (treeChildren s ++ (l ++ [x, y]))) := by
        rw [List.append_assoc]
        exact (List.perm_append_comm.append_left _).cons _

/-- A merge keeps the forest. -/
theorem Forest.merge (f : Forest s) (m : Merged s t l c x y) : Forest t where
  size := by
    have hafter := m.list_after.length_eq
    have hbefore := congrArg List.length m.list_before
    have := f.size
    simp only [List.length_cons, List.length_append, List.length_nil] at hafter hbefore
    rw [m.number_toNat f, m.frequencies]
    omega
  one_place := by
    rw [(m.places_perm f).nodup_iff, List.nodup_cons, f.place_iff]
    exact ⟨by simp [IsNode], f.one_place⟩
  place_iff n := by
    rw [(m.places_perm f).mem_iff, List.mem_cons, f.place_iff, m.isNode_iff f, or_comm]
  child_lower k j hk hj := by
    rcases m.number_cases f hk with rfl | ⟨hk', hg⟩
    · rw [m.groupAt_new f] at hj
      have hroot : NRef.group j ∈ s.pl := by
        rcases hj with hj | hj
        · exact hj ▸ m.mem_roots.1
        · exact hj ▸ m.mem_roots.2
      exact (f.place_iff (.group j)).mp (List.mem_append_right _ hroot)
    · rw [hg] at hj
      exact f.child_lower k j hk' hj
  unused_zero k hk := by
    rw [m.number_toNat f] at hk
    rw [m.groupAt_old (by rintro rfl; omega)]
    exact f.unused_zero k (by omega)

theorem Forest.isNode_root (f : Forest s) {n : NRef} (hn : n ∈ s.pl) : IsNode s n :=
  (f.place_iff n).mp (List.mem_append_right _ hn)

theorem Forest.isNode_child (f : Forest s) {k : GroupNo} (hk : k.toNat < s.ngroups.toNat) :
    IsNode s (groupAt s.gt k).c0 ∧ IsNode s (groupAt s.gt k).c1 := by
  have hmem : ∀ n ∈ [(groupAt s.gt k).c0, (groupAt s.gt k).c1], n ∈ treeChildren s := fun n hn =>
    List.mem_flatMap.mpr ⟨k.toNat, List.mem_range.mpr hk, by simpa using hn⟩
  exact ⟨(f.place_iff _).mp (List.mem_append_left _ (hmem _ (by simp))),
    (f.place_iff _).mp (List.mem_append_left _ (hmem _ (by simp)))⟩

/-- The counts of the groups there were are still the sums of their children's. -/
theorem CountedForest.counts_old (f : CountedForest s) (m : Merged s t l c x y) {k : GroupNo}
    (hk : k.toNat < s.ngroups.toNat) : (groupAt t.gt k).count.toNat =
      (t.cnt (groupAt t.gt k).c0).toNat + (t.cnt (groupAt t.gt k).c1).toNat := by
  obtain ⟨h0, h1⟩ := f.toForest.isNode_child hk
  rw [m.groupAt_old (by rintro rfl; omega), m.cnt_old h0, m.cnt_old h1]
  exact f.counts k hk

theorem Merged.rootTotal_before (m : Merged s t l c x y) :
    s.rootTotal = (l.map fun n => (s.cnt n).toNat).sum + ((s.cnt x).toNat + (s.cnt y).toNat) := by
  simp [State.rootTotal, m.list_before]

/-- A merge that gives its group the sum keeps the sum over the roots. -/
theorem CountedForest.sum_toNat (f : CountedForest s) (m : Merged s t l c x y) :
    (s.cnt x + s.cnt y).toNat = (s.cnt x).toNat + (s.cnt y).toNat := by
  have := f.total_fits
  rw [m.rootTotal_before] at this
  rw [BitVec.toNat_add, Nat.mod_eq_of_lt (by omega)]

/-- A merge step keeps the counted forest (R117). -/
theorem CountedForest.merge (f : CountedForest s) (m : Merged s t l (s.cnt x + s.cnt y) x y) : CountedForest t where
  toForest := f.toForest.merge m
  counts k hk := by
    rcases m.number_cases f.toForest hk with rfl | ⟨hk', -⟩
    · rw [m.groupAt_new f.toForest, m.cnt_old (f.isNode_root m.mem_roots.1), m.cnt_old (f.isNode_root m.mem_roots.2)]
      exact f.sum_toNat m
    · exact f.counts_old m hk'
  total_fits := by
    have hl : (l.map fun n => (t.cnt n).toNat) = l.map fun n => (s.cnt n).toNat :=
      List.map_congr_left fun n hn => by rw [m.cnt_old (f.isNode_root (by simp [m.list_before, hn]))]
    have ht : t.rootTotal = s.rootTotal := by
      rw [m.rootTotal_before, State.rootTotal, (m.list_after.map _).sum_eq, List.map_cons, List.sum_cons, hl,
        m.cnt_new f.toForest, f.sum_toNat m, Nat.add_comm]
    exact ht ▸ f.total_fits

end Merge

theorem countedForest_mergeStep (s : State) (f : CountedForest s) (h : 2 < s.pl.length) : CountedForest s.mergeStep := by
  obtain ⟨l, x, y, -, hl⟩ := exists_last_two h
  exact f.merge (merged_mergeStep hl)

/-! ### The forest at the start -/

@[simp] theorem startTree_pl (s : State) : s.startTree.pl = s.initialList := rfl
@[simp] theorem startTree_gt (s : State) : s.startTree.gt = s.gt := rfl
@[simp] theorem startTree_ft (s : State) : s.startTree.ft = s.ft := rfl
@[simp] theorem startTree_ngroups (s : State) : s.startTree.ngroups = 0 := rfl
@[simp] theorem startTree_children (s : State) : treeChildren s.startTree = [] := rfl

theorem mem_initialList {s : State} {n : NRef} : n ∈ s.initialList ↔ ∃ y, freqAt s.ft y ≠ 0 ∧ n = .leaf y := by
  rw [(initialList_perm s).mem_iff, List.mem_map]
  simp [mem_present, eq_comm]

theorem initialList_nodup (s : State) : s.initialList.Nodup := by
  rw [(initialList_perm s).nodup_iff]
  exact (present_nodup s.ft).map fun a b h => NRef.leaf.inj h

/-- 256 counts of 32 bits fit 40 bits. -/
theorem rootTotal_startTree_lt (s : State) : s.startTree.rootTotal < 2 ^ 40 := by
  have hle : s.startTree.rootTotal ≤ s.initialList.length * (2 ^ 32 - 1) := by
    rw [State.rootTotal, ← smul_eq_mul, ← List.length_map (f := fun n => (s.startTree.cnt n).toNat)]
    refine List.sum_le_card_nsmul _ _ fun v hv => ?_
    obtain ⟨n, hn, rfl⟩ := List.mem_map.mp hv
    obtain ⟨y, -, rfl⟩ := mem_initialList.mp hn
    have := (freqAt s.ft y).isLt
    simp [State.cnt]
    omega
  have := initialList_length s
  have := alphabetSize_le s.ft
  omega

theorem countedForest_startTree {s : State} (hgt : s.gt = State.reset.gt) : CountedForest s.startTree where
  size := by simp [initialList_length]
  one_place := by simpa using initialList_nodup s
  place_iff n := by
    rw [startTree_children, List.nil_append, startTree_pl, mem_initialList]
    cases n <;> simp [IsNode]
  child_lower k j hk := by simp at hk
  unused_zero k _ := by simp [hgt]
  counts k hk := by simp at hk
  total_fits := rootTotal_startTree_lt s

/-! ### The tree at the end -/

/-- In a forest of one root the children are the other nodes. -/
theorem Forest.child_iff_of_root {s : State} (f : Forest s) {r : NRef} (h : s.pl = [r]) (n : NRef) :
    n ∈ treeChildren s ↔ IsNode s n ∧ n ≠ r := by
  have hr : r ∉ treeChildren s := by
    have := f.one_place
    rw [h, List.nodup_append_comm] at this
    exact (List.nodup_cons.mp this).1
  rw [← f.place_iff, h, List.mem_append, List.mem_singleton]
  constructor
  · exact fun hn => ⟨.inl hn, fun e => hr (e ▸ hn)⟩
  · exact fun ⟨hn, hne⟩ => hn.resolve_right hne

/-- The final merge of a counted forest of two roots leaves a tree (R119 to R122). -/
theorem treeShape_of_finalMerge {m : State} {x y : NRef} (f : CountedForest m) (h : m.pl = [x, y]) :
    TreeShape { m.finalMerge with
      alpha := BitVec.ofNat 9 (alphabetSize m.ft), treeValid := true, phase := .tree } := by
  have mg := merged_finalMerge h
  have g : Forest m.finalMerge := f.toForest.merge mg
  have hpl : m.finalMerge.pl = [.group m.ngroups] := by rw [finalMerge_eq h]
  have hroot : m.finalMerge.root = ⟨true, .group m.ngroups⟩ := by rw [finalMerge_eq h]
  have hn := mg.number_toNat f.toForest
  have hlast : m.finalMerge.ngroups - 1 = m.ngroups := by rw [mg.number]; simp
  have hsize : m.ngroups.toNat + 2 = alphabetSize m.ft := by simpa [h] using f.size
  exact {
    alpha_eq := by
      have := alphabetSize_le m.ft
      rw [mg.frequencies, BitVec.toNat_ofNat, Nat.mod_eq_of_lt (by omega)]
    groups_eq := by rw [mg.frequencies, hn, ← hsize]
    root_valid := by rw [hroot]
    root_single := fun h1 => by
      rw [mg.frequencies] at h1
      omega
    root_group := fun _ => by rw [hroot, hlast]
    list_root := by rw [hpl, hroot]
    child_lower := g.child_lower
    one_parent := (List.nodup_append.mp g.one_place).1
    child_iff := by
      rw [hroot]
      exact g.child_iff_of_root hpl
    counts := fun k hk => f.counts_old mg (by simp only [hn] at hk; omega)
    root_count := fun _ => by rw [hlast, mg.groupAt_new f.toForest]
    unused_zero := g.unused_zero }

/-- The tree of an alphabet of one symbol is its leaf, with no group (R116). -/
theorem treeShape_of_one {s : State} {x : NRef} (hgt : s.gt = State.reset.gt) (h1 : alphabetSize s.ft = 1)
    (hx : s.initialList = [x]) : TreeShape (s.buildTree 1) := by
  have f := countedForest_startTree hgt
  obtain ⟨y, hy, rfl⟩ := mem_initialList.mp (hx ▸ List.mem_singleton.mpr rfl : x ∈ s.initialList)
  rw [buildTree_one hx]
  exact {
    alpha_eq := h1.symm
    groups_eq := h1.symm
    root_valid := rfl
    root_single := fun _ => ⟨y, hy, rfl⟩
    root_group := fun h2 => by
      rw [h1] at h2
      omega
    list_root := rfl
    child_lower := f.child_lower
    one_parent := List.nodup_nil
    child_iff := f.child_iff_of_root hx
    counts := fun k hk => absurd hk (Nat.not_lt_zero _)
    root_count := fun h0 => absurd h0 (Nat.lt_irrefl 0)
    unused_zero := f.unused_zero }

/-- TB_BUILD on a zero group table leaves a tree over the alphabet. -/
theorem treeShape_buildTree {s : State} (hgt : s.gt = State.reset.gt) (hl : alphabetSize s.ft ≠ 0) :
    TreeShape (s.buildTree (alphabetSize s.ft)) := by
  by_cases h1 : alphabetSize s.ft = 1
  · obtain ⟨x, hx⟩ := List.length_eq_one_iff.mp ((initialList_length s).trans h1)
    rw [h1]
    exact treeShape_of_one hgt h1 hx
  · obtain ⟨m, x, y, ⟨f, hft⟩, hxy, hb⟩ := buildTree_many (P := fun m => CountedForest m ∧ m.ft = s.ft)
      (by omega) ⟨countedForest_startTree hgt, rfl⟩ fun m ⟨f, hft⟩ h => by
        obtain ⟨gt, n, pl, hm⟩ := mergeStep_frame m
        exact ⟨countedForest_mergeStep m f h, by rw [hm]; exact hft⟩
    rw [hb, ← hft]
    exact treeShape_of_finalMerge f hxy

theorem exec_tbBuild {s : State} (hp : s.phase = .freq) (hl : alphabetSize s.ft ≠ 0) :
    exec .tbBuild s = .next (s.buildTree (alphabetSize s.ft)) := by
  simp [exec, execTbBuild, inPhase_here hp, hl]

/-- Settles O28: the merge loop keeps a counted forest, and the final merge makes it a tree. -/
theorem builtTreeHasTheTreeShape : Obligations.BuiltTreeHasTheTreeShape := by
  unfold Obligations.BuiltTreeHasTheTreeShape
  rintro s hp hgt ⟨y, hy⟩
  have hl : alphabetSize s.ft ≠ 0 := fun h => hy (alphabetSize_eq_zero.mp h y)
  exact ⟨_, exec_tbBuild hp hl, treeShape_buildTree hgt hl⟩

end Sys2Proof.Machine
end

section
namespace Sys2Proof.Machine

/-! ## The invariant (10_state.md rules R29 to R31, R35, R53, R74; 43_encoder.md rule R143; 44_decoder.md rule R152)

One lemma per way a command can move the state: what it must bring for the invariant to hold after it. -/

/-! ### Reset -/

theorem reset_inv : State.reset.Inv where
  flags := ⟨by decide, by decide, by decide, by decide⟩
  faultRecord := ⟨by decide, fun _ => rfl, by decide, by decide⟩
  tables := ⟨nofun, fun _ => ⟨rfl, rfl, rfl, rfl, rfl⟩, nofun, fun _ => rfl⟩
  encoder := ⟨by decide, by decide, fun _ _ => rfl, by decide⟩
  decoder := ⟨by decide, fun _ => .inl rfl, by decide, fun _ _ => rfl, by decide⟩

/-- Settles O56: every clause is a value of the reset state. -/
theorem resetMeetsTheInvariant : Obligations.ResetMeetsTheInvariant := reset_inv

/-! ### The length of a code -/

/-- A walk of depth `d` gives codes of fewer than `d` bits more. -/
theorem visit_bits_le {gt : Vector Group 255} {d b : Nat} {n : NRef} {acc : BitString} {ct ct' : Vector CodeEntry 256}
    (h : visit gt d n acc ct = some ct') (hacc : acc.length + d ≤ b + 1) (hct : ∀ y, (codeAt ct y).len ≤ b) (y : Sym) :
    (codeAt ct' y).len ≤ b := by
  induction d generalizing n acc ct ct' y with
  | zero => simp [visit] at h
  | succ d ih =>
    cases n with
    | leaf z =>
      simp only [visit, Option.some.injEq] at h
      subst h
      rw [codeAt_setCode]
      split
      · simp only [CodeEntry.len]; omega
      · exact hct y
    | group k =>
      simp only [visit] at h
      split at h
      · cases h
      · split at h
        · cases h
        · rename_i ct1 h1
          have hlen (b' : Bool) : (acc ++ [b']).length + d ≤ b + 1 := by simp; omega
          exact ih h (hlen true) (fun z => ih h1 (hlen false) hct z) y

/-- Every code of a tree has at most 255 bits (R133). -/
theorem codeTableOf_len_le {gt : Vector Group 255} {root : NRef} {ct : Vector CodeEntry 256}
    (h : codeTableOf gt root = some ct) (y : Sym) : (codeAt ct y).len ≤ 255 := by
  have hempty : ∀ y, (codeAt (Vector.replicate 256 CodeEntry.zero) y).len ≤ 255 := fun y => by
    rw [show codeAt (Vector.replicate 256 CodeEntry.zero) y = CodeEntry.zero from reset_codeAt y]
    decide
  cases root with
  | leaf z =>
    simp only [codeTableOf, Option.some.injEq] at h
    subst h
    rw [codeAt_setCode]
    split
    · decide
    · exact hempty y
  | group k => exact visit_bits_le h (by simp) hempty y

/-! ### What the invariant gives in a phase -/

section Uses
variable {s : State}

/-- Outside phase FAULT the record is empty (R31, R178). -/
theorem FaultRecordOk.code_eq_none (r : FaultRecordOk s) (h : s.phase ≠ .fault) : s.err.code = .none := by
  by_contra hc
  exact h (r.fault_iff.mpr hc)

/-- Leaving one phase for another, neither of them FAULT, keeps the empty record. -/
theorem FaultRecordOk.of_phase {t : State} (r : FaultRecordOk s) (hs : s.phase ≠ .fault) (ht : t.phase ≠ .fault)
    (he : t.err = s.err) : FaultRecordOk t where
  fault_iff := by simp [ht, he, r.code_eq_none hs]
  clean := by rw [he]; exact r.clean
  never_io := by rw [he]; exact r.never_io
  not_in_fault := by rw [he]; exact r.not_in_fault

theorem State.Inv.code_len_le (h : s.Inv) (y : Sym) : (codeAt s.ct y).len ≤ 255 := by
  cases hv : s.ctValid with
  | true => exact codeTableOf_len_le (h.tables.codes hv) y
  | false =>
    rw [h.tables.no_codes hv, reset_codeAt]
    decide

/-- In phase FREQ there are no codes. -/
theorem State.Inv.no_codes_in_freq (h : s.Inv) (hp : s.phase = .freq) : s.ctValid = false := by
  cases hv : s.ctValid with
  | false => rfl
  | true => simpa [h.flags.in_freq hp] using h.flags.codes_need_tree hv

/-- What can stand in `DACC` has at most 254 bits (R30). -/
theorem State.Inv.length_lt_of_partialMatch (h : s.Inv) {x : BitString} (hx : PartialMatch s.ct x) : x.length < 255 := by
  rcases hx with rfl | hx
  · decide
  · obtain ⟨y, -, -, hlt⟩ := insideCode_iff.mp hx
    have := h.code_len_le y
    rw [CodeEntry.len] at this
    omega

end Uses

/-! ### What keeps it -/

section Keeps
variable {s : State}

/-- The invariant does not speak of the channels and the host's queue. -/
theorem State.Inv.channels (h : s.Inv) (outb : List Byte) (outs : List Sym) (rsp : List Word) (host : List HostEvent) :
    State.Inv { s with outb := outb, outs := outs, rsp := rsp, host := host } where
  flags := { h.flags with }
  faultRecord := { h.faultRecord with }
  tables := { h.tables with tree := fun hv => { h.tables.tree hv with } }
  encoder := { h.encoder with }
  decoder := { h.decoder with }

theorem cleared_inv (s : State) : s.cleared.Inv := reset_inv.channels s.outb s.outs s.rsp s.host

theorem wasReset_inv (s : State) : s.wasReset.Inv := reset_inv.channels [] [] [] s.host

theorem State.Inv.emitRsp (h : s.Inv) (w : Word) : (s.emitRsp w).Inv :=
  h.channels s.outb s.outs (s.rsp ++ [w]) s.host

/-- The fault sequence with a cause the core raises (R178), after a bit that may have gone into `DACC` (R184). -/
theorem State.Inv.raise_dacc (h : s.Inv) (hp : s.phase ≠ .fault) {x : BitString} (hx : x.length ≤ 255) (op a : Byte)
    {c : FaultCode} (hc : c ≠ .none) (hio : c ≠ .ioError) (aux : Byte) (bp : BitVec 3) :
    (State.raise { s with dacc := x } op a c aux bp).Inv where
  flags := ⟨h.flags.codes_need_tree, by simp, by simp, by simp⟩
  faultRecord := ⟨by simp [hc], by simp [hc], by simpa using hio, hp⟩
  tables := { h.tables with tree := fun hv => { h.tables.tree hv with } }
  encoder := ⟨h.encoder.pending_short, by simp, by simp, h.encoder.bitlen_bound⟩
  decoder := ⟨h.decoder.total_fits, by simp, by simp, by simp, hx⟩

theorem State.Inv.raise (h : s.Inv) (hp : s.phase ≠ .fault) (op a : Byte) {c : FaultCode} (hc : c ≠ .none)
    (hio : c ≠ .ioError) (aux : Byte) (bp : BitVec 3) : (s.raise op a c aux bp).Inv :=
  h.raise_dacc hp h.decoder.match_short op a hc hio aux bp

/-- Counting touches no table that a flag stands for: in phase FREQ there is no tree (R74). -/
theorem State.Inv.setFreq (h : s.Inv) (hp : s.phase = .freq) (y : Sym) (v : Count) : (s.setFreq y v).Inv where
  flags := { h.flags with }
  faultRecord := { h.faultRecord with }
  tables := { h.tables with tree := fun hv => by simp [h.flags.in_freq hp] at hv }
  encoder := { h.encoder with }
  decoder := { h.decoder with }

/-- TB_BUILD: the group table is zero before, so the tree has its shape. -/
theorem State.Inv.buildTree (h : s.Inv) (hp : s.phase = .freq) (hl : alphabetSize s.ft ≠ 0) :
    (s.buildTree (alphabetSize s.ft)).Inv := by
  obtain ⟨hgt, -⟩ := h.tables.no_tree (h.flags.in_freq hp)
  have hno := h.no_codes_in_freq hp
  have shape := treeShape_buildTree hgt hl
  obtain ⟨gt, n, pl, root, hb⟩ := buildTree_frame s (alphabetSize s.ft)
  rw [hb] at shape ⊢
  exact {
    flags := ⟨fun _ => rfl, by simp, fun _ => ⟨rfl, hno⟩, by simp⟩
    faultRecord := h.faultRecord.of_phase (by simp [hp]) (by simp) rfl
    tables := ⟨fun _ => shape, by simp, by simp [hno], h.tables.no_codes⟩
    encoder := ⟨h.encoder.pending_short, by simp, fun _ _ => h.encoder.pending_closed (by simp [hp]) (by simp [hp]),
      h.encoder.bitlen_bound⟩
    decoder := ⟨h.decoder.total_fits, by simp, by simp,
      fun _ _ => h.decoder.match_closed (by simp [hp]) (by simp [hp]), h.decoder.match_short⟩ }

/-- CT_GEN: the table is that of the tree. -/
theorem State.Inv.ctGen (h : s.Inv) (hp : s.phase = .tree) {ct : Vector CodeEntry 256}
    (hct : codeTableOf s.gt s.root.ref = some ct) :
    State.Inv { s with ct := ct, ctValid := true, phase := .ready } := by
  obtain ⟨htree, -⟩ := h.flags.in_tree hp
  exact {
    flags := ⟨fun _ => htree, by simp, by simp, by simp⟩
    faultRecord := h.faultRecord.of_phase (by simp [hp]) (by simp) rfl
    tables := ⟨fun hv => { h.tables.tree hv with }, h.tables.no_tree, fun _ => hct, by simp⟩
    encoder := ⟨h.encoder.pending_short, by simp, fun _ _ => h.encoder.pending_closed (by simp [hp]) (by simp [hp]),
      h.encoder.bitlen_bound⟩
    decoder := ⟨h.decoder.total_fits, by simp, by simp,
      fun _ _ => h.decoder.match_closed (by simp [hp]) (by simp [hp]), h.decoder.match_short⟩ }

/-- A state of an encode session, opened in phase READY or going on (R140, R141). -/
theorem State.Inv.encoding (h : s.Inv) (hs : s.phase = .ready ∨ s.phase = .enc) {p : Phase} (hp : p = .enc)
    (outb : List Byte) {x : BitString} {n : SCount} {b : BitLen} (hx : x.length = b.toNat % 8)
    (hb : b.toNat ≤ 255 * n.toNat) :
    State.Inv { s with outb := outb, epend := x, encSymcnt := n, encBitlen := b, phase := p } := by
  subst hp
  have hcodes : s.ctValid = true := h.flags.in_session (by tauto)
  have hdacc : s.dacc = [] := by
    rcases hs with hs | hs <;> exact h.decoder.match_closed (by simp [hs]) (by simp [hs])
  exact {
    flags := ⟨h.flags.codes_need_tree, by simp, by simp, fun _ => hcodes⟩
    faultRecord := h.faultRecord.of_phase (by rcases hs with hs | hs <;> simp [hs]) (by simp) rfl
    tables := { h.tables with tree := fun hv => { h.tables.tree hv with } }
    encoder := ⟨by simp only [hx]; omega, fun _ => hx, by simp, hb⟩
    decoder := ⟨h.decoder.total_fits, by simp, by simp, fun _ _ => hdacc, h.decoder.match_short⟩ }

/-- A state of a decode session, opened in phase READY or going on (R150, R152). -/
theorem State.Inv.decoding (h : s.Inv) (hs : s.phase = .ready ∨ s.phase = .dec) {p : Phase} (hp : p = .dec)
    (outs : List Sym) {x : BitString} {r n : SCount} (hx : PartialMatch s.ct x) (hr : r = 0 → x = [])
    (hrn : r.toNat + n.toNat < 2 ^ 48) :
    State.Inv { s with outs := outs, dacc := x, decRem := r, decSymcnt := n, phase := p } := by
  subst hp
  have hcodes : s.ctValid = true := h.flags.in_session (by tauto)
  have hepend : s.epend = [] := by
    rcases hs with hs | hs <;> exact h.encoder.pending_closed (by simp [hs]) (by simp [hs])
  exact {
    flags := ⟨h.flags.codes_need_tree, by simp, by simp, fun _ => hcodes⟩
    faultRecord := h.faultRecord.of_phase (by rcases hs with hs | hs <;> simp [hs]) (by simp) rfl
    tables := { h.tables with tree := fun hv => { h.tables.tree hv with } }
    encoder := ⟨h.encoder.pending_short, by simp, fun _ _ => hepend, h.encoder.bitlen_bound⟩
    decoder := ⟨hrn, fun _ => hx, fun _ => hr, by simp, (h.length_lt_of_partialMatch hx).le⟩ }

/-- A session ends in phase READY with nothing pending (R142, R153). -/
theorem State.Inv.endSession (h : s.Inv) (hs : s.phase = .enc ∨ s.phase = .dec) (hd : s.dacc = []) (outb : List Byte)
    {x : BitString} (hx : x = []) : State.Inv { s with outb := outb, epend := x, phase := .ready } := by
  subst hx
  have hcodes : s.ctValid = true := h.flags.in_session (by tauto)
  exact {
    flags := ⟨h.flags.codes_need_tree, by simp, by simp, fun _ => hcodes⟩
    faultRecord := h.faultRecord.of_phase (by rcases hs with hs | hs <;> simp [hs]) (by simp) rfl
    tables := { h.tables with tree := fun hv => { h.tables.tree hv with } }
    encoder := ⟨by simp, by simp, fun _ _ => rfl, h.encoder.bitlen_bound⟩
    decoder := ⟨h.decoder.total_fits, by simp, by simp, fun _ _ => hd, h.decoder.match_short⟩ }

/-- ENC_SYM: the pending bits follow the payload's length, and neither counter wraps (R141, R143). -/
theorem State.Inv.packSymbol (h : s.Inv) (hp : s.phase = .enc) (y : Sym) (hm : s.encSymcnt ≠ BitVec.allOnes 48) :
    (s.packSymbol (codeAt s.ct y)).Inv := by
  have hlen := h.code_len_le y
  have hbits : (codeAt s.ct y).len = (codeAt s.ct y).bits.length := rfl
  have hbound := h.encoder.bitlen_bound
  have hcnt : s.encSymcnt.toNat < 2 ^ 48 - 1 := by
    have := s.encSymcnt.isLt
    have hne : s.encSymcnt.toNat ≠ 2 ^ 48 - 1 := fun e => hm (BitVec.eq_of_toNat_eq (by simpa using e))
    omega
  have hn : (s.encSymcnt + 1).toNat = s.encSymcnt.toNat + 1 := by
    rw [BitVec.toNat_add]; simp; omega
  have hb : (s.encBitlen + BitVec.ofNat 56 (codeAt s.ct y).len).toNat = s.encBitlen.toNat + (codeAt s.ct y).len := by
    rw [BitVec.toNat_add]; simp; omega
  refine h.encoding (.inr hp) hp _ ?_ ?_
  · rw [(packBits_lengths _ _ h.encoder.pending_short).2, h.encoder.pending_enc hp, hb, hbits]
    omega
  · rw [hn, hb]
    omega

/-- A decoded symbol moves one from `DEC_REM` to `DEC_SYMCNT` (R152). -/
theorem State.Inv.emitDecoded (h : s.Inv) (hp : s.phase = .dec) (hr : s.decRem ≠ 0) (x : BitString) (y : Sym) :
    (State.emitDecoded { s with dacc := x } y).Inv := by
  have hfit := h.decoder.total_fits
  have hpos : s.decRem.toNat ≠ 0 := fun e => hr (BitVec.eq_of_toNat_eq (by simpa using e))
  have hrem : (s.decRem - 1).toNat = s.decRem.toNat - 1 := by
    rw [BitVec.toNat_sub_of_le (by simp [BitVec.le_def]; omega)]; simp
  have hcnt : (s.decSymcnt + 1).toNat = s.decSymcnt.toNat + 1 := by
    rw [BitVec.toNat_add]; simp; omega
  exact h.decoding (.inr hp) hp _ (r := s.decRem - 1) (n := s.decSymcnt + 1) (.inl rfl) (fun _ => rfl) (by omega)

/-- The loop of DEC_BYTE keeps the invariant, whichever way it leaves (R151, R184). -/
theorem State.Inv.decodeBits (h : s.Inv) (hp : s.phase = .dec) (byte : Byte) (is : List Nat) :
    (decodeBits byte is s).Inv := by
  induction is generalizing s with
  | nil => exact h
  | cons i is ih =>
    rw [Machine.decodeBits]
    split
    · exact h
    · rename_i hr
      simp only
      split
      · exact ih (h.emitDecoded hp hr _ _) hp
      · split
        · rename_i hin
          exact ih (h.decoding (.inr hp) hp s.outs (.inr hin) (fun e => absurd e hr) h.decoder.total_fits) hp
        · have := h.length_lt_of_partialMatch (h.decoder.match_dec hp)
          exact h.raise_dacc (by simp [hp]) (by simp; omega) _ _ (by decide) (by decide) _ _

end Keeps

/-! ### Every step -/

theorem legalPhase_ne_fault (i : Instr) : legalPhase i ≠ some .fault := by cases i <;> simp [legalPhase]

theorem none_notMem_ownFaults (i : Instr) : FaultCode.none ∉ ownFaults i := by cases i <;> simp [ownFaults]

theorem ioError_notMem_ownFaults (i : Instr) : FaultCode.ioError ∉ ownFaults i := by cases i <;> simp [ownFaults]

/-- Every command keeps the invariant. -/
theorem exec_inv {i : Instr} {s t : State} (h : s.Inv) (ht : exec i s = .next t) : t.Inv := by
  cases exec_effect ht with
  | nop | ignored => exact h
  | clear => exact cleared_inv s
  | rdCsr | rdFreq | rdGroup | rdClen | rdCode => exact h.emitRsp _
  | sequence _ _ _ _ hf => exact h.raise hf _ _ (by decide) (by decide) _ _
  | faulted _ _ p hi hp c aux hc =>
    have hf : s.phase ≠ .fault := fun e => legalPhase_ne_fault i (by rw [hi, ← hp, e])
    exact h.raise hf _ _ (fun e => none_notMem_ownFaults i (e ▸ hc)) (fun e => ioError_notMem_ownFaults i (e ▸ hc)) _ _
  | freqSym _ y hp => exact h.setFreq hp y _
  | freqLoad _ y c hp => exact h.setFreq hp y c
  | tbBuild _ hp hl => exact h.buildTree hp hl
  | ctGen _ ct hp hct => exact h.ctGen hp hct
  | encStart _ hp => exact h.encoding (.inl hp) rfl s.outb (by simp) (by simp)
  | encSym _ y hp _ hm => exact h.packSymbol hp y hm
  | encEnd _ hp => exact h.endSession (.inl hp) (h.decoder.match_closed (by simp [hp]) (by simp [hp])) _ rfl
  | decStart _ n hp => exact h.decoding (.inl hp) rfl s.outs (.inl rfl) (fun _ => rfl) (by simpa using n.isLt)
  | decByte _ b hp => exact h.decodeBits hp b _
  | decEnd _ hp hr =>
    exact h.endSession (.inr hp) (h.decoder.match_done hp hr) s.outb
      (h.encoder.pending_closed (by simp [hp]) (by simp [hp]))

theorem acceptIllegal_inv {w : Word} {s t : State} (h : s.Inv) (ht : acceptIllegal w s = .next t) : t.Inv := by
  rw [acceptIllegal] at ht
  split at ht <;> cases ht
  · exact h
  · exact h.raise ‹_› _ _ (by decide) (by decide) _ _

theorem acceptWord_inv {w : Word} {s t : State} (h : s.Inv) (ht : acceptWord w s = .next t) : t.Inv := by
  rw [acceptWord] at ht
  split at ht
  · exact exec_inv h ht
  · exact acceptIllegal_inv h ht

theorem hostEvent_inv {e : HostEvent} {s t : State} (h : s.Inv) (ht : hostEvent e s = .next t) : t.Inv := by
  cases e with
  | cmd w => exact acceptWord_inv h ht
  | reset | resetDuring => cases ht; exact wasReset_inv s
  | takeRsp | takeOutb | takeOuts => cases ht; exact h.channels _ _ _ _

/-- Settles O57: the host's inputs one by one, a command by the effects it can have. -/
theorem everyStepKeepsTheInvariant : Obligations.EveryStepKeepsTheInvariant := by
  unfold Obligations.EveryStepKeepsTheInvariant
  intro s t h ht
  rw [step, nextInput] at ht
  split at ht
  · cases ht; exact h
  · exact hostEvent_inv (h.channels s.outb s.outs s.rsp _) ht

end Sys2Proof.Machine
end

section
namespace Sys2Proof.Machine

/-! ## The inputs of the host and the values after reset -/

/-- Settles O7: the step takes the front of the queue. -/
theorem resetAndTakingAct : Obligations.ResetAndTakingAct := by
  unfold Obligations.ResetAndTakingAct
  intro s w rest
  refine ⟨?_, ?_, ?_, ?_, ?_, ?_⟩ <;> intro h <;> simp [step, nextInput, h, hostEvent, State.wasReset]

/-- Settles O9, from the reads of the tables after reset. -/
theorem resetValues : Obligations.ResetValues := by
  unfold Obligations.ResetValues
  exact ⟨rfl, reset_freqAt, reset_groupAt, rfl, rfl, rfl, rfl, rfl, rfl, reset_codeAt, rfl, rfl, rfl, rfl, rfl, rfl,
    rfl, rfl, rfl, rfl, rfl, fun _ => rfl⟩

/-! ## The registers (10_state.md rules R38 to R49)

A register is a concatenation of fields. Reading one drops the fields below it and then those above. -/

section Registers
variable (s : State)

@[simp] theorem csrWord_id : csrWord s 0x00 = csrId := rfl
@[simp] theorem csrWord_status : csrWord s 0x01 = csrStatus s := rfl
@[simp] theorem csrWord_err : csrWord s 0x02 = csrErr s := rfl
@[simp] theorem csrWord_alpha : csrWord s 0x03 = csrAlpha s := rfl
@[simp] theorem csrWord_root : csrWord s 0x04 = csrRoot s := rfl
@[simp] theorem csrWord_ngroups : csrWord s 0x05 = csrNgroups s := rfl
@[simp] theorem csrWord_encSymcnt : csrWord s 0x06 = csrEncSymcnt s := rfl
@[simp] theorem csrWord_encBitlen : csrWord s 0x07 = csrEncBitlen s := rfl
@[simp] theorem csrWord_encPend : csrWord s 0x08 = csrEncPend s := rfl
@[simp] theorem csrWord_decRem : csrWord s 0x09 = csrDecRem s := rfl
@[simp] theorem csrWord_decSymcnt : csrWord s 0x0A = csrDecSymcnt s := rfl
@[simp] theorem csrWord_decAcclen : csrWord s 0x0B = csrDecAcclen s := rfl

/-- The fields of `STATUS` (R39). -/
theorem csrStatus_fields :
    (csrStatus s).extractLsb' 0 3 = s.phase.code ∧ (csrStatus s).getLsbD 3 = s.treeValid ∧
    (csrStatus s).getLsbD 4 = s.ctValid ∧ (csrStatus s).getLsbD 5 = s.errPending ∧
    (csrStatus s).getLsbD 6 = s.decDone ∧ (csrStatus s).extractLsb' 7 57 = 0 := by
  refine ⟨?_, ?_, ?_, ?_, ?_, ?_⟩ <;>
    simp (disch := decide) only [csrStatus, BitVec.getLsbD_append, BitVec.extractLsb'_append_eq_of_add_le,
      BitVec.extractLsb'_append_eq_of_le, BitVec.extractLsb'_eq_self, Nat.reduceSub] <;> simp

/-- The fields of `ERR` (R40). -/
theorem csrErr_fields :
    (csrErr s).extractLsb' 0 8 = s.err.code.code ∧ (csrErr s).extractLsb' 8 8 = s.err.op ∧
    (csrErr s).extractLsb' 16 8 = s.err.a ∧ (csrErr s).extractLsb' 24 8 = s.err.aux ∧
    (csrErr s).extractLsb' 32 3 = s.err.phaseAt.code ∧ (csrErr s).getLsbD 35 = false ∧
    (csrErr s).extractLsb' 36 3 = s.err.bitpos ∧ (csrErr s).extractLsb' 39 25 = 0 := by
  refine ⟨?_, ?_, ?_, ?_, ?_, ?_, ?_, ?_⟩ <;>
    simp (disch := decide) only [csrErr, BitVec.getLsbD_append, BitVec.extractLsb'_append_eq_of_add_le,
      BitVec.extractLsb'_append_eq_of_le, BitVec.extractLsb'_eq_self, Nat.reduceSub] <;> simp

/-- The fields of `ROOT` (R42). -/
theorem csrRoot_fields :
    (csrRoot s).getLsbD 9 = s.root.valid ∧ (csrRoot s).extractLsb' 0 9 = s.root.ref.bits ∧
    (csrRoot s).extractLsb' 10 54 = 0 := by
  refine ⟨?_, ?_, ?_⟩ <;>
    simp (disch := decide) only [csrRoot, BitVec.getLsbD_append, BitVec.extractLsb'_append_eq_of_add_le,
      BitVec.extractLsb'_append_eq_of_le, BitVec.extractLsb'_eq_self, Nat.reduceSub] <;> simp

/-- A register of one field has it in its low bits and zeros above. -/
theorem zeroPadded_fields {k n : Nat} (x : BitVec n) :
    (0#k ++ x).extractLsb' 0 n = x ∧ (0#k ++ x).extractLsb' n k = 0 :=
  ⟨BitVec.extractLsb'_append_eq_right, BitVec.extractLsb'_append_eq_left⟩

theorem bitsOfByte_getElem? (b : Byte) {j : Nat} (hj : j < 8) : (bitsOfByte b)[j]? = some (b.getLsbD (7 - j)) := by
  interval_cases j <;> rfl

/-- A padded byte holds the bits from bit 7 down, and zeros after the last (R46, R139). -/
theorem pad8_getLsbD {x : BitString} (hx : x.length ≤ 8) {j : Nat} (hj : j < 8) :
    (pad8 x).getLsbD (7 - j) = x[j]?.getD false := by
  have h := bitsOfByte_getElem? (pad8 x) hj
  rw [bitsOfByte_pad8 hx, List.getElem?_append] at h
  split at h
  · simp [h]
  · rename_i hj'
    rw [List.getElem?_replicate_of_lt (by omega)] at h
    rw [List.getElem?_eq_none (by omega)]
    simpa using h.symm

/-- The fields of `ENC_PEND` (R46). -/
theorem csrEncPend_fields (h : s.epend.length ≤ 7) :
    ((csrEncPend s).extractLsb' 0 3).toNat = s.epend.length ∧ (csrEncPend s).extractLsb' 3 5 = 0 ∧
    (∀ j < 8, (csrEncPend s).getLsbD (15 - j) = s.epend[j]?.getD false) ∧
    (csrEncPend s).extractLsb' 16 48 = 0 := by
  refine ⟨?_, ?_, fun j hj => ?_, ?_⟩
  · simp (disch := decide) only [csrEncPend, BitVec.extractLsb'_append_eq_right, BitVec.toNat_ofNat]
    omega
  · simp (disch := decide) only [csrEncPend, BitVec.extractLsb'_append_eq_of_add_le,
      BitVec.extractLsb'_append_eq_of_le, Nat.reduceSub]
    rfl
  · rw [← pad8_getLsbD (by omega) hj]
    simp only [csrEncPend, BitVec.getLsbD_append]
    rw [if_neg (by omega), if_neg (by omega), if_pos (by omega)]
    congr 1
    omega
  · simp (disch := decide) only [csrEncPend, BitVec.extractLsb'_append_eq_of_le, Nat.reduceSub]
    rfl

/-- The length of `DACC` stands in `DEC_ACCLEN` whole (R49). -/
theorem csrDecAcclen_toNat (h : s.dacc.length ≤ 255) : ((csrDecAcclen s).extractLsb' 0 8).toNat = s.dacc.length := by
  rw [csrDecAcclen, (zeroPadded_fields _).1, BitVec.toNat_ofNat]
  omega

end Registers

theorem leaf_bits_toNat (y : Sym) : (NRef.leaf y).bits.toNat = y.toNat := by
  rw [NRef.bits, BitVec.toNat_append]
  simp

theorem group_bits_toNat (k : GroupNo) : (NRef.group k).bits.toNat = 256 + k.toNat := by
  rw [NRef.bits, BitVec.toNat_append, ← Nat.shiftLeft_add_eq_or_of_lt k.isLt]
  rfl

/-- The registers from `ALPHA` to `DEC_ACCLEN` are zero after reset (R41 to R49). -/
theorem csrWord_reset {idx : Byte} (h3 : 0x03 ≤ idx.toNat) (hB : idx.toNat ≤ 0x0B) : csrWord State.reset idx = 0 := by
  unfold csrWord
  generalize idx.toNat = n at h3 hB
  interval_cases n <;> rfl

/-- Settles O13, from the fields of each register. -/
theorem csrIdStatusErrLayout : Obligations.CsrIdStatusErrLayout := by
  unfold Obligations.CsrIdStatusErrLayout
  refine ⟨by decide, by decide, fun s => ⟨?_, ?_, ?_⟩⟩
  · rw [csrWord_id, csrWord_id]
    decide
  · obtain ⟨hphase, htree, hct, herr, hdone, hzero⟩ := csrStatus_fields s
    rw [csrWord_status]
    exact ⟨hphase, htree, hct, by rw [herr]; simp [State.errPending, bne, beq_eq_decide],
      by rw [hdone]; simp [State.decDone, beq_eq_decide], hzero, rfl⟩
  · obtain ⟨hcode, hop, ha, haux, hphase, hgap, hbitpos, hzero⟩ := csrErr_fields s
    rw [csrWord_err]
    exact ⟨hcode, hop, ha, haux, hphase, hgap, hbitpos, hzero, rfl⟩

/-- Settles O14, from the fields of each register. -/
theorem csrTableAndCounterLayout : Obligations.CsrTableAndCounterLayout := by
  unfold Obligations.CsrTableAndCounterLayout
  refine ⟨leaf_bits_toNat, group_bits_toNat, fun s he hd => ?_, fun idx => csrWord_reset⟩
  obtain ⟨halpha, halpha0⟩ := zeroPadded_fields (k := 55) s.alpha
  obtain ⟨hvalid, href, hroot0⟩ := csrRoot_fields s
  obtain ⟨hgroups, hgroups0⟩ := zeroPadded_fields (k := 56) s.ngroups
  obtain ⟨hsyms, hsyms0⟩ := zeroPadded_fields (k := 16) s.encSymcnt
  obtain ⟨hbits, hbits0⟩ := zeroPadded_fields (k := 8) s.encBitlen
  obtain ⟨hpendLen, hpendGap, hpend, hpend0⟩ := csrEncPend_fields s he
  obtain ⟨hrem, hrem0⟩ := zeroPadded_fields (k := 16) s.decRem
  obtain ⟨hout, hout0⟩ := zeroPadded_fields (k := 16) s.decSymcnt
  obtain ⟨-, hacc0⟩ := zeroPadded_fields (k := 56) (BitVec.ofNat 8 s.dacc.length)
  exact ⟨halpha, halpha0, hvalid, href, hroot0, hgroups, hgroups0, hsyms, hsyms0, hbits, hbits0, hpendLen, hpendGap,
    hpend, hpend0, hrem, hrem0, hout, hout0, csrDecAcclen_toNat s hd, hacc0⟩

end Sys2Proof.Machine
end

section
namespace Sys2Proof.Machine

/-! ## Every step answers (20_memory.md rule R66, 46_laws.md rule R166) -/

/-- Settles O6: the step takes the word off the queue and decodes it. -/
theorem stepRunsTheDecodedCommand : Obligations.StepRunsTheDecodedCommand := by
  unfold Obligations.StepRunsTheDecodedCommand
  intro s w i rest hhost hdec
  simp [step, nextInput, hhost, hostEvent, acceptWord_of_decode hdec]

/-! ### The walk of CT_GEN -/

/-- How deep a walk from a node can go: a group's children are leaves and lower groups (R130). -/
def walkBound : NRef → Nat
  | .leaf _ => 0
  | .group k => k.toNat + 1

theorem TreeShape.ngroups_le {s : State} (h : TreeShape s) : s.ngroups.toNat ≤ 255 := by
  have := h.groups_eq
  have := alphabetSize_le s.ft
  omega

/-- A child of a group in use is a node, and the walk from it is shorter. -/
theorem TreeShape.child_bound {s : State} (h : TreeShape s) {k : GroupNo} (hk : k.toNat < s.ngroups.toNat) {n : NRef}
    (hn : (groupAt s.gt k).c0 = n ∨ (groupAt s.gt k).c1 = n) : IsNode s n ∧ walkBound n ≤ k.toNat := by
  have hmem : n ∈ treeChildren s :=
    List.mem_flatMap.mpr ⟨k.toNat, List.mem_range.mpr hk, by simpa [eq_comm] using hn⟩
  refine ⟨((h.child_iff n).mp hmem).1, ?_⟩
  cases n with
  | leaf y => exact Nat.zero_le _
  | group j => exact h.child_lower k j hk hn

/-- In a tree the walk from a node ends within its bound (R130). -/
theorem TreeShape.visit_completes {s : State} (h : TreeShape s) {depth : Nat} {n : NRef} (hn : IsNode s n)
    (hd : walkBound n < depth) (acc : BitString) (ct : Vector CodeEntry 256) :
    ∃ ct', visit s.gt depth n acc ct = some ct' := by
  induction depth generalizing n acc ct with
  | zero => omega
  | succ d ih =>
    cases n with
    | leaf y => exact ⟨_, rfl⟩
    | group k =>
      have hk : k.toNat < s.ngroups.toNat := hn
      have hle : k.toNat < d := by simpa [walkBound] using hd
      have hg : groupAt? s.gt k = some (groupAt s.gt k) := groupAt?_eq s.gt (by have := h.ngroups_le; omega)
      obtain ⟨hn0, hb0⟩ := h.child_bound hk (.inl rfl)
      obtain ⟨hn1, hb1⟩ := h.child_bound hk (.inr rfl)
      obtain ⟨ct0, h0⟩ := ih hn0 (by omega) (acc ++ [false]) ct
      obtain ⟨ct1, h1⟩ := ih hn1 (by omega) (acc ++ [true]) ct0
      exact ⟨ct1, by simp [visit, hg, h0, h1]⟩

/-- The root of a tree of groups is the last of them (R122). -/
theorem TreeShape.root_isNode {s : State} (h : TreeShape s) {k : GroupNo} (hk : s.root.ref = .group k) :
    IsNode s (.group k) := by
  have hsize := h.groups_eq
  by_cases h2 : 2 ≤ alphabetSize s.ft
  · obtain rfl : k = s.ngroups - 1 := NRef.group.inj (hk.symm.trans (h.root_group h2))
    show (s.ngroups - 1).toNat < s.ngroups.toNat
    bv_omega
  · obtain ⟨y, -, hy⟩ := h.root_single (by omega)
    cases hk.symm.trans hy

/-- A tree has a code table (R130). -/
theorem TreeShape.codeTableOf_completes {s : State} (h : TreeShape s) : ∃ ct, codeTableOf s.gt s.root.ref = some ct := by
  cases hr : s.root.ref with
  | leaf y => exact ⟨_, rfl⟩
  | group k =>
    have hk : IsNode s (.group k) := h.root_isNode hr
    have hlt : k.toNat < s.ngroups.toNat := hk
    have hle := h.ngroups_le
    exact h.visit_completes hk (show k.toNat + 1 < 256 by omega) [] _

/-! ### A next state for every input -/

/-- The answer is a next state. -/
def Completes (r : Result) : Prop := ∃ t, r = .next t

theorem completes_next (t : State) : Completes (.next t) := ⟨t, rfl⟩

theorem completes_ite {c : Prop} [Decidable c] {q r : Result} (hq : Completes q) (hr : Completes r) :
    Completes (if c then q else r) := by
  split
  · exact hq
  · exact hr

/-- The phase check answers a next state where the command's own pseudocode does. -/
theorem completes_inPhase {p : Phase} {op a : Byte} {s : State} {run : State → Result}
    (h : s.phase = p → Completes (run s)) : Completes (inPhase p op a s run) := by
  unfold inPhase
  split
  · exact completes_next s
  · split
    · exact h ‹_›
    · exact completes_next _

/-- From the invariant every command answers a next state: CT_GEN because phase TREE has a tree. -/
theorem exec_completes {s : State} (h : s.Inv) (i : Instr) : Completes (exec i s) := by
  cases i with
  | nop | clear | rdCsr | rdFreq | rdClen | rdCode => exact completes_next _
  | rdGroup => exact completes_ite (completes_next _) (completes_next _)
  | freqLoad | encStart | encEnd | decStart =>
    apply completes_inPhase
    exact fun _ => completes_next _
  | freqSym | tbBuild | decByte | decEnd =>
    apply completes_inPhase
    exact fun _ => completes_ite (completes_next _) (completes_next _)
  | encSym =>
    apply completes_inPhase
    exact fun _ => completes_ite (completes_next _) (completes_ite (completes_next _) (completes_next _))
  | ctGen =>
    apply completes_inPhase
    intro hp
    obtain ⟨ct, hct⟩ := (h.tables.tree (h.flags.in_tree hp).1).codeTableOf_completes
    simp only [hct]
    exact completes_next _

theorem acceptWord_completes {s : State} (h : s.Inv) (w : Word) : Completes (acceptWord w s) := by
  unfold acceptWord
  split
  · exact exec_completes h _
  · exact completes_ite (completes_next _) (completes_next _)

theorem hostEvent_completes {s : State} (h : s.Inv) (e : HostEvent) : Completes (hostEvent e s) := by
  cases e with
  | cmd w => exact acceptWord_completes h w
  | reset | resetDuring | takeRsp | takeOutb | takeOuts => exact completes_next _

/-- Settles O58: input by input; only the walk of CT_GEN could have no next state, and a tree bounds it. -/
theorem everyStepCompletes : Obligations.EveryStepCompletes := by
  unfold Obligations.EveryStepCompletes
  intro s h
  rw [step, nextInput]
  split
  · exact completes_next s
  · exact hostEvent_completes (h.channels s.outb s.outs s.rsp _) _

/-! ## What a command moves out (20_memory.md rules R67, R77, R90) -/

/-- A command that answers a response word (R90). -/
abbrev IsRead (i : Instr) : Prop :=
  (∃ x, i = .rdCsr x) ∨ (∃ y, i = .rdFreq y) ∨ (∃ k, i = .rdGroup k) ∨ (∃ y, i = .rdClen y) ∨ ∃ y c, i = .rdCode y c

/-- A read is legal in every phase (R176). -/
theorem legalPhase_of_isRead {i : Instr} (h : IsRead i) : legalPhase i = none := by
  rcases h with ⟨_, rfl⟩ | ⟨_, rfl⟩ | ⟨_, rfl⟩ | ⟨_, rfl⟩ | ⟨_, _, rfl⟩ <;> rfl

theorem not_isRead_of_legalPhase {i : Instr} {p : Phase} (h : legalPhase i = some p) : ¬ IsRead i := fun hr => by
  simp [legalPhase_of_isRead hr] at h

/-- What the command `i` on `s` may have moved out when it answers `t`. -/
def AppendsToOneChannel (i : Instr) (s t : State) : Prop :=
  ∃ (bs : List Byte) (ys : List Sym) (ws : List Word),
    t.outb = s.outb ++ bs ∧ t.outs = s.outs ++ ys ∧ t.rsp = s.rsp ++ ws ∧
    ((bs = [] ∧ ys = []) ∨ (bs = [] ∧ ws = []) ∨ (ys = [] ∧ ws = [])) ∧
    (ws.length = if IsRead i then 1 else 0) ∧
    ys.length ≤ 8 ∧ (i = .encEnd → bs.length ≤ 1) ∧
    (s.epend.length < 8 → (∀ y, (codeAt s.ct y).len ≤ 255) → bs.length ≤ 32)

section Channels
variable {i : Instr} {s t : State}

theorem appendsToOneChannel_rsp (hi : IsRead i) (w : Word) : AppendsToOneChannel i s (s.emitRsp w) :=
  ⟨[], [], [w], by simp, by simp, rfl, .inl ⟨rfl, rfl⟩, (if_pos hi).symm, by simp, by simp, by simp⟩

theorem appendsToOneChannel_outs (hi : ¬ IsRead i) {ys : List Sym} (hys : ys.length ≤ 8) (houtb : t.outb = s.outb)
    (houts : t.outs = s.outs ++ ys) (hrsp : t.rsp = s.rsp) : AppendsToOneChannel i s t :=
  ⟨[], ys, [], by simp [houtb], houts, by simp [hrsp], .inr (.inl ⟨rfl, rfl⟩), (if_neg hi).symm, hys, by simp, by simp⟩

theorem appendsToOneChannel_none (hi : ¬ IsRead i) (houtb : t.outb = s.outb) (houts : t.outs = s.outs)
    (hrsp : t.rsp = s.rsp) : AppendsToOneChannel i s t :=
  appendsToOneChannel_outs hi (ys := []) (Nat.zero_le 8) houtb (by simp [houts]) hrsp

theorem appendsToOneChannel_outb (hi : ¬ IsRead i) {bs : List Byte} (hend : i = .encEnd → bs.length ≤ 1)
    (hbs : s.epend.length < 8 → (∀ y, (codeAt s.ct y).len ≤ 255) → bs.length ≤ 32) (houtb : t.outb = s.outb ++ bs)
    (houts : t.outs = s.outs) (hrsp : t.rsp = s.rsp) : AppendsToOneChannel i s t :=
  ⟨bs, [], [], houtb, by simp [houts], by simp [hrsp], .inr (.inr ⟨rfl, rfl⟩), (if_neg hi).symm, by simp, hend, hbs⟩

end Channels

/-- ENC_SYM writes at most 32 bytes: 7 bits pending and 255 of the code (R29, R133). -/
theorem packBits_length_le {x pending : BitString} (hp : pending.length < 8) (hx : x.length ≤ 255) :
    (packBits pending x).2.length ≤ 32 := by
  rw [(packBits_lengths x pending hp).1]
  omega

theorem lastByte_length_le (x : BitString) : (if x.length > 0 then [pad8 x] else []).length ≤ 1 := by
  split <;> simp

/-- Settles O53, by the effects a command can have. -/
theorem commandsAppendToOneChannel : Obligations.CommandsAppendToOneChannel := by
  unfold Obligations.CommandsAppendToOneChannel
  intro i s t h
  show AppendsToOneChannel i s t
  cases exec_effect h with
  | rdCsr | rdFreq | rdGroup | rdClen | rdCode =>
    refine appendsToOneChannel_rsp ?_ _
    simp [IsRead]
  | nop | clear =>
    refine appendsToOneChannel_none ?_ rfl rfl rfl
    simp [IsRead]
  | ignored _ _ p hi | sequence _ _ p hi | faulted _ _ p hi =>
    exact appendsToOneChannel_none (not_isRead_of_legalPhase hi) rfl rfl rfl
  | freqSym | freqLoad | ctGen | encStart | decStart | decEnd =>
    exact appendsToOneChannel_none (not_isRead_of_legalPhase rfl) rfl rfl rfl
  | tbBuild =>
    obtain ⟨gt, n, pl, root, hb⟩ := buildTree_frame s (alphabetSize s.ft)
    rw [hb]
    exact appendsToOneChannel_none (not_isRead_of_legalPhase rfl) rfl rfl rfl
  | encSym _ y =>
    exact appendsToOneChannel_outb (not_isRead_of_legalPhase rfl) nofun
      (fun hpend hlen => packBits_length_le hpend (hlen y)) rfl rfl rfl
  | encEnd =>
    have hle := lastByte_length_le s.epend
    exact appendsToOneChannel_outb (not_isRead_of_legalPhase rfl) (fun _ => hle) (fun _ _ => by omega) rfl rfl rfl
  | decByte _ b =>
    obtain ⟨⟨ys, hys, houts⟩, -⟩ := decodeBits_outcome b [7, 6, 5, 4, 3, 2, 1, 0] s
    obtain ⟨o, d, r, c, e, p, hb⟩ := decodeBits_frame b [7, 6, 5, 4, 3, 2, 1, 0] s
    exact appendsToOneChannel_outs (not_isRead_of_legalPhase rfl) hys (by rw [hb]) houts (by rw [hb])

/-! ## Packed bytes (20_memory.md rule R63) -/

theorem packAll_length (x : BitString) : (packAll x).length = (x.length + 7) / 8 := by simp [packAll]

/-- Byte `n` of the packed payload. -/
theorem packAll_getElem? {x : BitString} {n : Nat} (hn : 8 * n < x.length) :
    (packAll x)[n]? = some (pad8 ((x.drop (8 * n)).take 8)) := by
  simp [packAll, List.getElem?_range (show n < (x.length + 7) / 8 by omega)]

/-- The first byte and the bytes after it. -/
theorem packAll_of_ne_nil {x : BitString} (hx : x ≠ []) : packAll x = pad8 (x.take 8) :: packAll (x.drop 8) := by
  have hpos := List.length_pos_iff.mpr hx
  have hn : (x.length + 7) / 8 = (x.length - 8 + 7) / 8 + 1 := by omega
  rw [packAll, hn, List.range_succ_eq_map, List.map_cons, List.map_map, packAll, List.length_drop]
  congr 1
  refine List.map_congr_left fun j _ => ?_
  rw [List.drop_drop, Function.comp_apply, Nat.mul_succ, Nat.add_comm]

/-- Expanding the packed bytes gives the bits back, padded to whole bytes (R63, R139). -/
theorem flatMap_bitsOfByte_packAll (x : BitString) :
    (packAll x).flatMap bitsOfByte = padTo (8 * ((x.length + 7) / 8)) x := by
  induction hl : x.length using Nat.strong_induction_on generalizing x with
  | _ l ih =>
    by_cases hx : x = []
    · subst hx hl
      rfl
    · have hpos := List.length_pos_iff.mpr hx
      have hrest := ih (x.drop 8).length (by rw [List.length_drop]; omega) _ rfl
      rw [packAll_of_ne_nil hx, List.flatMap_cons, bitsOfByte_pad8 (List.length_take_le 8 x), hrest]
      subst hl
      simp only [padTo, List.length_take, List.length_drop]
      by_cases h8 : 8 ≤ x.length
      · rw [show 8 - min 8 x.length = 0 by omega, List.replicate_zero, List.append_nil, ← List.append_assoc,
          List.take_append_drop]
        congr 2
        omega
      · rw [List.take_of_length_le (by omega), List.drop_of_length_le (by omega)]
        rw [show 8 * ((x.length - 8 + 7) / 8) - (x.length - 8) = 0 by omega, List.replicate_zero, List.append_nil,
          List.append_nil]
        congr 2
        omega

/-- Settles O36: byte by byte, and the bytes expanded in order. -/
theorem packedBytesAreMostSignificantFirst : Obligations.PackedBytesAreMostSignificantFirst := by
  unfold Obligations.PackedBytesAreMostSignificantFirst
  intro x
  refine ⟨packAll_length x, fun j hj => ?_, _, ?_, flatMap_bitsOfByte_packAll x⟩
  · have hmod : j % 8 < 8 := Nat.mod_lt j (by decide)
    rw [packAll_getElem? (by omega), Option.getD_some, pad8_getLsbD (List.length_take_le 8 _) hmod,
      List.getElem?_take_of_lt hmod, List.getElem?_drop, Nat.div_add_mod, List.getElem?_eq_getElem hj, Option.getD_some]
  · omega

/-! ## The queue of the host's inputs (20_memory.md rules R66, R71) -/

/-- The state with another queue. -/
def State.withHost (s : State) (q : List HostEvent) : State := { s with host := q }

/-- The same answer with another queue. -/
def answerWithHost (q : List HostEvent) : Result → Result
  | .next t => .next (t.withHost q)
  | .fault r => .fault r
  | .refused r => .refused r

/-- A function of a choice, branch by branch; the two conditions may differ by unfolding. -/
theorem ite_map {α β : Type} (f : α → β) {c : Prop} [Decidable c] {x y : α} {u v : β} (hu : u = f x) (hv : v = f y) :
    (if c then u else v) = f (if c then x else y) := by
  rw [apply_ite f, hu, hv]

section Queue
variable (q : List HostEvent) (s : State)

@[simp] theorem withHost_gt : (s.withHost q).gt = s.gt := rfl
@[simp] theorem withHost_ngroups : (s.withHost q).ngroups = s.ngroups := rfl
@[simp] theorem withHost_root : (s.withHost q).root = s.root := rfl
@[simp] theorem withHost_pl : (s.withHost q).pl = s.pl := rfl
@[simp] theorem withHost_ct : (s.withHost q).ct = s.ct := rfl
@[simp] theorem withHost_dacc : (s.withHost q).dacc = s.dacc := rfl
@[simp] theorem withHost_host : (s.withHost q).host = q := rfl

theorem setGroup_withHost (k : GroupNo) (g : Group) : (s.withHost q).setGroup k g = (s.setGroup k g).withHost q := rfl

@[simp] theorem cnt_withHost : (s.withHost q).cnt = s.cnt := rfl

@[simp] theorem before_withHost : (s.withHost q).before = s.before := rfl

@[simp] theorem insertInOrder_withHost : (s.withHost q).insertInOrder = s.insertInOrder := by
  funext x l
  induction l with
  | nil => rfl
  | cons y l ih => rw [State.insertInOrder, State.insertInOrder, ih, before_withHost]

theorem mergeStep_withHost : (s.withHost q).mergeStep = s.mergeStep.withHost q := by
  unfold State.mergeStep
  rw [withHost_pl]
  split
  · dsimp only
    rw [cnt_withHost, withHost_ngroups, setGroup_withHost, insertInOrder_withHost]
    rfl
  · rfl

theorem mergeWhile_withHost (fuel : Nat) : mergeWhile fuel (s.withHost q) = (mergeWhile fuel s).withHost q := by
  induction fuel generalizing s with
  | zero => rfl
  | succ n ih =>
    rw [mergeWhile, mergeWhile, mergeStep_withHost, ih, withHost_pl, apply_ite (State.withHost · q)]

theorem finalMerge_withHost : (s.withHost q).finalMerge = s.finalMerge.withHost q := by
  unfold State.finalMerge
  rw [withHost_pl]
  split <;> rfl

theorem singleRoot_withHost : (s.withHost q).singleRoot = s.singleRoot.withHost q := by
  unfold State.singleRoot
  rw [withHost_pl]
  split <;> rfl

theorem startTree_withHost : (s.withHost q).startTree = s.startTree.withHost q := by
  rw [State.startTree, State.initialList, insertInOrder_withHost]
  rfl

theorem growTree_withHost (l : Nat) : (s.withHost q).growTree l = (s.growTree l).withHost q := by
  rw [State.growTree, State.growTree, singleRoot_withHost, mergeWhile_withHost, finalMerge_withHost, withHost_pl,
    apply_ite (State.withHost · q)]

theorem buildTree_withHost (l : Nat) : (s.withHost q).buildTree l = (s.buildTree l).withHost q := by
  rw [State.buildTree, startTree_withHost, growTree_withHost]
  rfl

theorem decodeBits_withHost (byte : Byte) (is : List Nat) :
    decodeBits byte is (s.withHost q) = (decodeBits byte is s).withHost q := by
  induction is generalizing s with
  | nil => rfl
  | cons i is ih =>
    rw [decodeBits, decodeBits]
    refine ite_map (State.withHost · q) rfl ?_
    simp only [withHost_ct, withHost_dacc]
    cases codeInverse s.ct (s.dacc ++ [byte.getLsbD i]) with
    | some y => exact ih ({ s with dacc := s.dacc ++ [byte.getLsbD i] }.emitDecoded y)
    | none => exact ite_map (State.withHost · q) (ih { s with dacc := s.dacc ++ [byte.getLsbD i] }) rfl

/-- The phase check does not look at the queue. -/
theorem inPhase_withHost {p : Phase} {op a : Byte} {s : State} {run : State → Result}
    (h : run (s.withHost q) = answerWithHost q (run s)) :
    inPhase p op a (s.withHost q) run = answerWithHost q (inPhase p op a s run) :=
  ite_map (answerWithHost q) rfl (ite_map (answerWithHost q) h rfl)

/-- No command looks at the queue or writes it (R66, R71). -/
theorem exec_withHost (i : Instr) : exec i (s.withHost q) = answerWithHost q (exec i s) := by
  cases i with
  | nop | clear | rdCsr | rdFreq | rdClen | rdCode => rfl
  | rdGroup => exact ite_map (answerWithHost q) rfl rfl
  | freqLoad | encStart | encEnd | decStart =>
    simp only [exec, execFreqLoad, execEncStart, execEncEnd, execDecStart]
    exact inPhase_withHost q rfl
  | freqSym | decEnd =>
    simp only [exec, execFreqSym, execDecEnd]
    exact inPhase_withHost q (ite_map (answerWithHost q) rfl rfl)
  | encSym =>
    simp only [exec, execEncSym]
    exact inPhase_withHost q (ite_map (answerWithHost q) rfl (ite_map (answerWithHost q) rfl rfl))
  | tbBuild =>
    simp only [exec, execTbBuild]
    exact inPhase_withHost q (ite_map (answerWithHost q) rfl (congrArg _ (buildTree_withHost q s _)))
  | decByte byte =>
    simp only [exec, execDecByte]
    exact inPhase_withHost q (ite_map (answerWithHost q) rfl (congrArg _ (decodeBits_withHost q s byte _)))
  | ctGen =>
    simp only [exec, execCtGen]
    refine inPhase_withHost q ?_
    simp only [withHost_gt, withHost_root]
    cases codeTableOf s.gt s.root.ref <;> rfl

end Queue

/-- Settles O8: a command answers the same with any queue, and so with its own. -/
theorem commandsIgnoreLaterInputs : Obligations.CommandsIgnoreLaterInputs := by
  unfold Obligations.CommandsIgnoreLaterInputs
  intro i s t q h
  have hq (q : List HostEvent) : exec i (s.withHost q) = .next (t.withHost q) := by
    rw [exec_withHost, h, answerWithHost]
  refine ⟨?_, hq q⟩
  have hown : Host.Outcome.next t = .next (t.withHost s.host) := h.symm.trans (hq s.host)
  rw [Host.Outcome.next.inj hown, withHost_host]

end Sys2Proof.Machine
end

section
namespace Sys2Proof

/-! ## The encoding (30_encoding.md rules R80 to R87)

Everything rests on the three fields: a word reads as a command when they are the command's own (R81, R82). A word that
decodes to a command reads as it, and so does a word that matches a row, as a command of that row. -/

/-- The fields of the word are the command's own (R81, R82). -/
structure ReadsAs (w : Word) (i : Instr) : Prop where
  op : opField w = i.op
  a : aField w = i.a
  b : bField w = i.b

theorem ReadsAs.encode_eq {w : Word} {i : Instr} (h : ReadsAs w i) : encode i = w := by
  rw [encode, ← h.op, ← h.a, ← h.b, formatC_fields]

/-! ### An operand in the low bits of `B` -/

/-- The bits above a zero-extended operand are zero (R83). -/
@[simp] theorem extractLsb'_above_setWidth {m : Nat} (x : BitVec m) (k len : Nat) :
    (x.setWidth k).extractLsb' m len = 0#len := by
  apply BitVec.eq_of_getLsbD_eq
  simp

/-- `B` is its low `m` bits, zero-extended, when the bits above them are zero (R83). -/
theorem bField_eq_setWidth_low {w : Word} {m n : Nat} (hmn : m + n = 48) (h : (bField w).extractLsb' m n = 0) :
    bField w = ((bField w).extractLsb' 0 m).setWidth 48 := by
  apply BitVec.eq_of_getLsbD_eq
  intro i hi
  by_cases hm : i < m
  · simp [hm, hi]
  · have hbit := congrArg (·.getLsbD (i - m)) h
    simpa [hm, show m + (i - m) = i by omega, show i - m < n by omega] using hbit

/-! ### The decoder and the encoder -/

/-- Settles O2: the decoder sees the command's own opcode, and its operands beside bits that are zero. -/
theorem decodeOfEncode : Obligations.DecodeOfEncode := by
  unfold Obligations.DecodeOfEncode
  intro i
  cases i with
  | nop | clear | tbBuild | ctGen | encStart | encEnd | decEnd => rfl
  | freqSym | encSym | decStart | decByte | rdCsr | rdFreq | rdGroup | rdClen =>
    simp [decode, encode, whenZero, Instr.op, Instr.a, Instr.b]
  | freqLoad | rdCode =>
    simp [decode, encode, whenZero, Instr.op, Instr.a, Instr.b, BitVec.extractLsb'_setWidth_of_le,
      BitVec.extractLsb'_eq_self]

theorem whenZero_eq_ok {z : Bool} {i j : Instr} : whenZero z i = .ok j ↔ z = true ∧ i = j := by
  cases z <;> simp [whenZero]

theorem readsAs_of_decode {w : Word} {i : Instr} (h : decode w = .ok i) : ReadsAs w i := by
  unfold decode at h
  split at h
  -- no operand: `A` and `B` are zero
  case h_1 hop | h_2 hop | h_5 hop | h_6 hop | h_7 hop | h_9 hop | h_12 hop =>
    obtain ⟨hz, rfl⟩ := whenZero_eq_ok.mp h
    obtain ⟨ha, hb⟩ : aField w = 0 ∧ bField w = 0 := by simpa using hz
    exact ⟨BitVec.eq_of_toNat_eq hop, ha, hb⟩
  -- the operand is `A`, and `B` is zero
  case h_3 hop | h_8 hop | h_11 hop | h_13 hop | h_14 hop | h_15 hop | h_16 hop =>
    obtain ⟨hz, rfl⟩ := whenZero_eq_ok.mp h
    exact ⟨BitVec.eq_of_toNat_eq hop, rfl, eq_of_beq hz⟩
  -- FREQ_LOAD and RD_CODE: `A` and the low bits of `B`
  case h_4 hop | h_17 hop =>
    obtain ⟨hz, rfl⟩ := whenZero_eq_ok.mp h
    exact ⟨BitVec.eq_of_toNat_eq hop, rfl, bField_eq_setWidth_low rfl (eq_of_beq hz)⟩
  -- DEC_START: all of `B`
  case h_10 hop =>
    obtain ⟨hz, rfl⟩ := whenZero_eq_ok.mp h
    exact ⟨BitVec.eq_of_toNat_eq hop, eq_of_beq hz, rfl⟩
  case h_18 => cases h

/-- Settles O3: the fields of the word are the command's, and a word is the format C of its fields. -/
theorem encodeOfDecode : Obligations.EncodeOfDecode := by
  unfold Obligations.EncodeOfDecode
  exact fun w i h => (readsAs_of_decode h).encode_eq

theorem decode_eq_ok_iff {w : Word} {i : Instr} : decode w = .ok i ↔ encode i = w :=
  ⟨encodeOfDecode w i, fun h => h ▸ decodeOfEncode i⟩

/-! ### The rows of the opcode table -/

/-- No two rows have the same mnemonic. -/
theorem row_eq_of_mnemonic_eq : ∀ r ∈ opTable, ∀ r' ∈ opTable, r.mnemonic = r'.mnemonic → r = r' := by decide

theorem rowMatch_all (i : Instr) : Laws.RowMatch.Statement i := by
  cases i with
  | nop => exact Laws.RowMatch.nop
  | clear => exact Laws.RowMatch.clear
  | freqSym sym => exact Laws.RowMatch.freqSym sym
  | freqLoad sym count => exact Laws.RowMatch.freqLoad sym count
  | tbBuild => exact Laws.RowMatch.tbBuild
  | ctGen => exact Laws.RowMatch.ctGen
  | encStart => exact Laws.RowMatch.encStart
  | encSym sym => exact Laws.RowMatch.encSym sym
  | encEnd => exact Laws.RowMatch.encEnd
  | decStart n => exact Laws.RowMatch.decStart n
  | decByte byte => exact Laws.RowMatch.decByte byte
  | decEnd => exact Laws.RowMatch.decEnd
  | rdCsr idx => exact Laws.RowMatch.rdCsr idx
  | rdFreq sym => exact Laws.RowMatch.rdFreq sym
  | rdGroup k => exact Laws.RowMatch.rdGroup k
  | rdClen sym => exact Laws.RowMatch.rdClen sym
  | rdCode sym chunk => exact Laws.RowMatch.rdCode sym chunk

/-- Rule R84: the word of a command matches the row with the command's mnemonic. -/
theorem encode_matches_row (i : Instr) : ∃ r ∈ opTable, r.mnemonic = i.mnemonic ∧ encode i &&& r.mask = r.pattern := by
  obtain ⟨r, hr, hmnemonic, hmatch⟩ := rowMatch_all i
  exact ⟨r, hr, hmnemonic, eq_of_beq hmatch⟩

section Match
variable {w mask pattern : Word} (h : w &&& mask = pattern)
include h

/-- Bits that a row's mask covers are the row's own in every word that matches (R84). -/
theorem fixedBits_of_match {start len : Nat} (hm : mask.extractLsb' start len = BitVec.allOnes len := by rfl) :
    w.extractLsb' start len = pattern.extractLsb' start len := by
  rw [← h, BitVec.extractLsb'_and, hm, BitVec.and_allOnes]

/-- Bits of `B` that a row's mask covers, where the row has zeros (R83). -/
theorem bField_high_of_match {m n : Nat} (hmn : m + n ≤ 48 := by decide)
    (hm : mask.extractLsb' m n = BitVec.allOnes n := by rfl) (hp : pattern.extractLsb' m n = 0 := by rfl) :
    (bField w).extractLsb' m n = 0 := by
  rw [bField, BitVec.extractLsb'_extractLsb'_of_le hmn, fixedBits_of_match h hm, hp]

end Match

/-- Rule R84: a word that matches a row reads as a command of the row, its operands the bits the mask leaves free. -/
theorem readsAs_of_match {w : Word} :
    ∀ r ∈ opTable, w &&& r.mask = r.pattern → ∃ i, ReadsAs w i ∧ i.mnemonic = r.mnemonic := by
  simp only [opTable, List.forall_mem_cons]
  exact
    ⟨fun h => ⟨.nop, ⟨fixedBits_of_match h, fixedBits_of_match h, fixedBits_of_match h⟩, rfl⟩,
     fun h => ⟨.clear, ⟨fixedBits_of_match h, fixedBits_of_match h, fixedBits_of_match h⟩, rfl⟩,
     fun h => ⟨.freqSym (aField w), ⟨fixedBits_of_match h, rfl, fixedBits_of_match h⟩, rfl⟩,
     fun h => ⟨.freqLoad (aField w) ((bField w).extractLsb' 0 32), ⟨fixedBits_of_match h, rfl,
       bField_eq_setWidth_low rfl (bField_high_of_match (n := 16) h)⟩, rfl⟩,
     fun h => ⟨.tbBuild, ⟨fixedBits_of_match h, fixedBits_of_match h, fixedBits_of_match h⟩, rfl⟩,
     fun h => ⟨.ctGen, ⟨fixedBits_of_match h, fixedBits_of_match h, fixedBits_of_match h⟩, rfl⟩,
     fun h => ⟨.encStart, ⟨fixedBits_of_match h, fixedBits_of_match h, fixedBits_of_match h⟩, rfl⟩,
     fun h => ⟨.encSym (aField w), ⟨fixedBits_of_match h, rfl, fixedBits_of_match h⟩, rfl⟩,
     fun h => ⟨.encEnd, ⟨fixedBits_of_match h, fixedBits_of_match h, fixedBits_of_match h⟩, rfl⟩,
     fun h => ⟨.decStart (bField w), ⟨fixedBits_of_match h, fixedBits_of_match h, rfl⟩, rfl⟩,
     fun h => ⟨.decByte (aField w), ⟨fixedBits_of_match h, rfl, fixedBits_of_match h⟩, rfl⟩,
     fun h => ⟨.decEnd, ⟨fixedBits_of_match h, fixedBits_of_match h, fixedBits_of_match h⟩, rfl⟩,
     fun h => ⟨.rdCsr (aField w), ⟨fixedBits_of_match h, rfl, fixedBits_of_match h⟩, rfl⟩,
     fun h => ⟨.rdFreq (aField w), ⟨fixedBits_of_match h, rfl, fixedBits_of_match h⟩, rfl⟩,
     fun h => ⟨.rdGroup (aField w), ⟨fixedBits_of_match h, rfl, fixedBits_of_match h⟩, rfl⟩,
     fun h => ⟨.rdClen (aField w), ⟨fixedBits_of_match h, rfl, fixedBits_of_match h⟩, rfl⟩,
     fun h => ⟨.rdCode (aField w) ((bField w).extractLsb' 0 2), ⟨fixedBits_of_match h, rfl,
       bField_eq_setWidth_low rfl (bField_high_of_match (n := 46) h)⟩, rfl⟩,
     fun _ hr => absurd hr List.not_mem_nil⟩

/-- A row matches a word exactly when the word decodes to a command of the row. -/
theorem match_iff_decode {w : Word} {r : OpRow} (hr : r ∈ opTable) :
    w &&& r.mask = r.pattern ↔ ∃ i, decode w = .ok i ∧ i.mnemonic = r.mnemonic := by
  constructor
  · intro h
    obtain ⟨i, hi, hmnemonic⟩ := readsAs_of_match r hr h
    exact ⟨i, decode_eq_ok_iff.mpr hi.encode_eq, hmnemonic⟩
  · rintro ⟨i, hi, hmnemonic⟩
    obtain ⟨r', hr', hmnemonic', h⟩ := encode_matches_row i
    obtain rfl : r' = r := row_eq_of_mnemonic_eq r' hr' r hr (hmnemonic'.trans hmnemonic)
    rwa [decode_eq_ok_iff.mp hi] at h

/-- Settles O4: two rows that match a word have the mnemonic of the one command it decodes to. -/
theorem rowMatchIsDecoding : Obligations.RowMatchIsDecoding := by
  unfold Obligations.RowMatchIsDecoding
  refine fun w => ⟨fun r hr => match_iff_decode hr, fun r hr r' hr' h h' => ?_, fun i hi => ?_⟩
  · obtain ⟨i, hi, hmnemonic⟩ := (match_iff_decode hr).mp h
    obtain ⟨j, hj, hmnemonic'⟩ := (match_iff_decode hr').mp h'
    obtain rfl : i = j := Except.ok.inj (hi.symm.trans hj)
    exact row_eq_of_mnemonic_eq r hr r' hr' (hmnemonic.symm.trans hmnemonic')
  · obtain ⟨hop, ha, hb⟩ := readsAs_of_decode hi
    exact ⟨hop.symm, ha.symm, hb.symm⟩

/-! ### Illegal words -/

/-- A word that matches no row is the word of no command (R85). -/
theorem decode_ne_ok_of_no_match {w : Word} (h : ∀ r ∈ opTable, w &&& r.mask ≠ r.pattern) (i : Instr) :
    decode w ≠ .ok i := by
  intro hi
  obtain ⟨r, hr, -, hmatch⟩ := encode_matches_row i
  rw [decode_eq_ok_iff.mp hi] at hmatch
  exact h r hr hmatch

/-- Decoding is total: a word is one command or matches no row (R85). -/
theorem existsUnique_decode_or_no_match (w : Word) :
    (∃! i, decode w = .ok i) ∨ ∀ r ∈ opTable, w &&& r.mask ≠ r.pattern := by
  by_cases h : ∃ i, decode w = .ok i
  · obtain ⟨i, hi⟩ := h
    exact .inl ⟨i, hi, fun j hj => Except.ok.inj (hj.symm.trans hi)⟩
  · refine .inr fun r hr hmatch => h ?_
    obtain ⟨i, hi, -⟩ := (match_iff_decode hr).mp hmatch
    exact ⟨i, hi⟩

theorem acceptWord_of_no_decode {w : Word} (h : ∀ i, decode w ≠ .ok i) (s : Machine.State) :
    Machine.acceptWord w s = Machine.acceptIllegal w s := by
  unfold Machine.acceptWord
  split
  · exact absurd ‹_› (h _)
  · rfl

/-- Settles O5: the step takes the word off the queue and finds no command in it. -/
theorem illegalWordFaultsOrIsIgnored : Obligations.IllegalWordFaultsOrIsIgnored := by
  unfold Obligations.IllegalWordFaultsOrIsIgnored
  intro w s rest hhost
  refine ⟨existsUnique_decode_or_no_match w, fun hno => ?_⟩
  have hdec := decode_ne_ok_of_no_match hno
  have hstep : Machine.step s = Machine.acceptIllegal w { s with host := rest } := by
    simp only [Machine.step, Machine.nextInput, hhost, Machine.hostEvent, acceptWord_of_no_decode hdec]
  refine ⟨hdec, fun hp => ?_, fun hp => ?_⟩
  · rw [hstep, Machine.acceptIllegal, if_neg hp]
    rfl
  · rw [hstep, Machine.acceptIllegal, if_pos hp]

/-- Settles O1, each word by its fields. -/
theorem sampleWordsDecode : Obligations.SampleWordsDecode := by
  unfold Obligations.SampleWordsDecode
  exact ⟨rfl, rfl, rfl, rfl, rfl, rfl, rfl, rfl, rfl, rfl, rfl, rfl, rfl⟩

end Sys2Proof
end

section
namespace Sys2Proof.Machine

/-! ## The frequency table (40_frequency.md) -/

/-- A command has one word: the one the encoder gives (R83, R84). -/
theorem onlyWord_of_encode {i : Instr} {w : Word} (h : encode i = w) : OnlyWord i w := fun v => by
  rw [decode_eq_ok_iff, h, eq_comm]

theorem runCommands_nil (s : State) : runCommands [] s = .next s := rfl

theorem runCommands_cons_of_next {i : Instr} {is : List Instr} {s t : State} (h : exec i s = .next t) :
    runCommands (i :: is) s = runCommands is t :=
  runWords_cons_of_next ((acceptWord_of_decode (decodeOfEncode i) s).trans h)

/-! ### The words -/

/-- The word of FREQ_LOAD: the count, with the 16 bits above it zero (R102). -/
theorem encode_freqLoad (sym : Sym) (count : Count) :
    encode (.freqLoad sym count) = 0x11#8 ++ sym ++ 0#16 ++ count :=
  calc (0x11#8 ++ sym) ++ count.setWidth 48
      _ = (0x11#8 ++ sym) ++ (0#16 ++ count) :=
        congrArg (0x11#8 ++ sym ++ ·) (BitVec.setWidth_eq_append (by decide))
      _ = 0x11#8 ++ sym ++ 0#16 ++ count := BitVec.append_assoc'

theorem eq_freqLoad_of_op {i : Instr} (h : i.op = 0x11) : ∃ sym count, i = .freqLoad sym count := by
  cases i with
  | freqLoad sym count => exact ⟨sym, count, rfl⟩
  | _ => simp [Instr.op] at h

/-- A word of FREQ_LOAD's opcode whose count does not fit is no command (R102). -/
theorem decode_ne_ok_of_wide_count {w : Word} (hop : w.extractLsb' 56 8 = 0x11) (hcount : w.extractLsb' 32 16 ≠ 0)
    (i : Instr) : decode w ≠ .ok i := by
  intro hdec
  obtain ⟨hiop, -, hb⟩ := readsAs_of_decode hdec
  obtain ⟨sym, count, rfl⟩ := eq_freqLoad_of_op (hiop.symm.trans hop)
  apply hcount
  calc w.extractLsb' 32 16
      _ = (bField w).extractLsb' 32 16 := by rw [bField, BitVec.extractLsb'_extractLsb'_of_le (by decide)]
      _ = 0 := by rw [hb]; exact extractLsb'_above_setWidth count 48 16

/-- The fields of RD_FREQ's answer (R103). -/
theorem freqWord_fields (c : Count) : (freqWord c).extractLsb' 0 32 = c ∧ (freqWord c).extractLsb' 32 32 = 0 := by
  refine ⟨?_, extractLsb'_above_setWidth c 64 32⟩
  rw [freqWord, BitVec.zeroExtend, BitVec.extractLsb'_setWidth_of_le (by decide), BitVec.extractLsb'_eq_self]

/-! ### What the commands do in phase FREQ -/

/-- Below the maximum the count does not wrap (R101). -/
theorem toNat_count_add_one {c : Count} (h : c.toNat < 2 ^ 32 - 1) : (c + 1).toNat = c.toNat + 1 :=
  BitVec.toNat_add_of_lt (by simp; omega)

section InFreq
variable {s : State} (hp : s.phase = .freq)
include hp

theorem exec_freqSym_of_lt {sym : Sym} (h : (freqAt s.ft sym).toNat < 2 ^ 32 - 1) :
    exec (.freqSym sym) s = .next (s.setFreq sym (freqAt s.ft sym + 1)) := by
  have hne : freqAt s.ft sym ≠ BitVec.allOnes 32 := fun e => by simp [e] at h
  rw [exec, execFreqSym, inPhase_here hp nofun, if_neg hne]

theorem exec_freqSym_of_max {sym : Sym} (h : (freqAt s.ft sym).toNat = 2 ^ 32 - 1) :
    exec (.freqSym sym) s = .next (s.raise 0x10 sym .countOverflow 0 0) := by
  have hmax : freqAt s.ft sym = BitVec.allOnes 32 := BitVec.eq_of_toNat_eq h
  rw [exec, execFreqSym, inPhase_here hp nofun, if_pos hmax]

theorem exec_freqLoad (sym : Sym) (count : Count) : exec (.freqLoad sym count) s = .next (s.setFreq sym count) := by
  rw [exec, execFreqLoad, inPhase_here hp nofun]

end InFreq

/-! ### One command -/

/-- Settles O15: the answer is the count with zeros above it. -/
theorem rdFreqAnswersTheCount : Obligations.RdFreqAnswersTheCount := by
  unfold Obligations.RdFreqAnswersTheCount
  exact fun sym s => ⟨onlyWord_of_encode rfl, freqWord (freqAt s.ft sym), rfl, freqWord_fields _⟩

/-- Settles O16: below the maximum one entry is written, at the maximum none. -/
theorem freqSymCountsOne : Obligations.FreqSymCountsOne := by
  unfold Obligations.FreqSymCountsOne
  refine fun sym => ⟨onlyWord_of_encode rfl, fun s hp hlt => ?_, fun s hp hmax => exec_freqSym_of_max hp hmax,
    onlyIn_of_inPhase fun _ => rfl⟩
  refine ⟨_, exec_freqSym_of_lt hp hlt, ?_, fun y hy => freqAt_set_other s.ft _ hy⟩
  rw [freqAt_set_same, toNat_count_add_one hlt]

/-- Settles O17: one entry is written; a command of the opcode has zeros above its count. -/
theorem freqLoadSetsTheCount : Obligations.FreqLoadSetsTheCount := by
  unfold Obligations.FreqLoadSetsTheCount
  refine ⟨fun sym count => ⟨onlyWord_of_encode (encode_freqLoad sym count), fun s hp => ?_,
    onlyIn_of_inPhase fun _ => rfl⟩, fun w => decode_ne_ok_of_wide_count⟩
  exact ⟨_, exec_freqLoad hp sym count, freqAt_set_same s.ft sym count, fun y hy => freqAt_set_other s.ft count hy⟩

/-! ### Several commands -/

/-- One FREQ_SYM per symbol of a text adds the number of occurrences to every entry, where none passes its maximum, and
changes nothing else (R100, R101). -/
theorem runCommands_freqSym (text : List Sym) {s : State} (hp : s.phase = .freq)
    (hfit : ∀ y, (freqAt s.ft y).toNat + text.count y < 2 ^ 32) :
    ∃ ft : Vector Count 256, runCommands (text.map .freqSym) s = .next { s with ft := ft } ∧
      ∀ y, (freqAt ft y).toNat = (freqAt s.ft y).toNat + text.count y := by
  induction text generalizing s with
  | nil => exact ⟨s.ft, rfl, fun _ => rfl⟩
  | cons sym text ih =>
    have hlt : (freqAt s.ft sym).toNat < 2 ^ 32 - 1 := by
      have := hfit sym
      rw [List.count_cons_self] at this
      omega
    have hcount (y : Sym) : (freqAt (s.setFreq sym (freqAt s.ft sym + 1)).ft y).toNat + text.count y =
        (freqAt s.ft y).toNat + (sym :: text).count y := by
      rw [setFreq_ft, freqAt_set]
      split
      case isTrue h =>
        rw [h, toNat_count_add_one hlt, List.count_cons_self]
        omega
      case isFalse h => rw [List.count_cons_of_ne (Ne.symm h)]
    obtain ⟨ft, hrun, hft⟩ := ih (s := s.setFreq sym (freqAt s.ft sym + 1)) hp fun y => hcount y ▸ hfit y
    refine ⟨ft, ?_, fun y => (hft y).trans (hcount y)⟩
    rw [List.map_cons, runCommands_cons_of_next (exec_freqSym_of_lt hp hlt)]
    exact hrun

/-- Settles O18: CLEAR leaves every entry zero, and the text adds its occurrences. -/
theorem countingATextGivesOccurrences : Obligations.CountingATextGivesOccurrences := by
  unfold Obligations.CountingATextGivesOccurrences
  intro s text hlen
  have hzero (y : Sym) : (freqAt s.cleared.ft y).toNat = 0 := congrArg BitVec.toNat (reset_freqAt y)
  have hfit (y : Sym) : (freqAt s.cleared.ft y).toNat + text.count y < 2 ^ 32 := by
    have := List.count_le_length (a := y) (l := text)
    rw [hzero]
    omega
  obtain ⟨ft, hrun, hft⟩ := runCommands_freqSym text (s := s.cleared) rfl hfit
  exact ⟨_, (runCommands_cons_of_next rfl).trans hrun, rfl, fun y => by simpa [hzero] using hft y⟩

/-- Writes to different entries commute (R104). -/
theorem setFreq_comm (s : State) {a b : Sym} (m n : Count) (h : a ≠ b) :
    (s.setFreq a m).setFreq b n = (s.setFreq b n).setFreq a m := by
  have hne : a.toNat ≠ b.toNat := fun e => h (BitVec.eq_of_toNat_eq e)
  simp only [State.setFreq, Vector.set_comm m n hne]

/-- Two FREQ_SYM of different symbols write the two entries, each from the count before. -/
theorem runCommands_freqSym_pair {a b : Sym} {s : State} (hp : s.phase = .freq) (hab : a ≠ b)
    (ha : (freqAt s.ft a).toNat < 2 ^ 32 - 1) (hb : (freqAt s.ft b).toNat < 2 ^ 32 - 1) :
    runCommands [.freqSym a, .freqSym b] s =
      .next ((s.setFreq a (freqAt s.ft a + 1)).setFreq b (freqAt s.ft b + 1)) := by
  have hread : freqAt (s.setFreq a (freqAt s.ft a + 1)).ft b = freqAt s.ft b := freqAt_set_other s.ft _ hab.symm
  rw [runCommands_cons_of_next (exec_freqSym_of_lt hp ha),
    runCommands_cons_of_next (exec_freqSym_of_lt (s := s.setFreq a _) hp (by rwa [hread])), hread, runCommands_nil]

theorem runCommands_freqLoad_pair {s : State} (hp : s.phase = .freq) (a b : Sym) (m n : Count) :
    runCommands [.freqLoad a m, .freqLoad b n] s = .next ((s.setFreq a m).setFreq b n) := by
  rw [runCommands_cons_of_next (exec_freqLoad hp a m),
    runCommands_cons_of_next (exec_freqLoad (s := s.setFreq a m) hp b n), runCommands_nil]

/-- Settles O19: either order writes the same two entries. -/
theorem frequencyCommandsCommute : Obligations.FrequencyCommandsCommute := by
  unfold Obligations.FrequencyCommandsCommute
  intro a b m n s t hp hab
  constructor
  · intro ha hb
    rw [runCommands_freqSym_pair hp hab ha hb, runCommands_freqSym_pair hp hab.symm hb ha, setFreq_comm s _ _ hab]
  · rw [runCommands_freqLoad_pair hp, runCommands_freqLoad_pair hp, setFreq_comm s m n hab]

end Sys2Proof.Machine
end

section
namespace Sys2Proof.Machine

/-! ## The tree builder (41_tree_builder.md) -/

/-! ### The Canonical Order (rules R111, R112)

`before` compares ranks: one number per node, its count above its place among the nodes of that count. -/

/-- The place of a node among those of its count: leaves above groups, larger code points and earlier groups above. -/
def NRef.precedence : NRef → Nat
  | .leaf sym => 256 + sym.toNat
  | .group k => 255 - k.toNat

theorem NRef.precedence_lt (n : NRef) : n.precedence < 512 := by
  cases n <;> (simp only [NRef.precedence]; omega)

theorem NRef.precedence_injective : Function.Injective NRef.precedence := by
  intro x y h
  cases x <;> cases y <;>
    simp only [NRef.precedence, NRef.leaf.injEq, NRef.group.injEq, BitVec.toNat_eq, reduceCtorEq] at h ⊢ <;> omega

/-- The rank of a node in the Canonical Order, the first node highest. -/
def State.rank (s : State) (n : NRef) : Nat := 512 * (s.cnt n).toNat + n.precedence

theorem rank_injective (s : State) : Function.Injective s.rank := by
  intro x y h
  have := x.precedence_lt
  have := y.precedence_lt
  simp only [State.rank] at h
  exact NRef.precedence_injective (by omega)

theorem before_iff_rank (s : State) (x y : NRef) : s.before x y = true ↔ s.rank y < s.rank x := by
  rw [before_iff, BitVec.toNat_eq]
  cases x <;> cases y <;> simp only [State.rank, NRef.precedence, and_true, and_false, or_false] <;>
    omega

/-- Settles O20: the clauses are the comparator's, and the order is that of the ranks, which no two nodes share. -/
theorem canonicalOrderIsStrictTotal : Obligations.CanonicalOrderIsStrictTotal := by
  unfold Obligations.CanonicalOrderIsStrictTotal
  refine fun s => ⟨fun x y hne => ?_, fun x y heq => ⟨?_, ?_, ?_, ?_⟩, fun x => ?_, fun x y hne => ?_, fun x y z => ?_⟩
  · have hcnt : s.cnt x ≠ s.cnt y := fun e => hne (congrArg BitVec.toNat e)
    simp [before_iff, hcnt]
  · rintro a k rfl rfl
    simp [before_iff, heq]
  · rintro k a rfl rfl
    simp [← Bool.not_eq_true, before_iff, heq]
  · rintro a b rfl rfl
    simp [before_iff, heq]
  · rintro j k rfl rfl
    simp [before_iff, heq]
  · simp [← Bool.not_eq_true, before_iff_rank]
  · have hrank : s.rank x ≠ s.rank y := fun e => hne (rank_injective s e)
    rw [← Bool.not_eq_true, before_iff_rank, before_iff_rank]
    omega
  · simp only [before_iff_rank]
    omega

/-! ### Lists in the Canonical Order (rules R114, R118) -/

theorem inOrder_iff {s : State} {l : List NRef} :
    l.Pairwise (fun x y => s.before x y = true) ↔ (l.map s.rank).SortedGT := by
  simp only [List.sortedGT_iff_pairwise, List.pairwise_map, before_iff_rank, gt_iff_lt]

theorem inOrder_iff_sortedGE {s : State} {l : List NRef} (h : l.Nodup) :
    l.Pairwise (fun x y => s.before x y = true) ↔ (l.map s.rank).SortedGE := by
  rw [inOrder_iff, List.sortedGT_iff_nodup_and_sortedGE, List.nodup_map_iff (rank_injective s),
    and_iff_right h]

/-- Insertion keeps a list sorted by rank. -/
theorem insertInOrder_sortedGE {s : State} (x : NRef) {l : List NRef} (h : (l.map s.rank).SortedGE) :
    ((s.insertInOrder x l).map s.rank).SortedGE := by
  induction l with
  | nil => exact (List.pairwise_singleton _ _).sortedGE
  | cons y l ih =>
    simp only [List.sortedGE_iff_pairwise, List.pairwise_map, List.pairwise_cons] at h ih ⊢
    obtain ⟨hy, hl⟩ := h
    unfold State.insertInOrder
    split
    case isTrue hxy =>
      rw [before_iff_rank] at hxy
      simp only [List.pairwise_cons, List.mem_cons, forall_eq_or_imp]
      exact ⟨⟨hxy.le, fun n hn => (hy n hn).trans hxy.le⟩, hy, hl⟩
    case isFalse hxy =>
      rw [before_iff_rank, not_lt] at hxy
      simp only [List.pairwise_cons, (insertInOrder_perm s x l).mem_iff, List.mem_cons, forall_eq_or_imp]
      exact ⟨⟨hxy, hy⟩, ih hl⟩

theorem initialList_inOrder (s : State) : s.initialList.Pairwise (fun x y => s.before x y = true) := by
  rw [inOrder_iff_sortedGE (initialList_nodup s), State.initialList]
  induction (present s.ft).map NRef.leaf with
  | nil => exact List.Pairwise.nil.sortedGE
  | cons x l ih => exact insertInOrder_sortedGE x ih

theorem cnt_leaf_toNat (s : State) (a : Sym) : (s.cnt (.leaf a)).toNat = (freqAt s.ft a).toNat :=
  BitVec.toNat_setWidth_of_le (by decide)

/-- Two leaves in order: descending count, then descending code point (R114). -/
theorem freq_of_before {s : State} {a b : Sym} (h : s.before (.leaf a) (.leaf b) = true) :
    (freqAt s.ft a).toNat > (freqAt s.ft b).toNat ∨ (freqAt s.ft a = freqAt s.ft b ∧ a.toNat > b.toNat) := by
  simpa [before_iff, BitVec.toNat_eq, cnt_leaf_toNat] using h

/-- Settles O21: insertion by insertion the list is in order, and in phase FREQ the invariant leaves no tree. -/
theorem initialListIsTheSortedAlphabet : Obligations.InitialListIsTheSortedAlphabet := by
  unfold Obligations.InitialListIsTheSortedAlphabet
  refine fun s => ⟨fun hinv hp => ?_, rfl, fun a b hab => ?_, initialList_inOrder s, fun n => ?_, initialList_length s⟩
  · obtain ⟨hgt, hn, -⟩ := hinv.tables.no_tree (hinv.flags.in_freq hp)
    rw [hgt]
    exact ⟨reset_groupAt, hn⟩
  · have hpair := (initialList_inOrder s).sublist hab
    rw [List.pairwise_pair] at hpair
    exact freq_of_before hpair
  · simp only [mem_initialList, and_comm]

theorem cnt_le_of_before {s : State} {x y : NRef} (h : s.before x y = true) : (s.cnt y).toNat ≤ (s.cnt x).toNat := by
  rcases (before_iff s x y).mp h with hlt | ⟨heq, -⟩
  · exact hlt.le
  · rw [heq]

/-- A group comes before a node that is no later group only by its count (R118). -/
theorem newer_before_iff {s : State} {k : GroupNo} {n : NRef} (h : ∀ j, n = .group j → j.toNat < k.toNat) :
    s.before (.group k) n = true ↔ (s.cnt n).toNat < (s.cnt (.group k)).toNat := by
  rw [before_iff]
  cases n with
  | leaf a => simp
  | group j =>
    have := h j rfl
    simp only [or_iff_left_iff_imp, and_imp]
    omega

/-- Settles O23: the entries of a count at least the group's own are the ones at the front, and the group comes before
none of them. -/
theorem newGroupStandsAfterItsEquals : Obligations.NewGroupStandsAfterItsEquals := by
  unfold Obligations.NewGroupStandsAfterItsEquals
  intro s k l hl hk
  induction l with
  | nil => rfl
  | cons y l ih =>
    obtain ⟨hy, hl⟩ := List.pairwise_cons.mp hl
    have hnew := newer_before_iff (s := s) (n := y) fun j e => hk j (e ▸ List.mem_cons_self)
    by_cases hlt : (s.cnt y).toNat < (s.cnt (.group k)).toNat
    · have hzero : (y :: l).countP (fun n => decide ((s.cnt (.group k)).toNat ≤ (s.cnt n).toNat)) = 0 := by
        simp only [List.countP_eq_zero, List.mem_cons, decide_eq_true_eq, not_le, forall_eq_or_imp]
        exact ⟨hlt, fun n hn => (cnt_le_of_before (hy n hn)).trans_lt hlt⟩
      rw [hzero, State.insertInOrder, if_pos (hnew.mpr hlt)]
      rfl
    · rw [List.countP_cons_of_pos (by simpa using hlt), State.insertInOrder, if_neg (hnew.not.mpr hlt),
        ih hl fun j hj => hk j (List.mem_cons_of_mem _ hj)]
      rfl

/-! ### The merges (rules R117, R119) -/

theorem cnt_setGroup_of_ne (s : State) {k : GroupNo} (g : Group) {n : NRef} (h : n ≠ .group k) :
    (s.setGroup k g).cnt n = s.cnt n := by
  cases n with
  | leaf a => rfl
  | group j => simp only [State.cnt, setGroup_gt, groupAt_set_other s.gt g fun e => h (congrArg NRef.group e)]

/-- A list in order stays in order when a new group is written and inserted. -/
theorem insert_new_inOrder {s : State} {k : GroupNo} (g : Group) {l : List NRef} (hk : .group k ∉ l)
    (hl : l.Pairwise fun x y => s.before x y = true) :
    ((s.setGroup k g).insertInOrder (.group k) l).Pairwise fun x y => (s.setGroup k g).before x y = true := by
  rw [inOrder_iff] at hl
  have hranks : l.map (s.setGroup k g).rank = l.map s.rank := List.map_congr_left fun n hn => by
    rw [State.rank, State.rank, cnt_setGroup_of_ne s g fun e => hk (e ▸ hn)]
  have hnodup : ((s.setGroup k g).insertInOrder (.group k) l).Nodup :=
    (insertInOrder_perm _ _ _).nodup_iff.mpr (List.nodup_cons.mpr ⟨hk, hl.nodup.of_map⟩)
  rw [inOrder_iff_sortedGE hnodup]
  exact insertInOrder_sortedGE _ (hranks ▸ hl.sortedGE)

/-- Settles O22: the step writes one group, and its insertion keeps the rest of the list in order. -/
theorem mergeStepMergesTheLastTwo : Obligations.MergeStepMergesTheLastTwo := by
  unfold Obligations.MergeStepMergesTheLastTwo
  intro s l x y hpl _ hroom hsum hl hold
  have hnew : groupAt (s.gt.setIfInBounds s.ngroups.toNat ⟨s.cnt x + s.cnt y, x, y⟩) s.ngroups =
      ⟨s.cnt x + s.cnt y, x, y⟩ := groupAt_set_same s.gt _ hroom
  have hfresh : .group s.ngroups ∉ l := fun hmem => lt_irrefl _ (hold s.ngroups hmem)
  refine ⟨_, _, mergeStep_eq hpl, ?_, ?_, ?_, fun k hk => groupAt_set_other s.gt _ hk, insertInOrder_perm _ _ _, ?_⟩
  · rw [hnew, BitVec.toNat_add_of_lt hsum]
  · rw [hnew]
  · rw [hnew]
  · rw [mergeStep_eq hpl]
    exact insert_new_inOrder _ hfresh hl

/-- Settles O24, from the write of one group. -/
theorem finalMergeMakesTheRoot : Obligations.FinalMergeMakesTheRoot := by
  unfold Obligations.FinalMergeMakesTheRoot
  intro s x y hpl hroom
  exact ⟨_, finalMerge_eq hpl, groupAt_set_same s.gt _ hroom, fun k hk => groupAt_set_other s.gt _ hk⟩

/-! ### TB_BUILD (rules R113, R115, R116, R120, R122) -/

/-- Settles O25: the alphabet has size 0. -/
theorem tbBuildOnEmptyAlphabetFaults : Obligations.TbBuildOnEmptyAlphabetFaults := by
  unfold Obligations.TbBuildOnEmptyAlphabetFaults
  intro s hp hzero
  rw [exec, execTbBuild, inPhase_here hp nofun, if_pos (alphabetSize_eq_zero.mpr hzero), State.raise, hp]

theorem initialList_of_one {s : State} {sym : Sym} (h : ∀ y, freqAt s.ft y ≠ 0 ↔ y = sym) :
    s.initialList = [.leaf sym] := by
  rw [← List.perm_singleton, List.perm_ext_iff_of_nodup (initialList_nodup s) (List.nodup_singleton _)]
  simp only [mem_initialList, h, exists_eq_left, List.mem_singleton, implies_true]

/-- Settles O26: the initial list is the one leaf. -/
theorem tbBuildOnOneSymbol : Obligations.TbBuildOnOneSymbol := by
  unfold Obligations.TbBuildOnOneSymbol
  intro s sym hp hone
  have hlist := initialList_of_one hone
  have hsize : alphabetSize s.ft = 1 := by rw [← initialList_length, hlist, List.length_singleton]
  rw [exec_tbBuild hp (by rw [hsize]; decide), hsize, buildTree_one hlist]

/-- How far TB_BUILD has come from `s`: each group took an entry off the list, and the table is untouched above them. -/
structure Grown (s m : State) : Prop where
  frequencies : m.ft = s.ft
  size : m.ngroups.toNat + m.pl.length = alphabetSize s.ft
  untouched : ∀ k : GroupNo, m.ngroups.toNat ≤ k.toNat → groupAt m.gt k = groupAt s.gt k

theorem grown_startTree (s : State) : Grown s s.startTree :=
  ⟨rfl, by simp [initialList_length], fun _ _ => rfl⟩

/-- A merge takes two entries off the list and puts their group on it. -/
theorem Grown.merge {s m t : State} {l : List NRef} {c : GCount} {x y : NRef} (g : Grown s m)
    (mg : Merged m t l c x y) : Grown s t := by
  have hbefore := congrArg List.length mg.list_before
  have hafter := mg.list_after.length_eq
  have hsize := g.size
  have hle := alphabetSize_le s.ft
  simp only [List.length_append, List.length_cons, List.length_nil] at hbefore hafter
  have hn : t.ngroups.toNat = m.ngroups.toNat + 1 := by
    rw [mg.number]
    exact BitVec.toNat_add_of_lt (by simp; omega)
  refine ⟨mg.frequencies.trans g.frequencies, by omega, fun k hk => ?_⟩
  have hk' : k ≠ m.ngroups := by rintro rfl; omega
  rw [mg.groupAt_old hk', g.untouched k (by omega)]

theorem Grown.mergeStep {s m : State} (g : Grown s m) (h : 2 < m.pl.length) : Grown s m.mergeStep := by
  obtain ⟨l, x, y, -, hl⟩ := exists_last_two h
  exact g.merge (merged_mergeStep hl)

theorem ofNat_alphabetSize_toNat (ft : Vector Count 256) :
    (BitVec.ofNat 9 (alphabetSize ft)).toNat = alphabetSize ft := by
  have := alphabetSize_le ft
  rw [BitVec.toNat_ofNat, Nat.mod_eq_of_lt (by omega)]

/-- `t` has a tree of `s`'s alphabet: its root alone in the list, which is the last group where there is one. -/
structure Rooted (s t : State) : Prop extends Grown s t where
  root_valid : t.root.valid = true
  list_root : t.pl = [t.root.ref]
  root_last : 2 ≤ alphabetSize s.ft → t.root.ref = .group (t.ngroups - 1)

theorem rooted_buildTree {s : State} (hl : alphabetSize s.ft ≠ 0) : Rooted s (s.buildTree (alphabetSize s.ft)) := by
  by_cases h1 : alphabetSize s.ft = 1
  · obtain ⟨x, hx⟩ := List.length_eq_one_iff.mp ((initialList_length s).trans h1)
    rw [h1, buildTree_one hx]
    exact ⟨⟨rfl, h1.symm, fun _ _ => rfl⟩, rfl, rfl, fun h2 => by omega⟩
  · obtain ⟨m, x, y, g, hxy, hb⟩ := buildTree_many (by omega) (grown_startTree s) fun _ => Grown.mergeStep
    obtain ⟨-, hsize, hgt⟩ := g.merge (merged_finalMerge hxy)
    rw [finalMerge_eq hxy] at hsize hgt
    rw [hb, finalMerge_eq hxy]
    exact ⟨⟨g.frequencies, hsize, hgt⟩, rfl, rfl, fun _ => by simp⟩

/-- Settles O27: every merge takes one entry off the list, down to the root. -/
theorem tbBuildCompletes : Obligations.TbBuildCompletes := by
  unfold Obligations.TbBuildCompletes
  refine ⟨fun s hp ⟨y, hy⟩ => ?_, onlyIn_of_inPhase fun _ => rfl, onlyWord_of_encode rfl⟩
  have hl : alphabetSize s.ft ≠ 0 := fun h => hy (alphabetSize_eq_zero.mp h y)
  obtain ⟨gt, n, pl, root, hframe⟩ := buildTree_frame s (alphabetSize s.ft)
  have r := rooted_buildTree hl
  rw [hframe] at r
  refine ⟨_, (exec_tbBuild hp hl).trans (congrArg _ hframe), rfl, ofNat_alphabetSize_toNat s.ft, ?_, r.root_valid,
    r.list_root, r.root_last, r.untouched⟩
  have hsize := r.size
  rw [r.list_root] at hsize
  exact hsize

/-! ### TB_BUILD draws on `FT` alone (rule R124) -/

/-- Two states in which the tree builder finds the same to work on, whatever else they hold. -/
structure SameForest (s t : State) : Prop where
  frequencies : s.ft = t.ft
  table : s.gt = t.gt
  number : s.ngroups = t.ngroups
  list : s.pl = t.pl

theorem cnt_congr {s t : State} (hft : s.ft = t.ft) (hgt : s.gt = t.gt) : s.cnt = t.cnt := by
  funext n
  cases n with
  | leaf a => rw [State.cnt, State.cnt, hft]
  | group k => rw [State.cnt, State.cnt, hgt]

/-- The order looks at the counts only. -/
theorem insertInOrder_congr {s t : State} (h : s.cnt = t.cnt) : s.insertInOrder = t.insertInOrder := by
  have hbefore : s.before = t.before := by
    funext x y
    rw [Bool.eq_iff_iff, before_iff, before_iff, h]
  funext x l
  induction l with
  | nil => rfl
  | cons y l ih => rw [State.insertInOrder, State.insertInOrder, ih, hbefore]

theorem initialList_congr {s t : State} (hft : s.ft = t.ft) (hgt : s.gt = t.gt) : s.initialList = t.initialList := by
  rw [State.initialList, State.initialList, insertInOrder_congr (cnt_congr hft hgt), hft]

theorem SameForest.mergeStep {s t : State} (h : SameForest s t) (hlen : 2 < s.pl.length) :
    SameForest s.mergeStep t.mergeStep := by
  obtain ⟨l, x, y, -, hl⟩ := exists_last_two hlen
  rw [mergeStep_eq hl, mergeStep_eq (h.list ▸ hl), ← h.number, ← cnt_congr h.frequencies h.table]
  have hgt (g : Group) : (s.setGroup s.ngroups g).gt = (t.setGroup s.ngroups g).gt := by
    rw [setGroup_gt, setGroup_gt, h.table]
  have hcnt (g : Group) : (s.setGroup s.ngroups g).cnt = (t.setGroup s.ngroups g).cnt :=
    cnt_congr h.frequencies (hgt g)
  exact ⟨h.frequencies, hgt _, rfl, congrFun₂ (insertInOrder_congr (hcnt _)) _ _⟩

theorem SameForest.mergeWhile {s t : State} (h : SameForest s t) (fuel : Nat) :
    SameForest (mergeWhile fuel s) (mergeWhile fuel t) := by
  induction fuel generalizing s t with
  | zero => exact h
  | succ n ih =>
    rw [Machine.mergeWhile, Machine.mergeWhile, ← h.list]
    split
    · exact ih (h.mergeStep ‹_›)
    · exact h

theorem SameForest.finalMerge {s t : State} (h : SameForest s t) (hlen : s.pl.length = 2) :
    SameForest s.finalMerge t.finalMerge ∧ s.finalMerge.root = t.finalMerge.root := by
  obtain ⟨x, y, hxy⟩ := List.length_eq_two.mp hlen
  rw [finalMerge_eq hxy, finalMerge_eq (h.list ▸ hxy), ← h.number, ← h.table]
  exact ⟨⟨h.frequencies, rfl, rfl, rfl⟩, rfl⟩

/-- The loop leaves two entries of a list of two or more (R113). -/
theorem mergeWhile_startTree_length {s : State} (h : 2 ≤ alphabetSize s.ft) :
    (mergeWhile s.startTree.pl.length s.startTree).pl.length = 2 := by
  obtain ⟨-, hlen⟩ := mergeWhile_induction (P := fun _ => True) (fun _ _ _ => trivial) s.startTree.pl.length s.startTree
    (Nat.le_add_right _ 2) trivial
  rw [hlen, startTree_pl, initialList_length, Nat.min_eq_right h]

/-- The tree builder leaves the same from the same frequencies and the same group table. -/
theorem buildTree_congr {s t : State} (hft : s.ft = t.ft) (hgt : s.gt = t.gt) (hl : alphabetSize s.ft ≠ 0) :
    SameForest (s.buildTree (alphabetSize s.ft)) (t.buildTree (alphabetSize s.ft)) ∧
      (s.buildTree (alphabetSize s.ft)).root = (t.buildTree (alphabetSize s.ft)).root := by
  have hlist := initialList_congr hft hgt
  by_cases h1 : alphabetSize s.ft = 1
  · obtain ⟨x, hx⟩ := List.length_eq_one_iff.mp ((initialList_length s).trans h1)
    rw [h1, buildTree_one hx, buildTree_one (hlist ▸ hx)]
    exact ⟨⟨hft, hgt, rfl, rfl⟩, rfl⟩
  · have hstart : SameForest s.startTree t.startTree := ⟨hft, hgt, rfl, hlist⟩
    obtain ⟨f, hroot⟩ := (hstart.mergeWhile _).finalMerge (mergeWhile_startTree_length (by omega))
    simp only [State.buildTree, State.growTree, if_neg h1, ← hstart.list]
    exact ⟨⟨f.frequencies, f.table, f.number, f.list⟩, hroot⟩

/-- Settles O29: both states start from the same list, and every merge of the one is a merge of the other. -/
theorem treeIsAFunctionOfFrequencies : Obligations.TreeIsAFunctionOfFrequencies := by
  unfold Obligations.TreeIsAFunctionOfFrequencies
  rintro s s' t t' hp hp' hgt hgt' hft ⟨y, hy⟩ ht ht'
  have hl : alphabetSize s.ft ≠ 0 := fun h => hy (alphabetSize_eq_zero.mp h y)
  rw [exec_tbBuild hp hl] at ht
  rw [exec_tbBuild hp' (hft ▸ hl), ← hft] at ht'
  cases ht
  cases ht'
  obtain ⟨f, hroot⟩ := buildTree_congr hft (hgt.trans hgt'.symm) hl
  exact ⟨f.table, f.number, rfl, hroot, f.list, rfl, rfl⟩

/-! ### RD_GROUP (rule R123) -/

/-- The fields of the answer for a group in use. -/
theorem groupWord_fields (g : Group) :
    (groupWord g).getLsbD 63 = true ∧ (groupWord g).extractLsb' 58 5 = 0 ∧
    (groupWord g).extractLsb' 49 9 = g.c1.bits ∧ (groupWord g).extractLsb' 40 9 = g.c0.bits ∧
    (groupWord g).extractLsb' 0 40 = g.count := by
  refine ⟨?_, ?_, ?_, ?_, ?_⟩ <;>
    simp (disch := decide) only [groupWord, BitVec.getLsbD_append, BitVec.extractLsb'_append_eq_of_add_le,
      BitVec.extractLsb'_append_eq_of_le, BitVec.extractLsb'_eq_self, Nat.reduceSub] <;> simp

/-- Settles O30, from the fields of the answer. -/
theorem rdGroupAnswersTheGroup : Obligations.RdGroupAnswersTheGroup := by
  unfold Obligations.RdGroupAnswersTheGroup
  refine ⟨leaf_bits_toNat, group_bits_toNat, fun k s => ⟨onlyWord_of_encode rfl, ?_⟩⟩
  by_cases hk : k.toNat < s.ngroups.toNat
  · exact ⟨groupWord (groupAt s.gt k), if_pos hk, fun _ => groupWord_fields _, fun hge => absurd hk hge.not_gt⟩
  · exact ⟨0, if_neg hk, fun hlt => absurd hlt hk, fun _ => rfl⟩

end Sys2Proof.Machine
end

section
namespace Sys2Proof.Machine

/-! ## Reading codes (42_code_assigner.md rules R135 to R137)

RD_CODE's answers and the code register are one form: a bit string left-justified in a word. -/

/-! ### A bit string in a word -/

theorem bitsToNat_append_singleton (x : BitString) (b : Bool) : bitsToNat (x ++ [b]) = Nat.bit b (bitsToNat x) := by
  simp [bitsToNat, Nat.bit_val]

/-- The first bit of a string is the most significant of its number (R63). -/
theorem bitsToNat_testBit {x : BitString} {i : Nat} (hi : i < x.length) :
    (bitsToNat x).testBit i = x[x.length - 1 - i] := by
  induction x using List.reverseRecOn generalizing i with
  | nil => cases hi
  | append_singleton x b ih =>
    rw [bitsToNat_append_singleton]
    cases i with
    | zero => simp
    | succ i =>
      have hi : i < x.length := by simpa using hi
      rw [Nat.testBit_bit_succ, ih hi]
      simp only [List.length_append, List.length_singleton, Nat.add_sub_cancel]
      rw [List.getElem_append_left (by omega)]
      congr 1
      omega

/-- The bits of a string, and zeros after the last. -/
theorem padTo_getElem? {n : Nat} (x : BitString) {j : Nat} (hj : j < n) : (padTo n x)[j]? = some (x[j]?.getD false) := by
  rw [padTo, List.getElem?_append]
  split
  · simp [*]
  · rw [List.getElem?_replicate_of_lt (by omega), List.getElem?_eq_none (by omega), Option.getD_none]

/-- A word of `n` bits that holds a bit string left-justified has bit `j` of it at bit `n - 1 - j`. -/
theorem leftJustified_getLsbD {n : Nat} {x : BitString} (hx : x.length ≤ n) {j : Nat} (hj : j < n) :
    (BitVec.ofNat n (bitsToNat (padTo n x))).getLsbD (n - 1 - j) = x[j]?.getD false := by
  have hlen := padTo_length hx
  have hbit := padTo_getElem? x hj
  rw [BitVec.getLsbD_ofNat, bitsToNat_testBit (by omega), decide_eq_true (by omega), Bool.true_and]
  rw [List.getElem?_eq_getElem (by omega)] at hbit
  rw [← Option.some.inj hbit]
  congr 1
  omega

theorem codeChunk_getLsbD (bits : BitString) (chunk : BitVec 2) {j : Nat} (hj : j < 64) :
    (codeChunk bits chunk).getLsbD (63 - j) = bits[64 * chunk.toNat + j]?.getD false := by
  rw [codeChunk, leftJustified_getLsbD (List.length_take_le _ _) hj, List.getElem?_take_of_lt hj, List.getElem?_drop]

theorem codeRegister_getLsbD {bits : BitString} (hlen : bits.length ≤ 256) {p : Nat} (hp : p < 256) :
    (codeRegister bits).getLsbD (255 - p) = bits[p]?.getD false := by
  rw [codeRegister, List.take_of_length_le hlen, leftJustified_getLsbD hlen hp]

/-- A chunk is a slice of the register (R137). -/
theorem codeChunk_eq_extractLsb' {bits : BitString} (hlen : bits.length ≤ 256) (chunk : BitVec 2) :
    codeChunk bits chunk = (codeRegister bits).extractLsb' (192 - 64 * chunk.toNat) 64 := by
  apply BitVec.eq_of_getLsbD_eq
  intro i hi
  have hchunk := chunk.isLt
  have hword := codeChunk_getLsbD bits chunk (show 63 - i < 64 by omega)
  have hreg := codeRegister_getLsbD hlen (show 64 * chunk.toNat + (63 - i) < 256 by omega)
  rw [show 63 - (63 - i) = i by omega] at hword
  rw [show 255 - (64 * chunk.toNat + (63 - i)) = 192 - 64 * chunk.toNat + i by omega] at hreg
  rw [BitVec.getLsbD_extractLsb', decide_eq_true hi, Bool.true_and, hword, hreg]

/-! ### The words -/

/-- The word of RD_CODE: the chunk number, with the 46 bits above it zero (R136). -/
theorem encode_rdCode (sym : Sym) (chunk : BitVec 2) :
    encode (.rdCode sym chunk) = 0x54#8 ++ sym ++ 0#46 ++ chunk :=
  calc (0x54#8 ++ sym) ++ chunk.setWidth 48
      _ = (0x54#8 ++ sym) ++ (0#46 ++ chunk) :=
        congrArg (0x54#8 ++ sym ++ ·) (BitVec.setWidth_eq_append (by decide))
      _ = 0x54#8 ++ sym ++ 0#46 ++ chunk := BitVec.append_assoc'

theorem eq_rdCode_of_op {i : Instr} (h : i.op = 0x54) : ∃ sym chunk, i = .rdCode sym chunk := by
  cases i with
  | rdCode sym chunk => exact ⟨sym, chunk, rfl⟩
  | _ => simp [Instr.op] at h

/-- A word of RD_CODE's opcode whose chunk number does not fit is no command (R136). -/
theorem decode_ne_ok_of_wide_chunk {w : Word} (hop : w.extractLsb' 56 8 = 0x54) (hchunk : w.extractLsb' 2 46 ≠ 0)
    (i : Instr) : decode w ≠ .ok i := by
  intro hdec
  obtain ⟨hiop, -, hb⟩ := readsAs_of_decode hdec
  obtain ⟨sym, chunk, rfl⟩ := eq_rdCode_of_op (hiop.symm.trans hop)
  apply hchunk
  calc w.extractLsb' 2 46
      _ = (bField w).extractLsb' 2 46 := by rw [bField, BitVec.extractLsb'_extractLsb'_of_le (by decide)]
      _ = 0 := by rw [hb]; exact extractLsb'_above_setWidth chunk 48 46

/-- The fields of RD_CLEN's answer (R135). -/
theorem clenWord_fields (e : CodeEntry) :
    (clenWord e).getLsbD 63 = e.valid ∧ (clenWord e).extractLsb' 8 55 = 0 ∧
    (clenWord e).extractLsb' 0 8 = BitVec.ofNat 8 e.len := by
  refine ⟨?_, ?_, ?_⟩ <;>
    simp (disch := decide) only [clenWord, BitVec.getLsbD_append, BitVec.extractLsb'_append_eq_of_add_le,
      BitVec.extractLsb'_append_eq_of_le, BitVec.extractLsb'_eq_self, Nat.reduceSub] <;> simp

/-! ### The commands -/

/-- Settles O33, from the fields of the answer. -/
theorem rdClenAnswersTheLength : Obligations.RdClenAnswersTheLength := by
  unfold Obligations.RdClenAnswersTheLength
  intro sym s hlen
  obtain ⟨hvalid, hzero, hlow⟩ := clenWord_fields (codeAt s.ct sym)
  refine ⟨onlyWord_of_encode rfl, clenWord (codeAt s.ct sym), rfl, hvalid, hzero, ?_, fun hnone => ?_⟩
  · rw [hlow, BitVec.toNat_ofNat, Nat.mod_eq_of_lt (by omega)]
  · rw [hnone]
    rfl

/-- Settles O34, from the bits of the chunk; a command of the opcode has zeros above its chunk number. -/
theorem rdCodeAnswersTheChunk : Obligations.RdCodeAnswersTheChunk := by
  unfold Obligations.RdCodeAnswersTheChunk
  refine ⟨fun sym chunk s => ⟨onlyWord_of_encode (encode_rdCode sym chunk), codeWord (codeAt s.ct sym) chunk, rfl,
    fun j => codeChunk_getLsbD _ chunk, fun hnone => ?_⟩, fun w => decode_ne_ok_of_wide_chunk⟩
  rw [hnone, codeWord, codeChunk, List.drop_nil, List.take_nil]
  rfl

/-- Settles O35: the register bit by bit, and a chunk as its slice. -/
theorem codeRegisterChunks : Obligations.CodeRegisterChunks := by
  unfold Obligations.CodeRegisterChunks
  rintro e hlen
  have hfits : e.bits.length ≤ 256 := Nat.le_succ_of_le hlen
  refine ⟨fun p => codeRegister_getLsbD hfits, ?_⟩
  rintro chunk sym s rfl
  rw [← codeChunk_eq_extractLsb' hfits]
  rfl

end Sys2Proof.Machine
end

section
namespace Sys2Proof.Machine

/-! ## The code generator (42_code_assigner.md rules R130 to R133)

In a tree the strings of branch bits from the root are the paths to its nodes: one string to each node, by the one parent
of a node, and at most one bit for each group. A code is the path of a leaf. -/

/-- The child of a group on a branch bit (R131). -/
def Group.child (g : Group) (b : Bool) : NRef := if b then g.c1 else g.c0

theorem follow_append_singleton {gt : Vector Group 255} {n m : NRef} {x : BitString} {b : Bool} :
    follow gt n (x ++ [b]) = some m ↔
      ∃ k g, follow gt n x = some (.group k) ∧ groupAt? gt k = some g ∧ g.child b = m := by
  rw [follow_append, Option.bind_eq_some_iff]
  constructor
  · rintro ⟨c, hc, hm⟩
    cases c with
    | leaf sym => cases hm
    | group k =>
      cases hg : groupAt? gt k with
      | none => simp [follow, hg] at hm
      | some g => exact ⟨k, g, hc, hg, by simpa [follow_group_cons hg, Group.child] using hm⟩
  · rintro ⟨k, g, hk, hg, rfl⟩
    exact ⟨.group k, hk, by simp [follow_group_cons hg, Group.child]⟩

/-- Below a leaf there is nothing. -/
theorem follow_leaf_eq_some {gt : Vector Group 255} {sym : Sym} {x : BitString} {m : NRef}
    (h : follow gt (.leaf sym) x = some m) : x = [] ∧ m = .leaf sym := by
  cases x with
  | nil => exact ⟨rfl, (Option.some.inj h).symm⟩
  | cons b x => cases h

theorem walkBound_group (k : GroupNo) : walkBound (.group k) = k.toNat + 1 := rfl

/-! ### Parents and children -/

theorem mem_treeChildren {s : State} {n : NRef} : n ∈ treeChildren s ↔
    ∃ (k : GroupNo) (b : Bool), k.toNat < s.ngroups.toNat ∧ (groupAt s.gt k).child b = n := by
  simp only [treeChildren, List.mem_flatMap, List.mem_range, List.mem_cons, List.not_mem_nil, or_false]
  constructor
  · rintro ⟨i, hi, hn⟩
    have hk : (BitVec.ofNat 8 i).toNat < s.ngroups.toNat := by
      rwa [BitVec.toNat_ofNat, Nat.mod_eq_of_lt (hi.trans s.ngroups.isLt)]
    rcases hn with rfl | rfl
    · exact ⟨.ofNat 8 i, false, hk, rfl⟩
    · exact ⟨.ofNat 8 i, true, hk, rfl⟩
  · rintro ⟨k, b, hk, rfl⟩
    refine ⟨k.toNat, hk, ?_⟩
    cases b <;> simp [Group.child]

section Tree
variable {s : State} (h : TreeShape s)
include h

/-- A group in use is there to read. -/
theorem TreeShape.groupAt?_eq {k : GroupNo} (hk : k.toNat < s.ngroups.toNat) :
    groupAt? s.gt k = some (groupAt s.gt k) :=
  Machine.groupAt?_eq s.gt (hk.trans_le h.ngroups_le)

theorem TreeShape.follow_group_cons {k : GroupNo} (hk : k.toNat < s.ngroups.toNat) (b : Bool) (x : BitString) :
    follow s.gt (.group k) (b :: x) = follow s.gt ((groupAt s.gt k).child b) x :=
  Machine.follow_group_cons (h.groupAt?_eq hk) b x

/-- A child of a group in use is a node, and the walk from it is shorter. -/
theorem TreeShape.child_node {k : GroupNo} (hk : k.toNat < s.ngroups.toNat) (b : Bool) :
    IsNode s ((groupAt s.gt k).child b) ∧ walkBound ((groupAt s.gt k).child b) ≤ k.toNat := by
  cases b with
  | false => exact h.child_bound hk (.inl rfl)
  | true => exact h.child_bound hk (.inr rfl)

theorem TreeShape.child_ne_root {k : GroupNo} (hk : k.toNat < s.ngroups.toNat) (b : Bool) :
    (groupAt s.gt k).child b ≠ s.root.ref :=
  ((h.child_iff _).mp (mem_treeChildren.mpr ⟨k, b, hk, rfl⟩)).2

/-- A node but the root has a parent. -/
theorem TreeShape.exists_parent {n : NRef} (hn : IsNode s n) (hr : n ≠ s.root.ref) :
    ∃ (k : GroupNo) (b : Bool), k.toNat < s.ngroups.toNat ∧ (groupAt s.gt k).child b = n :=
  mem_treeChildren.mp ((h.child_iff n).mpr ⟨hn, hr⟩)

/-- No node is the child of two groups or on two branches (R53). -/
theorem TreeShape.child_injective {k k' : GroupNo} {b b' : Bool} (hk : k.toNat < s.ngroups.toNat)
    (hk' : k'.toNat < s.ngroups.toNat) (he : (groupAt s.gt k).child b = (groupAt s.gt k').child b') :
    k = k' ∧ b = b' := by
  have hone := h.one_parent
  rw [treeChildren, List.nodup_flatMap] at hone
  obtain ⟨hpair, hdisjoint⟩ := hone
  have hmem (j : GroupNo) (c : Bool) : (groupAt s.gt j).child c ∈
      [(groupAt s.gt (BitVec.ofNat 8 j.toNat)).c0, (groupAt s.gt (BitVec.ofNat 8 j.toNat)).c1] := by
    cases c <;> simp [Group.child]
  obtain rfl : k = k' := by
    by_contra hne
    have : Std.Symm (Function.onFun List.Disjoint fun j : Nat =>
      [(groupAt s.gt (BitVec.ofNat 8 j)).c0, (groupAt s.gt (BitVec.ofNat 8 j)).c1]) := ⟨fun _ _ hd => hd.symm⟩
    exact hdisjoint.forall (List.mem_range.mpr hk) (List.mem_range.mpr hk') (fun e => hne (BitVec.eq_of_toNat_eq e))
      (hmem k b) (he ▸ hmem k' b')
  refine ⟨rfl, ?_⟩
  have hne : (groupAt s.gt k).c0 ≠ (groupAt s.gt k).c1 := by simpa using hpair k.toNat (List.mem_range.mpr hk)
  cases b <;> cases b'
  · rfl
  · exact absurd he hne
  · exact absurd he.symm hne
  · rfl

/-! ### Paths -/

theorem TreeShape.isNode_root : IsNode s s.root.ref := by
  cases hr : s.root.ref with
  | group k => exact h.root_isNode hr
  | leaf sym =>
    by_cases h2 : 2 ≤ alphabetSize s.ft
    · cases hr.symm.trans (h.root_group h2)
    · obtain ⟨y, hy, hry⟩ := h.root_single (by have := h.groups_eq; omega)
      exact hr.symm.trans hry ▸ hy

/-- A string of branch bits leads from a node to a node, at most as far down as the walk can go. -/
theorem TreeShape.follow_node {n m : NRef} {x : BitString} (hn : IsNode s n) (hx : follow s.gt n x = some m) :
    IsNode s m ∧ x.length + walkBound m ≤ walkBound n := by
  induction x generalizing n with
  | nil =>
    obtain rfl : n = m := by simpa using hx
    exact ⟨hn, by simp⟩
  | cons b x ih =>
    cases n with
    | leaf sym => cases hx
    | group k =>
      rw [h.follow_group_cons hn] at hx
      obtain ⟨hc, hle⟩ := h.child_node hn b
      obtain ⟨hm, hlen⟩ := ih hc hx
      refine ⟨hm, ?_⟩
      rw [List.length_cons, walkBound_group]
      omega

/-- The last step of a path from the root is from a group in use to its child. -/
theorem TreeShape.path_append_singleton {m : NRef} {x : BitString} {b : Bool} :
    follow s.gt s.root.ref (x ++ [b]) = some m ↔
      ∃ k : GroupNo, k.toNat < s.ngroups.toNat ∧ follow s.gt s.root.ref x = some (.group k) ∧
        (groupAt s.gt k).child b = m := by
  rw [follow_append_singleton]
  constructor
  · rintro ⟨k, g, hk, hg, rfl⟩
    have hlt : k.toNat < s.ngroups.toNat := (h.follow_node h.isNode_root hk).1
    rw [h.groupAt?_eq hlt, Option.some.injEq] at hg
    exact ⟨k, hlt, hk, hg ▸ rfl⟩
  · rintro ⟨k, hlt, hk, rfl⟩
    exact ⟨k, _, hk, h.groupAt?_eq hlt, rfl⟩

/-- No other string than its path leads from the root to a node. -/
theorem TreeShape.path_unique {n : NRef} {x y : BitString} (hx : follow s.gt s.root.ref x = some n)
    (hy : follow s.gt s.root.ref y = some n) : x = y := by
  induction x using List.reverseRecOn generalizing n y with
  | nil =>
    obtain rfl : s.root.ref = n := by simpa using hx
    cases y using List.reverseRecOn with
    | nil => rfl
    | append_singleton y b =>
      obtain ⟨k, hk, -, hc⟩ := h.path_append_singleton.mp hy
      exact absurd hc (h.child_ne_root hk b)
  | append_singleton x b ih =>
    obtain ⟨k, hk, hxk, rfl⟩ := h.path_append_singleton.mp hx
    cases y using List.reverseRecOn with
    | nil => exact absurd (Option.some.inj ((follow_nil _ _).symm.trans hy)).symm (h.child_ne_root hk b)
    | append_singleton y b' =>
      obtain ⟨k', hk', hyk', hc⟩ := h.path_append_singleton.mp hy
      obtain ⟨rfl, rfl⟩ := h.child_injective hk' hk hc
      rw [ih hxk hyk']

/-- A path leads from the root to every node: through its parent, which has a higher number than its group children. -/
theorem TreeShape.exists_path {n : NRef} (hn : IsNode s n) : ∃ x, follow s.gt s.root.ref x = some n := by
  induction hd : s.ngroups.toNat - walkBound n using Nat.strong_induction_on generalizing n with
  | _ d ih =>
    by_cases hr : n = s.root.ref
    · exact ⟨[], by rw [follow_nil, hr]⟩
    · obtain ⟨k, b, hk, hc⟩ := h.exists_parent hn hr
      have hle : walkBound n ≤ k.toNat := hc ▸ (h.child_node hk b).2
      obtain ⟨x, hx⟩ := ih _ (by rw [walkBound_group]; omega) (n := .group k) hk rfl
      exact ⟨x ++ [b], h.path_append_singleton.mpr ⟨k, hk, hx, hc⟩⟩

/-- From every node a path leads down to a leaf. -/
theorem TreeShape.exists_leaf_below {n : NRef} (hn : IsNode s n) :
    ∃ x sym, follow s.gt n x = some (.leaf sym) := by
  induction hd : walkBound n using Nat.strong_induction_on generalizing n with
  | _ d ih =>
    cases n with
    | leaf sym => exact ⟨[], sym, follow_nil _ _⟩
    | group k =>
      obtain ⟨hc, hle⟩ := h.child_node hn false
      obtain ⟨x, sym, hx⟩ := ih _ (hd ▸ Nat.lt_succ_of_le hle) hc rfl
      exact ⟨false :: x, sym, by rw [h.follow_group_cons hn, hx]⟩

/-- Every string leads from a node to a group, or passes a leaf on its way. -/
theorem TreeShape.follow_total {n : NRef} (hn : IsNode s n) (x : BitString) :
    (∃ k, follow s.gt n x = some (.group k)) ∨ ∃ y sym, y <+: x ∧ follow s.gt n y = some (.leaf sym) := by
  induction x generalizing n with
  | nil =>
    cases n with
    | leaf sym => exact .inr ⟨[], sym, List.nil_prefix, rfl⟩
    | group k => exact .inl ⟨k, rfl⟩
  | cons b x ih =>
    cases n with
    | leaf sym => exact .inr ⟨[], sym, List.nil_prefix, rfl⟩
    | group k =>
      have hcons := h.follow_group_cons hn b
      rcases ih (h.child_node hn b).1 with ⟨j, hj⟩ | ⟨y, sym, hy, hleaf⟩
      · exact .inl ⟨j, by rw [hcons, hj]⟩
      · exact .inr ⟨b :: y, sym, List.cons_prefix_cons.mpr ⟨rfl, hy⟩, by rw [hcons, hleaf]⟩

/-- One symbol and its leaf for a root, or more and a group for a root (R116, R122). -/
theorem TreeShape.root_cases :
    (alphabetSize s.ft = 1 ∧ ∃ sym, s.root.ref = .leaf sym ∧ ∀ y, freqAt s.ft y ≠ 0 ↔ y = sym) ∨
    (2 ≤ alphabetSize s.ft ∧ ∃ k, s.root.ref = .group k) := by
  have hsize := h.groups_eq
  by_cases h2 : 2 ≤ alphabetSize s.ft
  · exact .inr ⟨h2, _, h.root_group h2⟩
  · have h1 : alphabetSize s.ft = 1 := by omega
    obtain ⟨sym, hsym, hr⟩ := h.root_single h1
    refine .inl ⟨h1, sym, hr, fun y => ⟨fun hy => ?_, fun e => e ▸ hsym⟩⟩
    by_contra hne
    obtain ⟨k, -, hk, -⟩ := h.exists_parent (n := .leaf y) hy (by simpa [hr] using hne)
    omega

end Tree

/-! ### The code table -/

/-- The table of a lone leaf (R132). -/
theorem codeAt_of_leaf {gt : Vector Group 255} {sym : Sym} {ct : Vector CodeEntry 256}
    (hct : codeTableOf gt (.leaf sym) = some ct) :
    codeAt ct sym = ⟨true, [false]⟩ ∧ ∀ y, y ≠ sym → codeAt ct y = ⟨false, []⟩ := by
  cases hct
  exact ⟨codeAt_setCode_same _ _ _, fun y hy => (codeAt_setCode_other _ _ hy).trans (reset_codeAt y)⟩

theorem valid_iff_of_leaf {gt : Vector Group 255} {sym y : Sym} {ct : Vector CodeEntry 256}
    (hct : codeTableOf gt (.leaf sym) = some ct) : (codeAt ct y).valid = true ↔ y = sym := by
  obtain ⟨hsym, hother⟩ := codeAt_of_leaf hct
  by_cases hy : y = sym
  · simp [hy, hsym]
  · simp [hy, hother y hy]

/-- An entry is empty or the path of its leaf (R130). -/
theorem codeAt_of_group {gt : Vector Group 255} {k : GroupNo} {ct : Vector CodeEntry 256}
    (hct : codeTableOf gt (.group k) = some ct) (sym : Sym) :
    codeAt ct sym = ⟨false, []⟩ ∨ ∃ x, follow gt (.group k) x = some (.leaf sym) ∧ codeAt ct sym = ⟨true, x⟩ := by
  rcases visit_sound hct sym with he | hx
  · exact .inl (he.trans (reset_codeAt sym))
  · exact .inr hx

section Table
variable {s : State} (h : TreeShape s) {k : GroupNo} (hk : s.root.ref = .group k) {ct : Vector CodeEntry 256}
  (hct : codeTableOf s.gt s.root.ref = some ct)
include h hk hct

/-- In a tree of groups a code is the path of its leaf, and every leaf's path is its code (R130, R131). -/
theorem TreeShape.codeAt_iff_path {sym : Sym} {x : BitString} :
    codeAt ct sym = ⟨true, x⟩ ↔ follow s.gt s.root.ref x = some (.leaf sym) := by
  have hentry := codeAt_of_group (hk ▸ hct) sym
  rw [← hk] at hentry
  constructor
  · intro he
    rcases hentry with hnone | ⟨y, hy, hcode⟩
    · simp [he] at hnone
    · obtain rfl : x = y := by simpa [he] using hcode
      exact hy
  · intro hx
    have hvalid : (codeAt ct sym).valid = true := by
      rw [hk] at hct hx
      exact visit_complete hct hx
    rcases hentry with hnone | ⟨y, hy, hcode⟩
    · simp [hnone] at hvalid
    · rw [hcode, h.path_unique hx hy]

theorem TreeShape.path_of_valid {sym : Sym} (hv : (codeAt ct sym).valid = true) :
    follow s.gt s.root.ref (codeAt ct sym).bits = some (.leaf sym) := by
  rw [← h.codeAt_iff_path hk hct, ← hv]

/-- Exactly the symbols with a count have a code (R133 (a)). -/
theorem TreeShape.valid_iff (sym : Sym) : (codeAt ct sym).valid = true ↔ freqAt s.ft sym ≠ 0 := by
  constructor
  · exact fun hv => (h.follow_node h.isNode_root (h.path_of_valid hk hct hv)).1
  · intro hf
    obtain ⟨x, hx⟩ := h.exists_path (n := .leaf sym) hf
    rw [(h.codeAt_iff_path hk hct).mpr hx]

/-- No path goes on below a leaf (R133 (b)). -/
theorem TreeShape.prefixFree : PrefixFree ct := by
  rintro a b ha hb ⟨x, hx⟩
  have hpath := h.path_of_valid hk hct hb
  rw [← hx, follow_append, h.path_of_valid hk hct ha, Option.bind_some] at hpath
  exact (NRef.leaf.inj (follow_leaf_eq_some hpath).2).symm

/-- A path passes one group or more, and each group once at most (R133 (c)). -/
theorem TreeShape.code_len {sym : Sym} (hv : (codeAt ct sym).valid = true) :
    1 ≤ (codeAt ct sym).len ∧ (codeAt ct sym).len + 1 ≤ alphabetSize s.ft := by
  have hpath := h.path_of_valid hk hct hv
  have hroot : k.toNat < s.ngroups.toNat := h.root_isNode hk
  have hsize := h.groups_eq
  have hlen := (h.follow_node h.isNode_root hpath).2
  rw [hk, walkBound_group] at hlen
  refine ⟨List.length_pos_iff.mpr fun hnil => ?_, ?_⟩
  · rw [hnil, follow_nil, hk] at hpath
    cases hpath
  · simp only [CodeEntry.len]
    omega

/-- A string that leads to a group is inside the code of a leaf below; every other string has passed a leaf
(R133 (d)). -/
theorem TreeShape.code_complete (x : BitString) :
    insideCode ct x = true ∨ ∃! sym, (codeAt ct sym).valid = true ∧ (codeAt ct sym).bits <+: x := by
  rcases h.follow_total h.isNode_root x with ⟨j, hj⟩ | ⟨y, sym, hy, hleaf⟩
  · left
    obtain ⟨y, sym, hy⟩ := h.exists_leaf_below (h.follow_node h.isNode_root hj).1
    have hcode : codeAt ct sym = ⟨true, x ++ y⟩ := by
      rw [h.codeAt_iff_path hk hct, follow_append, hj, Option.bind_some, hy]
    have hne : y ≠ [] := by
      rintro rfl
      cases hy
    rw [insideCode_iff]
    exact ⟨sym, by rw [hcode], by simp [hcode], by simpa [hcode, List.length_pos_iff] using hne⟩
  · right
    have hcode : codeAt ct sym = ⟨true, y⟩ := (h.codeAt_iff_path hk hct).mpr hleaf
    refine ⟨sym, by simpa [hcode] using hy, fun z ⟨hz, hzx⟩ => ?_⟩
    have hsym : (codeAt ct sym).valid = true := by rw [hcode]
    have hsx : (codeAt ct sym).bits <+: x := by rwa [hcode]
    rcases List.prefix_or_prefix_of_prefix hzx hsx with hp | hp
    · exact h.prefixFree hk hct z sym hz hsym hp
    · exact (h.prefixFree hk hct sym z hsym hz hp).symm

end Table

/-! ### CT_GEN -/

theorem exec_ctGen {s : State} {ct : Vector CodeEntry 256} (hp : s.phase = .tree)
    (hct : codeTableOf s.gt s.root.ref = some ct) :
    exec .ctGen s = .next { s with ct := ct, ctValid := true, phase := .ready } := by
  simp only [exec, execCtGen, inPhase_here hp nofun, hct]

/-- Settles O31: the walk of a tree ends, and an entry is the one path of its leaf. -/
theorem ctGenWritesThePaths : Obligations.CtGenWritesThePaths := by
  unfold Obligations.CtGenWritesThePaths
  refine ⟨fun s hp h => ?_, onlyIn_of_inPhase fun _ => rfl, onlyWord_of_encode rfl⟩
  obtain ⟨ct, hct⟩ := h.codeTableOf_completes
  refine ⟨ct, exec_ctGen hp hct, fun sym hr => codeAt_of_leaf (hr ▸ hct), fun k hk sym =>
    ⟨fun x => h.codeAt_iff_path hk hct, fun hv => ?_⟩⟩
  rcases codeAt_of_group (hk ▸ hct) sym with hnone | ⟨x, -, hx⟩
  · exact hnone
  · simp [hx] at hv

/-- Settles O32: for one symbol from its one code, for more from the paths of the leaves. -/
theorem codeTableIsACompletePrefixCode : Obligations.CodeTableIsACompletePrefixCode := by
  unfold Obligations.CodeTableIsACompletePrefixCode
  intro s hinv hv
  have h := hinv.tables.tree (hinv.flags.codes_need_tree hv)
  have hct := hinv.tables.codes hv
  have halpha := h.alpha_eq
  rcases h.root_cases with ⟨h1, sym, hr, hone⟩ | ⟨h2, k, hk⟩
  · rw [hr] at hct
    have hvalid (y : Sym) : (codeAt s.ct y).valid = true ↔ y = sym := valid_iff_of_leaf hct
    have hcode : codeAt s.ct sym = ⟨true, [false]⟩ := (codeAt_of_leaf hct).1
    refine ⟨fun y => (hvalid y).trans (hone y).symm, fun a b ha hb _ => ?_, fun y hy => ?_, fun _ => by omega,
      fun _ => ⟨?_, fun y hy => ?_⟩⟩
    · rw [(hvalid a).mp ha, (hvalid b).mp hb]
    · have hlen : (codeAt s.ct y).len = 1 := by rw [(hvalid y).mp hy, hcode]; rfl
      omega
    · rw [← Bool.not_eq_true, insideCode_iff]
      rintro ⟨y, hy, -, hlt⟩
      rw [(hvalid y).mp hy, hcode] at hlt
      simp at hlt
    · rw [(hvalid y).mp hy, hcode]
      decide
  · refine ⟨h.valid_iff hk hct, h.prefixFree hk hct, fun y hy => ?_, fun _ => h.code_complete hk hct, fun h1 => by omega⟩
    have hmax := hinv.code_len_le y
    obtain ⟨hpos, hlen⟩ := h.code_len hk hct hy
    omega

end Sys2Proof.Machine
end

section
namespace Sys2Proof.Machine

/-! ## The encoder (43_encoder.md) -/

/-! ### Packed bytes (20_memory.md rule R63, 43_encoder.md rule R139) -/

/-- Fewer than eight bits are packed as the one byte ENC_END writes, or none. -/
theorem packAll_of_short {x : BitString} (h : x.length < 8) : packAll x = if x.length > 0 then [pad8 x] else [] := by
  split
  case isTrue hpos =>
    rw [packAll_of_ne_nil (List.length_pos_iff.mp hpos), List.take_of_length_le h.le, List.drop_of_length_le h.le]
    rfl
  case isFalse hzero =>
    rw [List.eq_nil_of_length_eq_zero (by omega : x.length = 0)]
    rfl

/-- Packing the bits of a byte gives the byte back. -/
theorem pad8_bitsOfByte (b : Byte) : pad8 (bitsOfByte b) = b := by
  refine BitVec.eq_of_getLsbD_eq fun i hi => ?_
  have hj : 7 - i < 8 := by omega
  rw [show i = 7 - (7 - i) by omega, pad8_getLsbD (bitsOfByte_length b).le hj, bitsOfByte_getElem? b hj, Option.getD_some]

/-- Whole bytes in front are packed as themselves. -/
theorem packAll_flatMap_append (bs : List Byte) (x : BitString) :
    packAll (bs.flatMap bitsOfByte ++ x) = bs ++ packAll x := by
  induction bs with
  | nil => rfl
  | cons b bs ih =>
    have hlen := bitsOfByte_length b
    have hne : bitsOfByte b ++ (bs.flatMap bitsOfByte ++ x) ≠ [] := by simp [← List.length_eq_zero_iff, hlen]
    rw [List.flatMap_cons, List.append_assoc, packAll_of_ne_nil hne, List.take_left' hlen, List.drop_left' hlen,
      pad8_bitsOfByte, ih, List.cons_append]

/-! ### What a stretch of an encode session does -/

theorem payload_cons (ct : Vector CodeEntry 256) (sym : Sym) (text : List Sym) :
    payload ct (sym :: text) = (codeAt ct sym).bits ++ payload ct text := rfl

/-- `t` is `s` after the codes of `n` symbols, together the bits `x`, have been packed: every full byte is out, the counters
have moved on, and nothing else changed (R141, R143). -/
structure Packed (s t : State) (n : Nat) (x : BitString) : Prop where
  frame : t = { s with epend := t.epend, outb := t.outb, encSymcnt := t.encSymcnt, encBitlen := t.encBitlen }
  /-- the bytes written out and the bits left pending spell the old pending bits and `x` -/
  bytes : ∃ bs, t.outb = s.outb ++ bs ∧ s.epend ++ x = bs.flatMap bitsOfByte ++ t.epend
  short : t.epend.length < 8
  symcnt : t.encSymcnt.toNat = s.encSymcnt.toNat + n
  bitlen : t.encBitlen.toNat = s.encBitlen.toNat + x.length

theorem Packed.refl {s : State} (h : s.epend.length < 8) : Packed s s 0 [] :=
  ⟨rfl, ⟨[], by simp⟩, h, rfl, rfl⟩

theorem Packed.trans {s t u : State} {m n : Nat} {x y : BitString} (h : Packed s t m x) (h' : Packed t u n y) :
    Packed s u (m + n) (x ++ y) := by
  obtain ⟨bs, hout, hbits⟩ := h.bytes
  obtain ⟨bs', hout', hbits'⟩ := h'.bytes
  refine ⟨?_, ⟨bs ++ bs', ?_, ?_⟩, h'.short, ?_, ?_⟩
  · rw [h'.frame, h.frame]
  · rw [hout', hout, List.append_assoc]
  · rw [← List.append_assoc, hbits, List.append_assoc, hbits', ← List.append_assoc, List.flatMap_append]
  · rw [h'.symcnt, h.symcnt, Nat.add_assoc]
  · rw [h'.bitlen, h.bitlen, List.length_append, Nat.add_assoc]

/-- Neither counter wraps, and the loop keeps every bit (R141, R143). -/
theorem packed_packSymbol {s : State} {e : CodeEntry} (hshort : s.epend.length < 8)
    (hcnt : s.encSymcnt.toNat < 2 ^ 48 - 1) (hbits : s.encBitlen.toNat ≤ 255 * s.encSymcnt.toNat) (hlen : e.len ≤ 255) :
    Packed s (s.packSymbol e) 1 e.bits := by
  obtain ⟨hspell, hpend⟩ := packBits_spec e.bits s.epend hshort
  have hmod : (BitVec.ofNat 56 e.len).toNat = e.bits.length := Nat.mod_eq_of_lt (by omega)
  refine ⟨rfl, ⟨_, rfl, hspell⟩, hpend, ?_, ?_⟩
  · exact BitVec.toNat_add_of_lt (by simp; omega)
  · rw [CodeEntry.len] at hlen
    rw [packSymbol_encBitlen, BitVec.toNat_add_of_lt (by omega), hmod]

/-! ### The commands -/

theorem exec_encStart {s : State} (hp : s.phase = .ready) :
    exec .encStart s = .next { s with epend := [], encSymcnt := 0, encBitlen := 0, phase := .enc } := by
  rw [exec, execEncStart, inPhase_here hp nofun]

section InEnc
variable {s : State} (hp : s.phase = .enc)
include hp

theorem exec_encSym_of_no_code {sym : Sym} (hv : (codeAt s.ct sym).valid = false) :
    exec (.encSym sym) s = .next (s.raise 0x31 sym .missingCode 0 0) := by
  rw [exec, execEncSym, inPhase_here hp nofun, if_pos hv]

theorem exec_encSym_of_max {sym : Sym} (hv : (codeAt s.ct sym).valid = true) (hmax : s.encSymcnt.toNat = 2 ^ 48 - 1) :
    exec (.encSym sym) s = .next (s.raise 0x31 sym .countOverflow 0 0) := by
  have heq : s.encSymcnt = BitVec.allOnes 48 := BitVec.eq_of_toNat_eq hmax
  rw [exec, execEncSym, inPhase_here hp nofun, if_neg (by simp [hv]), if_pos heq]

theorem exec_encSym_of_lt {sym : Sym} (hv : (codeAt s.ct sym).valid = true) (hlt : s.encSymcnt.toNat < 2 ^ 48 - 1) :
    exec (.encSym sym) s = .next (s.packSymbol (codeAt s.ct sym)) := by
  have hne : s.encSymcnt ≠ BitVec.allOnes 48 := fun e => by simp [e] at hlt
  rw [exec, execEncSym, inPhase_here hp nofun, if_neg (by simp [hv]), if_neg hne]

/-- What ENC_END writes are the pending bits, packed (R142). -/
theorem exec_encEnd (hshort : s.epend.length < 8) :
    exec .encEnd s = .next { s with epend := [], outb := s.outb ++ packAll s.epend, phase := .ready } := by
  rw [exec, execEncEnd, inPhase_here hp nofun, packAll_of_short hshort]
  rfl

end InEnc

/-! ### One command -/

/-- Settles O37: one write of the three elements and the phase. -/
theorem encStartOpensASession : Obligations.EncStartOpensASession := by
  unfold Obligations.EncStartOpensASession
  exact ⟨fun s => exec_encStart, onlyIn_of_inPhase fun _ => rfl, onlyWord_of_encode rfl⟩

/-- Settles O38: the loop keeps every bit, and the two faults come before it. -/
theorem encSymAppendsTheCode : Obligations.EncSymAppendsTheCode := by
  unfold Obligations.EncSymAppendsTheCode
  refine fun sym => ⟨onlyWord_of_encode rfl, fun s hp hshort hv hcnt hbits hlen => ?_,
    fun s hp hv => exec_encSym_of_no_code hp hv, fun s hp hv hmax => exec_encSym_of_max hp hv hmax,
    onlyIn_of_inPhase fun _ => rfl⟩
  obtain ⟨hspell, hpend⟩ := packBits_spec (codeAt s.ct sym).bits s.epend hshort
  have hpacked := packed_packSymbol hshort hcnt hbits hlen
  exact ⟨_, _, _, _, exec_encSym_of_lt hp hv hcnt, hspell, hpend, (packBits_lengths _ _ hshort).1,
    packBits_length_le hshort hlen, hpacked.symcnt, hpacked.bitlen⟩

/-- Settles O39: no bit pending packs to no byte, fewer than eight to one padded byte. -/
theorem encEndPadsTheLastByte : Obligations.EncEndPadsTheLastByte := by
  unfold Obligations.EncEndPadsTheLastByte
  refine ⟨fun s hp hnil => ?_, fun s hp hne hshort => ⟨pad8 s.epend, ?_, bitsOfByte_pad8 hshort.le⟩,
    onlyIn_of_inPhase fun _ => rfl, onlyWord_of_encode rfl⟩
  · rw [exec_encEnd hp (by simp [hnil]), hnil, packAll_of_short (by decide), if_neg (by decide), List.append_nil, ← hnil]
  · rw [exec_encEnd hp hshort, packAll_of_short hshort, if_pos (List.length_pos_iff.mpr hne)]

/-! ### A session -/

theorem runCommands_append_of_next {is js : List Instr} {s t : State} (h : runCommands is s = .next t) :
    runCommands (is ++ js) s = runCommands js t := by
  rw [runCommands, List.map_append]
  exact runWords_append_of_next h

/-- One ENC_SYM per symbol of a text packs the codes one after the other (R141, R143). -/
theorem runCommands_encSym (text : List Sym) {s : State} (hp : s.phase = .enc) (hshort : s.epend.length < 8)
    (hcnt : s.encSymcnt.toNat + text.length < 2 ^ 48) (hbits : s.encBitlen.toNat ≤ 255 * s.encSymcnt.toNat)
    (hcodes : ∀ y ∈ text, (codeAt s.ct y).valid = true ∧ (codeAt s.ct y).len ≤ 255) :
    ∃ t, runCommands (text.map .encSym) s = .next t ∧ Packed s t text.length (payload s.ct text) := by
  induction text generalizing s with
  | nil => exact ⟨s, rfl, .refl hshort⟩
  | cons sym text ih =>
    rw [List.forall_mem_cons] at hcodes
    obtain ⟨⟨hv, hlen⟩, htext⟩ := hcodes
    rw [List.length_cons] at hcnt
    have hlt : s.encSymcnt.toNat < 2 ^ 48 - 1 := by omega
    have hpacked := packed_packSymbol hshort hlt hbits hlen
    have hsymcnt := hpacked.symcnt
    have hbitlen := hpacked.bitlen
    rw [CodeEntry.len] at hlen
    obtain ⟨t, hrun, ht⟩ := ih (s := s.packSymbol (codeAt s.ct sym)) hp hpacked.short (by omega) (by omega) htext
    refine ⟨t, ?_, ?_⟩
    · rw [List.map_cons, runCommands_cons_of_next (exec_encSym_of_lt hp hv hlt), hrun]
    · rw [payload_cons, List.length_cons, Nat.add_comm]
      exact hpacked.trans ht

/-- Settles O40: the session opens with nothing pending, packs the codes, and packs what is left pending. -/
theorem encodeSessionEmitsThePackedText : Obligations.EncodeSessionEmitsThePackedText := by
  unfold Obligations.EncodeSessionEmitsThePackedText
  intro s text hp htext hcodes
  obtain ⟨t, hrun, ht⟩ := runCommands_encSym text
    (s := { s with epend := [], encSymcnt := 0, encBitlen := 0, phase := .enc })
    rfl (by simp) (by simpa using htext) (by simp) hcodes
  obtain ⟨bs, hout, hspell⟩ := ht.bytes
  have hpack : bs ++ packAll t.epend = packAll (payload s.ct text) := by
    rw [← packAll_flatMap_append, ← hspell, List.nil_append]
  have hphase : t.phase = .enc := by rw [ht.frame]
  refine ⟨t.encSymcnt, t.encBitlen, ?_, by simpa using ht.symcnt, by simpa using ht.bitlen⟩
  rw [List.cons_append, runCommands_cons_of_next (exec_encStart hp), runCommands_append_of_next hrun,
    runCommands_cons_of_next (exec_encEnd hphase ht.short), runCommands_nil, hout, List.append_assoc, hpack, ht.frame,
    ← hp]

end Sys2Proof.Machine
end

section
namespace Sys2Proof.Machine

/-! ## The decoder (44_decoder.md)

The loop of DEC_BYTE takes bits while they are a partial match, and leaves a stretch of them in one of two ways: by the
bit that completes a code, or by the bit with which they begin no code. -/

/-! ### Codes and partial matches (rules R133, R138, R152) -/

section Matcher
variable {ct : Vector CodeEntry 256} {x y : BitString} {sym : Sym}

theorem insideCode_of_prefix (hy : insideCode ct y = true) (hxy : x <+: y) : insideCode ct x = true := by
  obtain ⟨z, hz, hyz, hlt⟩ := insideCode_iff.mp hy
  exact insideCode_iff.mpr ⟨z, hz, hxy.trans hyz, hxy.length_le.trans_lt hlt⟩

theorem PartialMatch.of_prefix (hy : PartialMatch ct y) (hxy : x <+: y) : PartialMatch ct x :=
  hy.imp (fun e : y = [] => List.prefix_nil.mp (e ▸ hxy)) fun hin => insideCode_of_prefix hin hxy

/-- The bits up to a code's end are a partial match (R152). -/
theorem partialMatch_of_code (hsym : (codeAt ct sym).valid = true) (hx : x <+: (codeAt ct sym).bits)
    (hlt : x.length < (codeAt ct sym).bits.length) : PartialMatch ct x :=
  .inr (insideCode_iff.mpr ⟨sym, hsym, hx, hlt⟩)

section PrefixFree
variable (hpf : PrefixFree ct)
include hpf

/-- Where no code begins another the inverse is exact (R138). -/
theorem PrefixFree.codeInverse_eq_some :
    codeInverse ct x = some sym ↔ (codeAt ct sym).valid = true ∧ (codeAt ct sym).bits = x := by
  refine ⟨codeInverse_some, fun ⟨hsym, hx⟩ => ?_⟩
  cases hz : codeInverse ct x with
  | none => exact absurd hx (codeInverse_none.mp hz sym hsym)
  | some z =>
    obtain ⟨hv, hzx⟩ := codeInverse_some hz
    rw [hpf z sym hv hsym (by rw [hzx, hx])]

variable (hne : CodesNonempty ct)
include hne

/-- No code ends within a partial match. -/
theorem PrefixFree.not_prefix_partialMatch (hx : PartialMatch ct x) (hsym : (codeAt ct sym).valid = true) :
    ¬ (codeAt ct sym).bits <+: x := by
  intro hp
  rcases hx with rfl | hx
  · exact hne sym hsym (List.prefix_nil.mp hp)
  · obtain ⟨z, hz, hxz, hlt⟩ := insideCode_iff.mp hx
    obtain rfl := hpf sym z hsym hz (hp.trans hxz)
    exact absurd hp.length_le (by omega)

theorem PrefixFree.codeInverse_of_insideCode (hx : insideCode ct x = true) : codeInverse ct x = none :=
  codeInverse_none.mpr fun _ hz e => hpf.not_prefix_partialMatch hne (.inr hx) hz (e ▸ List.prefix_rfl)

end PrefixFree
end Matcher

/-! ### The loop of DEC_BYTE (rules R151, R152) -/

/-- Bits kept as the partial match (the second branch of `match_step`, R152). -/
def State.keep (s : State) (x : BitString) : State := { s with dacc := x }

@[simp] theorem keep_ct (s : State) (x : BitString) : (s.keep x).ct = s.ct := rfl
@[simp] theorem keep_dacc (s : State) (x : BitString) : (s.keep x).dacc = x := rfl
@[simp] theorem keep_err (s : State) (x : BitString) : (s.keep x).err = s.err := rfl
@[simp] theorem keep_self (s : State) : s.keep s.dacc = s := rfl
@[simp] theorem keep_keep (s : State) (x y : BitString) : (s.keep x).keep y = s.keep y := rfl
@[simp] theorem emitDecoded_keep (s : State) (x : BitString) (sym : Sym) :
    (s.keep x).emitDecoded sym = s.emitDecoded sym := rfl

section Loop
variable {byte : Byte} {i : Nat} {is js : List Nat} {s : State}

theorem decodeBits_nil : decodeBits byte [] s = s := rfl

theorem decodeBits_of_done (hr : s.decRem = 0) : decodeBits byte is s = s := by
  cases is with
  | nil => rfl
  | cons i is => rw [decodeBits, if_pos hr]

theorem decodeBits_cons_match (hr : s.decRem ≠ 0) {sym : Sym}
    (h : codeInverse s.ct (s.dacc ++ [byte.getLsbD i]) = some sym) :
    decodeBits byte (i :: is) s = decodeBits byte is (s.emitDecoded sym) := by
  simp only [decodeBits, if_neg hr, h]
  rfl

theorem decodeBits_cons_inside (hr : s.decRem ≠ 0) (h : codeInverse s.ct (s.dacc ++ [byte.getLsbD i]) = none)
    (hin : insideCode s.ct (s.dacc ++ [byte.getLsbD i]) = true) :
    decodeBits byte (i :: is) s = decodeBits byte is (s.keep (s.dacc ++ [byte.getLsbD i])) := by
  simp only [decodeBits, if_neg hr, h, if_pos hin]
  rfl

theorem decodeBits_cons_missing (hr : s.decRem ≠ 0) (h : codeInverse s.ct (s.dacc ++ [byte.getLsbD i]) = none)
    (hin : insideCode s.ct (s.dacc ++ [byte.getLsbD i]) = false) :
    decodeBits byte (i :: is) s = (s.keep (s.dacc ++ [byte.getLsbD i])).raise 0x41 byte .missingCode
      (BitVec.ofNat 8 (s.dacc ++ [byte.getLsbD i]).length) (BitVec.ofNat 3 i) := by
  simp only [decodeBits, if_neg hr, h, hin]
  rfl

/-- Where every partial match and one more bit are a code or inside one, the loop raises nothing (R157). -/
theorem decodeBits_err_of_total (hx : PartialMatch s.ct s.dacc)
    (htotal : ∀ x b, PartialMatch s.ct x → codeInverse s.ct (x ++ [b]) ≠ none ∨ insideCode s.ct (x ++ [b]) = true) :
    (decodeBits byte is s).err = s.err := by
  induction is generalizing s with
  | nil => rfl
  | cons i is ih =>
    by_cases hr : s.decRem = 0
    · rw [decodeBits_of_done hr]
    · cases hc : codeInverse s.ct (s.dacc ++ [byte.getLsbD i]) with
      | some sym =>
        rw [decodeBits_cons_match hr hc, ih (s := s.emitDecoded sym) (.inl rfl) htotal, emitDecoded_err]
      | none =>
        have hin := (htotal s.dacc (byte.getLsbD i) hx).resolve_left (not_not_intro hc)
        rw [decodeBits_cons_inside hr hc hin, ih (s := s.keep (s.dacc ++ [byte.getLsbD i])) (.inr hin) htotal, keep_err]

section PrefixFree
variable (hpf : PrefixFree s.ct) (hne : CodesNonempty s.ct) (hr : s.decRem ≠ 0)
include hpf hne hr

/-- Bits that stay a partial match are kept. -/
theorem decodeBits_append_partial (hx : PartialMatch s.ct (s.dacc ++ is.map byte.getLsbD)) :
    decodeBits byte (is ++ js) s = decodeBits byte js (s.keep (s.dacc ++ is.map byte.getLsbD)) := by
  induction is generalizing s with
  | nil => simp
  | cons i is ih =>
    have hin : insideCode s.ct (s.dacc ++ [byte.getLsbD i]) = true :=
      insideCode_of_prefix (hx.resolve_left (by simp)) (by simp)
    rw [List.cons_append, decodeBits_cons_inside hr (hpf.codeInverse_of_insideCode hne hin) hin,
      ih (s := s.keep (s.dacc ++ [byte.getLsbD i])) hpf hne hr (by simpa using hx)]
    simp

/-- Bits up to the end of a code emit its symbol. -/
theorem decodeBits_append_match (hx : PartialMatch s.ct (s.dacc ++ is.map byte.getLsbD)) {sym : Sym}
    (h : codeInverse s.ct (s.dacc ++ (is ++ [i]).map byte.getLsbD) = some sym) :
    decodeBits byte (is ++ i :: js) s = decodeBits byte js (s.emitDecoded sym) := by
  rw [decodeBits_append_partial hpf hne hr hx, decodeBits_cons_match (s := s.keep (s.dacc ++ is.map byte.getLsbD)) hr
    (by simpa using h), emitDecoded_keep]

/-- Bits that begin no code end the loop in the fault MISSING_CODE at the last of them (R173). -/
theorem decodeBits_append_missing (hx : PartialMatch s.ct (s.dacc ++ is.map byte.getLsbD)) {bad : BitString}
    (hbad : s.dacc ++ (is ++ [i]).map byte.getLsbD = bad) (h : codeInverse s.ct bad = none)
    (hin : insideCode s.ct bad = false) :
    decodeBits byte (is ++ i :: js) s = (s.keep bad).raise 0x41 byte .missingCode
      (BitVec.ofNat 8 bad.length) (BitVec.ofNat 3 i) := by
  rw [List.map_append, ← List.append_assoc] at hbad
  subst hbad
  exact (decodeBits_append_partial hpf hne hr hx).trans
    (decodeBits_cons_missing (s := s.keep (s.dacc ++ is.map byte.getLsbD)) hr h hin)

end PrefixFree
end Loop

/-! ### Several symbols -/

theorem toNat_sub_ofNat {r : SCount} {n : Nat} (h : n ≤ r.toNat) : (r - BitVec.ofNat 48 n).toNat = r.toNat - n := by
  have := r.isLt
  have hn : (BitVec.ofNat 48 n).toNat = n := Nat.mod_eq_of_lt (by omega)
  rw [BitVec.toNat_sub_of_le (by simpa [BitVec.le_def, hn] using h), hn]

/-- Symbols decoded one after the other (R152). -/
def State.emitAll (s : State) (syms : List Sym) : State := syms.foldl State.emitDecoded s

theorem emitAll_cons (s : State) (sym : Sym) (syms : List Sym) :
    s.emitAll (sym :: syms) = (s.emitDecoded sym).emitAll syms := rfl

theorem emitAll_eq (s : State) (syms : List Sym) : s.emitAll syms = { s with
    outs := s.outs ++ syms
    dacc := if syms = [] then s.dacc else []
    decRem := s.decRem - BitVec.ofNat 48 syms.length
    decSymcnt := s.decSymcnt + BitVec.ofNat 48 syms.length } := by
  induction syms generalizing s with
  | nil => simp [State.emitAll]
  | cons sym syms ih =>
    have hone : BitVec.ofNat 48 (syms.length + 1) = 1 + BitVec.ofNat 48 syms.length := by
      rw [Nat.add_comm, BitVec.ofNat_add]
      rfl
    rw [emitAll_cons, ih, List.length_cons, hone]
    simp [State.emitDecoded, State.emitOuts, sub_sub, add_assoc]

theorem emitAll_ct (s : State) (syms : List Sym) : (s.emitAll syms).ct = s.ct := by rw [emitAll_eq]

theorem emitAll_decRem_toNat {s : State} {syms : List Sym} (h : syms.length ≤ s.decRem.toNat) :
    (s.emitAll syms).decRem.toNat = s.decRem.toNat - syms.length := by
  rw [emitAll_eq]
  exact toNat_sub_ofNat h

theorem emitAll_partialMatch {s : State} (hx : PartialMatch s.ct s.dacc) (syms : List Sym) :
    PartialMatch (s.emitAll syms).ct (s.emitAll syms).dacc := by
  rw [emitAll_eq]
  dsimp only
  split
  · exact hx
  · exact .inl rfl

theorem decRem_ne_zero {s : State} {n : Nat} (h : n < s.decRem.toNat) : s.decRem ≠ 0 := fun e => by simp [e] at h

/-- Where a string ends within the bits at some positions, the positions split there. -/
theorem exists_split_positions {f : Nat → Bool} {is : List Nat} {x y z : BitString}
    (h : x ++ is.map f = y ++ z) (hyx : ¬ y <+: x) :
    ∃ js ks, is = js ++ ks ∧ x ++ js.map f = y ∧ ks.map f = z := by
  rcases List.append_eq_append_iff.mp h with ⟨w, hw, hmap⟩ | ⟨w, hw, -⟩
  · obtain ⟨js, ks, his, hjs, hks⟩ := List.map_eq_append_iff.mp hmap
    exact ⟨js, ks, his, by rw [hjs, hw], hks⟩
  · exact absurd (hw ▸ List.prefix_append y w) hyx

/-- The loop emits the symbols whose codes the bits spell, and goes on with the bits after them. -/
theorem decodeBits_symbols {byte : Byte} {rest : BitString} (syms : List Sym) {is : List Nat} {s : State}
    (hpf : PrefixFree s.ct) (hne : CodesNonempty s.ct) (hx : PartialMatch s.ct s.dacc)
    (hcodes : ∀ y ∈ syms, (codeAt s.ct y).valid = true) (hdue : syms.length ≤ s.decRem.toNat)
    (hbits : s.dacc ++ is.map byte.getLsbD = payload s.ct syms ++ rest) :
    ∃ js, js <:+ is ∧ decodeBits byte is s = decodeBits byte js (s.emitAll syms) ∧
      (s.emitAll syms).dacc ++ js.map byte.getLsbD = rest := by
  induction syms generalizing is s with
  | nil => exact ⟨is, List.suffix_rfl, rfl, hbits⟩
  | cons sym syms ih =>
    rw [List.forall_mem_cons] at hcodes
    obtain ⟨hsym, hsyms⟩ := hcodes
    rw [List.length_cons] at hdue
    have hr : s.decRem ≠ 0 := decRem_ne_zero (n := 0) (by omega)
    have hlater := hpf.not_prefix_partialMatch hne hx hsym
    rw [payload_cons, List.append_assoc] at hbits
    obtain ⟨js, ks, rfl, hcode, hks⟩ := exists_split_positions hbits hlater
    have hrem : (s.emitDecoded sym).decRem.toNat = s.decRem.toNat - 1 := toNat_sub_ofNat (n := 1) (by omega)
    obtain ⟨ls, hls, hrun, hrest⟩ := ih (s := s.emitDecoded sym) hpf hne (.inl rfl) hsyms (by omega) hks
    refine ⟨ls, hls.trans (List.suffix_append js ks), ?_, hrest⟩
    cases js using List.reverseRecOn with
    | nil => exact absurd (by simp [← hcode]) hlater
    | append_singleton js i =>
      have hpart : PartialMatch s.ct (s.dacc ++ js.map byte.getLsbD) :=
        partialMatch_of_code hsym (by simp [← hcode]) (by simp [← hcode])
      rw [List.append_assoc, List.singleton_append,
        decodeBits_append_match hpf hne hr hpart (hpf.codeInverse_eq_some.mpr ⟨hsym, hcode.symm⟩), hrun]
      rfl

/-! ### The commands -/

theorem exec_decStart {s : State} (hp : s.phase = .ready) (n : SCount) :
    exec (.decStart n) s = .next { s with dacc := [], decRem := n, decSymcnt := 0, phase := .dec } := by
  rw [exec, execDecStart, inPhase_here hp nofun]

section InDec
variable {s : State} (hp : s.phase = .dec)
include hp

theorem exec_decByte (hr : s.decRem ≠ 0) (byte : Byte) :
    exec (.decByte byte) s = .next (decodeBits byte [7, 6, 5, 4, 3, 2, 1, 0] s) := by
  rw [exec, execDecByte, inPhase_here hp nofun, if_neg hr]

theorem exec_decByte_of_done (hr : s.decRem = 0) (byte : Byte) :
    exec (.decByte byte) s = .next (s.raise 0x41 byte .trailingData 0 0) := by
  rw [exec, execDecByte, inPhase_here hp nofun, if_pos hr]

theorem exec_decEnd_of_done (hr : s.decRem = 0) : exec .decEnd s = .next { s with phase := .ready } := by
  rw [exec, execDecEnd, inPhase_here hp nofun, if_pos hr]

theorem exec_decEnd_of_due (hr : s.decRem ≠ 0) :
    exec .decEnd s = .next (s.raise 0x42 0 .truncatedStream (BitVec.ofNat 8 s.dacc.length) 0) := by
  rw [exec, execDecEnd, inPhase_here hp nofun, if_neg hr]

end InDec

/-! ### One command -/

/-- Settles O41: one write of the three elements and the phase. -/
theorem decStartOpensASession : Obligations.DecStartOpensASession := by
  unfold Obligations.DecStartOpensASession
  exact fun n => ⟨onlyWord_of_encode rfl, fun _ hp => exec_decStart hp n, onlyIn_of_inPhase fun _ => rfl⟩

/-- Settles O45: the length of the partial match fits the record. -/
theorem decEndChecksTheCount : Obligations.DecEndChecksTheCount := by
  unfold Obligations.DecEndChecksTheCount
  refine ⟨fun s hp hr => exec_decEnd_of_done hp hr, fun s hp hr hlen =>
    ⟨BitVec.ofNat 8 s.dacc.length, Nat.mod_eq_of_lt (by omega), ?_⟩, onlyIn_of_inPhase fun _ => rfl,
    onlyWord_of_encode rfl⟩
  rw [exec_decEnd_of_due hp hr, State.raise, hp]

/-- Settles O42: after the symbols either none is due, or the rest stays a partial match. -/
theorem decByteEmitsTheMatchedSymbols : Obligations.DecByteEmitsTheMatchedSymbols := by
  unfold Obligations.DecByteEmitsTheMatchedSymbols
  intro byte s syms rest hp hr hpf hne hx hcodes hbits hdue
  have hle : syms.length ≤ s.decRem.toNat := hdue.elim Nat.le_of_eq fun h => h.1.le
  obtain ⟨js, -, hrun, hrest⟩ := decodeBits_symbols syms hpf hne hx hcodes hle hbits
  have hrem := emitAll_decRem_toNat hle
  rw [exec_decByte hp hr, hrun]
  rcases hdue with hall | ⟨hlt, hpart⟩
  · have hzero : (s.emitAll syms).decRem = 0 := BitVec.eq_of_toNat_eq (by simp [hrem, hall])
    have hsyms : syms ≠ [] := fun e => hr (BitVec.eq_of_toNat_eq (by simp [← hall, e]))
    rw [decodeBits_of_done hzero, emitAll_eq, if_pos hall, if_neg hsyms]
  · have hct := emitAll_ct s syms
    rw [← List.append_nil js, decodeBits_append_partial (hct ▸ hpf) (hct ▸ hne) (decRem_ne_zero (n := 0) (by omega))
      (by rwa [hrest, hct]), hrest, decodeBits_nil, emitAll_eq, if_neg hlt.ne]
    rfl

/-- A position in the order of the loop is the number of those after it. -/
theorem position_of_suffix {n i : Nat} {is : List Nat} (h : i :: is <:+ (List.range n).reverse) : i = is.length := by
  induction n with
  | zero => simp at h
  | succ n ih =>
    rw [List.range_succ, List.reverse_append, List.reverse_singleton, List.singleton_append, List.suffix_cons_iff] at h
    rcases h with h | h
    · obtain ⟨rfl, rfl⟩ := List.cons_eq_cons.mp h
      simp
    · exact ih h

/-- Settles O43: after the symbols the loop keeps all of the offending bits but the last, and raises at that. -/
theorem decByteMissingCodeKeepsEarlierSymbols : Obligations.DecByteMissingCodeKeepsEarlierSymbols := by
  unfold Obligations.DecByteMissingCodeKeepsEarlierSymbols
  intro byte s syms bad rest hp hlt hpf hne hx hcodes hbits hbad hinit hin hno
  rw [List.append_assoc] at hbits
  obtain ⟨js, hjs, hrun, hrest⟩ := decodeBits_symbols syms hpf hne hx hcodes hlt.le hbits
  have hrem := emitAll_decRem_toNat hlt.le
  have hct := emitAll_ct s syms
  have hlater : ¬ bad <+: (s.emitAll syms).dacc := fun h => by
    rcases (emitAll_partialMatch hx syms).of_prefix h with h | h
    · exact hbad h
    · rw [hct, hin] at h
      cases h
  obtain ⟨ks, ls, rfl, hks, hls⟩ := exists_split_positions hrest hlater
  cases ks using List.reverseRecOn with
  | nil => exact absurd (by simp [← hks]) hlater
  | append_singleton ks i =>
    have hpart : PartialMatch (s.emitAll syms).ct ((s.emitAll syms).dacc ++ ks.map byte.getLsbD) := by
      rw [hct]
      simpa [← hks, ← List.append_assoc] using hinit
    have hi : i = rest.length := by
      rw [← hls, List.length_map]
      refine position_of_suffix (n := 8) ((List.suffix_append ks _).trans ?_)
      rwa [List.append_assoc] at hjs
    rw [exec_decByte hp (decRem_ne_zero hlt), hrun, List.append_assoc, List.singleton_append,
      decodeBits_append_missing (hct ▸ hpf) (hct ▸ hne) (decRem_ne_zero (n := 0) (by omega)) hpart hks
        (by rw [hct]; exact codeInverse_none.mpr hno) (hct ▸ hin), emitAll_eq, hi]
    simp only [State.raise, State.keep, hp]

end Sys2Proof.Machine
end

section
namespace Sys2Proof.Machine

/-! ## The decoder and the tree (44_decoder.md rules R155 to R157) -/

/-! ### The matcher as a walk (rule R156) -/

section Walk
variable {s : State} (h : TreeShape s) {k : GroupNo} (hk : s.root.ref = .group k)
  (hct : codeTableOf s.gt s.root.ref = some s.ct)
include h hk hct

/-- A bit string is matched where it leads to a leaf. -/
theorem TreeShape.codeInverse_iff_path {x : BitString} {sym : Sym} :
    codeInverse s.ct x = some sym ↔ follow s.gt s.root.ref x = some (.leaf sym) := by
  rw [(h.prefixFree hk hct).codeInverse_eq_some, ← h.codeAt_iff_path hk hct]
  exact ⟨fun ⟨hv, hx⟩ => by rw [← hv, ← hx], fun he => by simp [he]⟩

/-- A bit string is inside a code where it leads to a group. -/
theorem TreeShape.insideCode_iff_path {x : BitString} :
    insideCode s.ct x = true ↔ ∃ j, follow s.gt s.root.ref x = some (.group j) := by
  rw [insideCode_iff]
  constructor
  · rintro ⟨sym, hv, ⟨y, hy⟩, hlt⟩
    have hpath := h.path_of_valid hk hct hv
    rw [← hy, follow_append, Option.bind_eq_some_iff] at hpath
    obtain ⟨n, hn, hbelow⟩ := hpath
    cases n with
    | group j => exact ⟨j, hn⟩
    | leaf z =>
      obtain ⟨rfl, -⟩ := follow_leaf_eq_some hbelow
      simp [← hy] at hlt
  · rintro ⟨j, hj⟩
    obtain ⟨y, sym, hy⟩ := h.exists_leaf_below (h.follow_node h.isNode_root hj).1
    have hcode : codeAt s.ct sym = ⟨true, x ++ y⟩ := by
      rw [h.codeAt_iff_path hk hct, follow_append, hj, Option.bind_some, hy]
    have hne : y ≠ [] := by
      rintro rfl
      cases hy
    exact ⟨sym, by rw [hcode], by simp [hcode], by simpa [hcode, List.length_pos_iff] using hne⟩

end Walk

/-- Settles O46: a code is the path of a leaf, and what is inside one the path of a group. -/
theorem greedyMatcherIsTheTreeWalk : Obligations.GreedyMatcherIsTheTreeWalk := by
  unfold Obligations.GreedyMatcherIsTheTreeWalk
  intro s hinv hv halpha
  have h := hinv.tables.tree (hinv.flags.codes_need_tree hv)
  have hct := hinv.tables.codes hv
  have hk := h.root_group (h.alpha_eq ▸ halpha)
  refine ⟨follow_nil _ _, fun n hn => ?_, fun x => ⟨fun sym => h.codeInverse_iff_path hk hct,
    h.insideCode_iff_path hk hct, fun b j hj => ?_⟩⟩
  · obtain ⟨x, hx⟩ := h.exists_path hn
    exact ⟨x, hx, fun y hy => h.path_unique hy hx⟩
  · exact h.path_append_singleton.mpr ⟨j, (h.follow_node h.isNode_root hj).1, hj, rfl⟩

/-! ### The code table under the invariant (rule R133) -/

section Invariant
variable {s : State} (h : s.Inv)
include h

theorem State.Inv.prefixFree (hv : s.ctValid = true) : PrefixFree s.ct := by
  obtain ⟨-, hpf, -⟩ := codeTableIsACompletePrefixCode s h hv
  exact hpf

theorem State.Inv.codesNonempty (hv : s.ctValid = true) : CodesNonempty s.ct := fun y hy hnil => by
  obtain ⟨-, -, hlen, -⟩ := codeTableIsACompletePrefixCode s h hv
  obtain ⟨hpos, -⟩ := hlen y hy
  simp [CodeEntry.len, hnil] at hpos

/-- In a complete code a partial match and one more bit are a code or inside one. -/
theorem State.Inv.match_total (hv : s.ctValid = true) (halpha : 2 ≤ s.alpha.toNat) {x : BitString} (b : Bool)
    (hx : PartialMatch s.ct x) : codeInverse s.ct (x ++ [b]) ≠ none ∨ insideCode s.ct (x ++ [b]) = true := by
  obtain ⟨-, -, -, hcomplete, -⟩ := codeTableIsACompletePrefixCode s h hv
  have hpf := h.prefixFree hv
  rcases hcomplete halpha (x ++ [b]) with hin | ⟨sym, ⟨hsym, hprefix⟩, -⟩
  · exact .inr hin
  · rcases List.prefix_concat_iff.mp hprefix with hcode | hcode
    · exact .inl (by simp [hpf.codeInverse_eq_some.mpr ⟨hsym, hcode⟩])
    · exact absurd hcode (hpf.not_prefix_partialMatch (h.codesNonempty hv) hx hsym)

/-- The code of the one symbol of an alphabet (R132). -/
theorem State.Inv.code_of_one (hv : s.ctValid = true) (halpha : s.alpha.toNat = 1) {sym : Sym}
    (hsym : (codeAt s.ct sym).valid = true) : (codeAt s.ct sym).bits = [false] := by
  obtain ⟨-, -, hlen, -, hone⟩ := codeTableIsACompletePrefixCode s h hv
  obtain ⟨-, -, -, hlen1⟩ := hlen sym hsym
  obtain ⟨b, hb⟩ := List.length_eq_one_iff.mp (hlen1 halpha)
  cases b with
  | false => exact hb
  | true =>
    obtain ⟨-, hno⟩ := hone halpha
    exact absurd (hb ▸ List.prefix_rfl) (hno sym hsym)

/-- With codes of one bit nothing is kept between bytes. -/
theorem State.Inv.partialMatch_of_one (hv : s.ctValid = true) (halpha : s.alpha.toNat = 1) {x : BitString}
    (hx : PartialMatch s.ct x) : x = [] := by
  rcases hx with hx | hx
  · exact hx
  · obtain ⟨sym, hsym, -, hlt⟩ := insideCode_iff.mp hx
    rw [h.code_of_one hv halpha hsym] at hlt
    exact List.length_eq_zero_iff.mp (by simpa using hlt)

theorem State.Inv.exists_code (hv : s.ctValid = true) : ∃ sym, (codeAt s.ct sym).valid = true := by
  obtain ⟨hvalid, -⟩ := codeTableIsACompletePrefixCode s h hv
  have hsize := (h.tables.tree (h.flags.codes_need_tree hv)).groups_eq
  by_contra hnone
  have hzero : alphabetSize s.ft = 0 := alphabetSize_eq_zero.mpr fun y => by
    by_contra hy
    exact hnone ⟨y, (hvalid y).mpr hy⟩
  omega

theorem State.Inv.ctValid_of_dec (hp : s.phase = .dec) : s.ctValid = true := h.flags.in_session (.inr (.inr hp))

end Invariant

/-! ### MISSING_CODE (rule R157) -/

/-- The bits of a byte whose first 1 is at a position: zeros, the 1, and as many bits as the position says. -/
theorem bitsOfByte_of_first_one {byte : Byte} {i : Nat} (hi : i ≤ 7) (hone : byte.getLsbD i = true)
    (hzero : ∀ j, i < j → j ≤ 7 → byte.getLsbD j = false) :
    bitsOfByte byte = List.replicate (7 - i) false ++ [true] ++ (bitsOfByte byte).drop (8 - i) := by
  conv_lhs => rw [← List.take_append_drop (8 - i) (bitsOfByte byte)]
  congr 1
  refine List.ext_getElem? fun j => ?_
  rw [List.getElem?_take]
  split
  · rename_i hj
    rw [bitsOfByte_getElem? byte (by omega), List.getElem?_append, List.length_replicate]
    split
    · rw [List.getElem?_replicate_of_lt ‹_›, hzero (7 - j) (by omega) (by omega)]
    · obtain rfl : j = 7 - i := by omega
      rw [show 7 - (7 - i) = i by omega, hone]
      simp
  · rw [List.getElem?_eq_none (by simp; omega)]

theorem payload_replicate {ct : Vector CodeEntry 256} {sym : Sym} {b : Bool} (hb : (codeAt ct sym).bits = [b])
    (n : Nat) : payload ct (List.replicate n sym) = List.replicate n b := by
  induction n with
  | zero => rfl
  | succ n ih => rw [List.replicate_succ, payload_cons, ih, hb, List.singleton_append, List.replicate_succ]

/-- Settles O47: a complete code leaves no bit without a match; with the one code "0" the zeros are matched and the 1 is
not. -/
theorem missingCodeNeedsOneSymbol : Obligations.MissingCodeNeedsOneSymbol := by
  unfold Obligations.MissingCodeNeedsOneSymbol
  intro byte s h hp
  have hv := h.ctValid_of_dec hp
  have hx := h.decoder.match_dec hp
  refine ⟨fun halpha t ht => ?_, fun halpha i hi hone hzero hdue => ?_⟩
  · by_cases hr : s.decRem = 0
    · rw [exec_decByte_of_done hp hr] at ht
      cases ht
      simp
    · rw [exec_decByte hp hr] at ht
      cases ht
      rw [decodeBits_err_of_total hx fun x b => h.match_total hv halpha b,
        h.faultRecord.code_eq_none (by simp [hp])]
      decide
  · obtain ⟨-, -, -, -, hmissing⟩ := codeTableIsACompletePrefixCode s h hv
    obtain ⟨hin, hno⟩ := hmissing halpha
    obtain ⟨sym, hsym⟩ := h.exists_code hv
    have hlen : ((bitsOfByte byte).drop (8 - i)).length = i := by simp; omega
    refine ⟨_, decByteMissingCodeKeepsEarlierSymbols byte s (List.replicate (7 - i) sym) [true]
      ((bitsOfByte byte).drop (8 - i)) hp (by simpa using hdue) (h.prefixFree hv) (h.codesNonempty hv) hx
      (fun y hy => List.eq_of_mem_replicate hy ▸ hsym) ?_ (by simp) (.inl rfl) hin
      (fun y hy e => hno y hy (e ▸ List.prefix_rfl)), by rw [hlen]; rfl, rfl⟩
    rw [h.partialMatch_of_one hv halpha hx, List.nil_append, payload_replicate (h.code_of_one hv halpha hsym)]
    exact bitsOfByte_of_first_one hi hone hzero

/-! ### A decode session (rule R155) -/

theorem runWords_inv {ws : List Word} {s t : State} (h : s.Inv) (ht : runWords ws s = .next t) : t.Inv := by
  induction ws generalizing s with
  | nil => cases ht; exact h
  | cons w ws ih =>
    rw [runWords, step_presentWord] at ht
    split at ht
    · exact ih (acceptWord_inv h ‹_›) ht
    · cases ht
    · cases ht

/-- A stretch from the front of a payload and its padding is the codes of the first symbols and a rest, which is a
partial match while symbols remain. -/
theorem exists_parse {ct : Vector CodeEntry 256} {text : List Sym} {x pad : BitString}
    (hcodes : ∀ y ∈ text, (codeAt ct y).valid = true) (hx : x <+: payload ct text ++ pad) :
    ∃ now due rest, text = now ++ due ∧ x = payload ct now ++ rest ∧ (due = [] ∨ PartialMatch ct rest) := by
  induction text generalizing x with
  | nil => exact ⟨[], [], x, rfl, rfl, .inl rfl⟩
  | cons sym text ih =>
    rw [List.forall_mem_cons] at hcodes
    obtain ⟨hsym, htext⟩ := hcodes
    rw [payload_cons, List.append_assoc] at hx
    by_cases hcode : (codeAt ct sym).bits <+: x
    · obtain ⟨y, rfl⟩ := hcode
      obtain ⟨now, due, rest, rfl, rfl, hrest⟩ := ih htext ((List.prefix_append_right_inj _).mp hx)
      exact ⟨sym :: now, due, rest, rfl, by rw [payload_cons, List.append_assoc], hrest⟩
    · have hpart : x <+: (codeAt ct sym).bits :=
        (List.prefix_or_prefix_of_prefix hx (List.prefix_append _ _)).resolve_right hcode
      have hlt : x.length < (codeAt ct sym).bits.length :=
        lt_of_not_ge fun hle => hcode (hpart.eq_of_length_le hle ▸ List.prefix_rfl)
      exact ⟨[], sym :: text, x, rfl, rfl, .inr (partialMatch_of_code hsym hpart hlt)⟩

theorem payload_append (ct : Vector CodeEntry 256) (a b : List Sym) :
    payload ct (a ++ b) = payload ct a ++ payload ct b :=
  List.flatMap_append

/-- In phase DEC the symbols of `text` are due, and with the bits `y` still to come the stream ends in their codes and
less than a byte of padding (R139, R151). -/
structure Awaiting (s : State) (text : List Sym) (y : BitString) : Prop where
  inv : s.Inv
  phase : s.phase = .dec
  codes : ∀ z ∈ text, (codeAt s.ct z).valid = true
  due : s.decRem.toNat = text.length
  bits : ∃ pad, s.dacc ++ y = payload s.ct text ++ pad ∧ pad.length < 8

namespace Awaiting
variable {s : State} {text : List Sym} {y : BitString}

theorem prefixFree (h : Awaiting s text y) : PrefixFree s.ct := h.inv.prefixFree (h.inv.ctValid_of_dec h.phase)

theorem codesNonempty (h : Awaiting s text y) : CodesNonempty s.ct := h.inv.codesNonempty (h.inv.ctValid_of_dec h.phase)

theorem partialMatch (h : Awaiting s text y) : PartialMatch s.ct s.dacc := h.inv.decoder.match_dec h.phase

/-- No symbol is due when no bit is to come: its code would lie within the partial match. -/
theorem text_eq_nil (h : Awaiting s text []) : text = [] := by
  obtain ⟨pad, hbits, -⟩ := h.bits
  cases text with
  | nil => rfl
  | cons sym text =>
    rw [List.append_nil, payload_cons, List.append_assoc] at hbits
    exact absurd (hbits ▸ List.prefix_append _ _)
      (h.prefixFree.not_prefix_partialMatch h.codesNonempty h.partialMatch (h.codes sym List.mem_cons_self))

/-- While a whole byte is to come a symbol is due: the padding is shorter (R153, R179). -/
theorem decRem_ne_zero {byte : Byte} (h : Awaiting s text (bitsOfByte byte ++ y)) : s.decRem ≠ 0 := by
  intro hr
  obtain ⟨pad, hbits, hpad⟩ := h.bits
  have htext : text = [] := List.length_eq_zero_iff.mp (by simpa [hr] using h.due.symm)
  have hlen := congrArg List.length hbits
  simp [htext, h.inv.decoder.match_done h.phase hr, payload] at hlen
  omega

/-- DEC_BYTE emits the symbols whose codes end in its byte and awaits the others. -/
theorem decByte {byte : Byte} (h : Awaiting s text (bitsOfByte byte ++ y)) :
    ∃ u now due, exec (.decByte byte) s = .next u ∧ u.outs = s.outs ++ now ∧ text = now ++ due ∧ Awaiting u due y := by
  obtain ⟨pad, hbits, hpad⟩ := h.bits
  rw [← List.append_assoc] at hbits
  obtain ⟨now, due, rest, rfl, hnow, hrest⟩ := exists_parse h.codes (hbits ▸ List.prefix_append _ _)
  obtain ⟨hcodes, hlater⟩ := List.forall_mem_append.mp h.codes
  have hlen : s.decRem.toNat = now.length + due.length := h.due.trans List.length_append
  rw [hnow, payload_append, List.append_assoc, List.append_assoc, List.append_cancel_left_eq] at hbits
  have hcases : due = [] ∧ now.length = s.decRem.toNat ∨ now.length < s.decRem.toNat ∧ PartialMatch s.ct rest := by
    cases due with
    | nil => exact .inl ⟨rfl, hlen.symm⟩
    | cons sym due => exact .inr ⟨by simp [hlen], hrest.resolve_left nofun⟩
  have hexec := decByteEmitsTheMatchedSymbols byte s now rest h.phase h.decRem_ne_zero h.prefixFree h.codesNonempty
    h.partialMatch hcodes hnow (hcases.imp_left And.right)
  refine ⟨_, now, due, hexec, rfl, rfl, exec_inv h.inv hexec, h.phase, hlater, ?_, ?_⟩
  · exact (toNat_sub_ofNat (by omega)).trans (by omega)
  · rcases hcases with ⟨rfl, hall⟩ | ⟨hlt, -⟩
    · refine ⟨y, by rw [if_pos hall]; rfl, ?_⟩
      have := congrArg List.length hbits
      simp [payload] at this
      omega
    · exact ⟨pad, by rw [if_neg hlt.ne, hbits], hpad⟩

end Awaiting

/-- One DEC_BYTE per byte to come emits the symbols due (R155). -/
theorem runCommands_decByte (bytes : List Byte) {s : State} {text : List Sym}
    (h : Awaiting s text (bytes.flatMap bitsOfByte)) :
    ∃ t, runCommands (bytes.map .decByte) s = .next t ∧ t.outs = s.outs ++ text ∧ Awaiting t [] [] := by
  induction bytes generalizing s text with
  | nil =>
    obtain rfl := h.text_eq_nil
    exact ⟨s, rfl, by simp, h⟩
  | cons byte bytes ih =>
    obtain ⟨u, now, due, hexec, hu, rfl, hdue⟩ := h.decByte
    obtain ⟨t, hrun, ht, hend⟩ := ih hdue
    exact ⟨t, by rw [List.map_cons, runCommands_cons_of_next hexec, hrun], by rw [ht, hu, List.append_assoc], hend⟩

/-- A decode session over a packed text emits the text and ends in phase READY (R155). -/
theorem runCommands_decodeSession {s : State} {text : List Sym} (h : s.Inv) (hp : s.phase = .ready)
    (htext : text.length < 2 ^ 48) (hcodes : ∀ y ∈ text, (codeAt s.ct y).valid = true) :
    ∃ t, runCommands (.decStart (BitVec.ofNat 48 text.length) ::
        (packAll (payload s.ct text)).map .decByte ++ [.decEnd]) s = .next t ∧
      t.outs = s.outs ++ text ∧ t.phase = .ready := by
  obtain ⟨-, -, n, hn, hpack⟩ := packedBytesAreMostSignificantFirst (payload s.ct text)
  have hstart := exec_decStart hp (BitVec.ofNat 48 text.length)
  obtain ⟨t, hrun, ht, hend⟩ := runCommands_decByte (packAll (payload s.ct text)) (text := text)
    ⟨exec_inv h hstart, rfl, hcodes, Nat.mod_eq_of_lt htext, _, hpack, by simpa using hn⟩
  refine ⟨{ t with phase := .ready }, ?_, ht, rfl⟩
  rw [List.cons_append, runCommands_cons_of_next hstart, runCommands_append_of_next hrun,
    runCommands_cons_of_next (exec_decEnd_of_done hend.phase (BitVec.eq_of_toNat_eq hend.due)), runCommands_nil]

/-- Settles O59: the encode session leaves the packed text and the code table, and the decode session gives the text. -/
theorem decodeSessionInvertsEncodeSession : Obligations.DecodeSessionInvertsEncodeSession := by
  unfold Obligations.DecodeSessionInvertsEncodeSession
  intro s text h hp htext hfreq
  have hv := h.flags.in_session (.inl hp)
  obtain ⟨hvalid, -⟩ := codeTableIsACompletePrefixCode s h hv
  have hcodes (y : Sym) (hy : y ∈ text) : (codeAt s.ct y).valid = true := (hvalid y).mpr (hfreq y hy)
  obtain ⟨cnt, blen, henc, -, -⟩ := encodeSessionEmitsThePackedText s text hp htext
    fun y hy => ⟨hcodes y hy, h.code_len_le y⟩
  have ht := runWords_inv h henc
  obtain ⟨u, hdec, houts, hu⟩ := runCommands_decodeSession ht hp htext hcodes
  exact ⟨_, _, u, henc, rfl, hdec, houts, hu,
    (runWords_inv ht hdec).faultRecord.code_eq_none (by simp [hu])⟩

end Sys2Proof.Machine
end

section
namespace Sys2Proof.Machine

/-! ## The system commands (45_system.md) -/

/-- The phase after a command other than CLEAR: the old one, or one that is not FREQ, reached from one that is not FAULT
(R161, R165). -/
theorem Effect.phase_cases {i : Instr} {s t : State} (e : Effect i s t) :
    i = .clear ∨ t.phase = s.phase ∨ (s.phase ≠ .fault ∧ t.phase ≠ .freq) := by
  cases e with
  | clear => exact .inl rfl
  | nop | rdCsr | rdFreq | rdGroup | rdClen | rdCode | ignored | freqSym | freqLoad | encSym => exact .inr (.inl rfl)
  | sequence _ _ _ _ hf => exact .inr (.inr ⟨hf, by simp⟩)
  | faulted _ _ p hi hp =>
    have hf : s.phase ≠ .fault := fun h => legalPhase_ne_fault i (by rw [hi, ← hp, h])
    exact .inr (.inr ⟨hf, by simp⟩)
  | tbBuild _ hp => exact .inr (.inr ⟨by simp [hp], by simp [State.buildTree]⟩)
  | ctGen _ _ hp | encStart _ hp | encEnd _ hp | decStart _ _ hp | decEnd _ hp =>
    exact .inr (.inr ⟨by simp [hp], by simp⟩)
  | decByte _ b hp =>
    obtain ⟨-, ⟨hsame, -⟩ | ⟨hfault, -⟩⟩ := decodeBits_outcome b [7, 6, 5, 4, 3, 2, 1, 0] s
    · exact .inr (.inl hsame)
    · exact .inr (.inr ⟨by simp [hp], by simp [hfault]⟩)

theorem Effect.eq_clear_of_leaves_fault {i : Instr} {s t : State} (e : Effect i s t) (hs : s.phase = .fault)
    (ht : t.phase ≠ .fault) : i = .clear := by
  rcases e.phase_cases with hi | hsame | ⟨hf, -⟩
  · exact hi
  · exact absurd (hsame.trans hs) ht
  · exact absurd hs hf

theorem Effect.eq_clear_of_enters_freq {i : Instr} {s t : State} (e : Effect i s t) (hs : s.phase ≠ .freq)
    (ht : t.phase = .freq) : i = .clear := by
  rcases e.phase_cases with hi | hsame | ⟨-, hf⟩
  · exact hi
  · exact absurd (hsame.symm.trans ht) hs
  · exact absurd ht hf

/-- An index past the assigned registers reads as zero (R50). -/
theorem csrWord_unassigned (s : State) {idx : Byte} (h : 0x0C ≤ idx.toNat) : csrWord s idx = 0 := by
  unfold csrWord
  split
  case h_13 => rfl
  all_goals omega

/-- Settles O10: the encoder's word for NOP is zero. -/
theorem nopDoesNothing : Obligations.NopDoesNothing := by
  unfold Obligations.NopDoesNothing
  exact ⟨fun _ => rfl, onlyWord_of_encode rfl⟩

/-- Settles O11: the phases by the effects a command can have, the values as after reset. -/
theorem clearStartsANewInvocation : Obligations.ClearStartsANewInvocation := by
  unfold Obligations.ClearStartsANewInvocation
  refine ⟨onlyWord_of_encode rfl, fun i s t h => ?_, fun s => ⟨s.cleared, rfl, ?_⟩⟩
  · exact ⟨(exec_effect h).eq_clear_of_leaves_fault, (exec_effect h).eq_clear_of_enters_freq⟩
  · exact ⟨rfl, reset_freqAt, reset_groupAt, rfl, rfl, rfl, rfl, rfl, rfl, reset_codeAt, rfl, rfl, rfl, rfl, rfl, rfl,
      rfl, rfl, rfl, rfl, rfl, rfl⟩

/-- Settles O12: the answer is the register's word, zero past the assigned registers. -/
theorem rdCsrAnswersTheRegister : Obligations.RdCsrAnswersTheRegister := by
  unfold Obligations.RdCsrAnswersTheRegister
  exact fun idx s => ⟨onlyWord_of_encode rfl, rfl, csrWord_unassigned s⟩

end Sys2Proof.Machine
end

section
namespace Sys2Proof.Machine

/-! ## Phases and stores (46_laws.md rules R165, R168) -/

/-- The row of a command that is legal in every phase (R165). -/
theorem Effect.phase_of_every_phase {i : Instr} {s t : State} (e : Effect i s t) (hi : legalPhase i = none) :
    t.phase = successPhase s.phase i := by
  cases e with
  | nop | clear | rdCsr | rdFreq | rdGroup | rdClen | rdCode => rfl
  | ignored _ _ _ hbound | sequence _ _ _ hbound | faulted _ _ _ hbound => cases hi.symm.trans hbound
  | freqSym | freqLoad | tbBuild | ctGen | encStart | encSym | encEnd | decStart | decByte | decEnd => cases hi

/-- The row of a command that is legal in phase `p` only (R165): ignored in phase FAULT, SEQUENCE in another phase, and in
`p` the table's next phase or one of the command's own faults. -/
theorem Effect.phase_of_one_phase {i : Instr} {s t : State} {p : Phase} (e : Effect i s t) (hi : legalPhase i = some p) :
    (s.phase = .fault ∧ t = s) ∨
    (s.phase ≠ .fault ∧ s.phase ≠ p ∧ t.phase = .fault ∧ t.err.code = .sequence) ∨
    (s.phase = p ∧ (t.phase = successPhase p i ∨ (t.phase = .fault ∧ t.err.code ∈ ownFaults i))) := by
  cases e with
  | nop | clear | rdCsr | rdFreq | rdGroup | rdClen | rdCode => cases hi
  | ignored _ _ _ _ hf => exact .inl ⟨hf, rfl⟩
  | sequence _ _ _ hbound hf hp =>
    cases hbound.symm.trans hi
    exact .inr (.inl ⟨hf, hp, rfl, rfl⟩)
  | faulted _ _ _ hbound hp _ _ hc =>
    cases hbound.symm.trans hi
    exact .inr (.inr ⟨hp, .inr ⟨rfl, hc⟩⟩)
  | freqSym _ _ hp | freqLoad _ _ _ hp | encSym _ _ hp =>
    cases hi
    exact .inr (.inr ⟨hp, .inl hp⟩)
  | tbBuild _ hp | ctGen _ _ hp | encStart _ hp | encEnd _ hp | decStart _ _ hp | decEnd _ hp =>
    cases hi
    exact .inr (.inr ⟨hp, .inl rfl⟩)
  | decByte _ b hp =>
    cases hi
    obtain ⟨-, ⟨hsame, -⟩ | ⟨hfault, aux, bp, herr⟩⟩ := decodeBits_outcome b [7, 6, 5, 4, 3, 2, 1, 0] s
    · exact .inr (.inr ⟨hp, .inl (hsame.trans hp)⟩)
    · exact .inr (.inr ⟨hp, .inr ⟨hfault, by simp [herr, ownFaults]⟩⟩)

/-- The row of the illegal encodings (R165, R175, R181). -/
theorem acceptIllegal_phase (w : Word) (s : State) : ∃ t, acceptIllegal w s = .next t ∧
    (s.phase = .fault → t = s) ∧ (s.phase ≠ .fault → t.phase = .fault ∧ t.err.code = .illegalCmd) := by
  unfold acceptIllegal
  split
  next hf => exact ⟨s, rfl, fun _ => rfl, fun h => absurd hf h⟩
  next hf => exact ⟨_, rfl, fun h => absurd h hf, fun _ => ⟨rfl, rfl⟩⟩

/-- Settles O51: the rows of the commands by the effects a command can have, the last row by the illegal words. -/
theorem phaseTransitions : Obligations.PhaseTransitions := by
  unfold Obligations.PhaseTransitions
  refine ⟨fun i s t h => ⟨(exec_effect h).phase_of_every_phase, fun p hi => ?_⟩, fun w s hw => ?_⟩
  · have hp : p ≠ .fault := fun e => legalPhase_ne_fault i (e ▸ hi)
    rcases (exec_effect h).phase_of_one_phase hi with ⟨hf, ht⟩ | ⟨hf, hne, ht⟩ | ⟨rfl, ht⟩
    · exact ⟨fun _ => ht, fun hs => absurd hf hs, fun hs => absurd (hs.symm.trans hf) hp⟩
    · exact ⟨fun hs => absurd hs hf, fun _ _ => ht, fun hs => absurd hs hne⟩
    · exact ⟨fun hs => absurd hs hp, fun _ hs => absurd rfl hs, fun _ => ht⟩
  · rw [step_presentWord, acceptWord_of_no_decode hw]
    exact acceptIllegal_phase w s

/-- Settles O52, by the frame of every effect a command can have; DEC_BYTE writes `ERR` only with phase FAULT. -/
theorem onlyListedCommandsWriteEachStore : Obligations.OnlyListedCommandsWriteEachStore := by
  unfold Obligations.OnlyListedCommandsWriteEachStore
  intro i s t h hclear
  cases exec_effect h with
  | clear => exact absurd rfl hclear
  | nop | rdCsr | rdFreq | rdGroup | rdClen | rdCode | ignored | sequence | faulted => simp
  | freqSym | freqLoad | ctGen | encStart | encSym | encEnd | decStart | decEnd => simp
  | tbBuild =>
    obtain ⟨gt, n, pl, root, hb⟩ := buildTree_frame s (alphabetSize s.ft)
    simp [hb]
  | decByte _ b =>
    obtain ⟨outs, dacc, rem, cnt, err, phase, hb⟩ := decodeBits_frame b [7, 6, 5, 4, 3, 2, 1, 0] s
    obtain ⟨-, hout⟩ := decodeBits_outcome b [7, 6, 5, 4, 3, 2, 1, 0] s
    rw [hb] at hout ⊢
    have herr : err ≠ s.err → phase = .fault := fun hne => hout.elim (fun hsame => absurd hsame.2 hne) And.left
    simpa using herr

end Sys2Proof.Machine
end

section
namespace Sys2Proof.Machine

/-! ## Faults (60_exceptions.md rules R176 to R184) -/

/-! ### What a command can do to the fault record -/

/-- A command with a legal phase is legal in that phase only (R176, R181). -/
theorem onlyIn_of_legalPhase {i : Instr} {p : Phase} (h : legalPhase i = some p) : OnlyIn p i := by
  cases i with
  | nop | clear | rdCsr | rdFreq | rdGroup | rdClen | rdCode => cases h
  | freqSym | freqLoad | tbBuild | ctGen | encStart | encSym | encEnd | decStart | decByte | decEnd =>
    cases h
    exact onlyIn_of_inPhase fun _ => rfl

theorem sequence_notMem_ownFaults (i : Instr) : FaultCode.sequence ∉ ownFaults i := by cases i <;> simp [ownFaults]

/-- After a command the record is the old one or the empty one, or its cause is SEQUENCE outside the command's phase or
one of the command's own faults. -/
theorem Effect.err_cases {i : Instr} {s t : State} (e : Effect i s t) :
    t.err = s.err ∨ t.err = ErrRecord.zero ∨
    (t.err.code = .sequence ∧ ∃ p, legalPhase i = some p ∧ s.phase ≠ p) ∨ t.err.code ∈ ownFaults i := by
  cases e with
  | nop | rdCsr | rdFreq | rdGroup | rdClen | rdCode | ignored | freqSym | freqLoad | ctGen | encStart | encSym | encEnd
  | decStart | decEnd => exact .inl rfl
  | clear => exact .inr (.inl rfl)
  | sequence _ _ p hi _ hp => exact .inr (.inr (.inl ⟨rfl, p, hi, hp⟩))
  | faulted _ _ _ _ _ _ _ hc => exact .inr (.inr (.inr hc))
  | tbBuild =>
    obtain ⟨gt, n, pl, root, hb⟩ := buildTree_frame s (alphabetSize s.ft)
    exact .inl (by rw [hb])
  | decByte _ b =>
    obtain ⟨-, ⟨-, hsame⟩ | ⟨-, aux, bp, herr⟩⟩ := decodeBits_outcome b [7, 6, 5, 4, 3, 2, 1, 0] s
    · exact .inl hsame
    · exact .inr (.inr (.inr (by simp [herr, ownFaults])))

/-- Settles O48: the phase check is the same for every phase-bound command, and no command has SEQUENCE for a fault of its
own. -/
theorem wrongPhaseRaisesSequence : Obligations.WrongPhaseRaisesSequence := by
  unfold Obligations.WrongPhaseRaisesSequence
  refine fun i s => ⟨fun p hi => onlyIn_of_legalPhase hi s, fun hlegal hs t h => ?_⟩
  rcases (exec_effect h).err_cases with hsame | hzero | ⟨-, p, hi, hp⟩ | hown
  · rwa [hsame]
  · rw [hzero]
    nofun
  · rcases hlegal with hnone | hhere
    · cases hnone.symm.trans hi
    · exact absurd (Option.some.inj (hhere.symm.trans hi)) hp
  · exact fun hseq => sequence_notMem_ownFaults i (hseq ▸ hown)

/-! ### Entering phase FAULT (rules R178, R184) -/

/-- A fault in the loop of DEC_BYTE is the fault sequence after what the earlier bits did (R184). -/
theorem decodeBits_eq_raise {byte : Byte} {is : List Nat} {s : State} (hs : s.phase ≠ .fault)
    (ht : (decodeBits byte is s).phase = .fault) : ∃ outs dacc rem cnt aux bp, decodeBits byte is s =
      State.raise { s with outs := outs, dacc := dacc, decRem := rem, decSymcnt := cnt }
        0x41 byte .missingCode aux bp := by
  obtain ⟨outs, dacc, rem, cnt, err, phase, hb⟩ := decodeBits_frame byte is s
  obtain ⟨-, ⟨hsame, -⟩ | ⟨hphase, aux, bp, herr⟩⟩ := decodeBits_outcome byte is s
  · exact absurd (hsame.symm.trans ht) hs
  · refine ⟨outs, dacc, rem, cnt, aux, bp, ?_⟩
    rw [hb] at hphase herr ⊢
    cases hphase
    cases herr
    rfl

/-- A command enters phase FAULT by the fault sequence, DEC_BYTE alone after effects of its own (R178, R184). -/
theorem Effect.eq_raise_of_enters_fault {i : Instr} {s t : State} (e : Effect i s t) (hs : s.phase ≠ .fault)
    (ht : t.phase = .fault) :
    (∃ c aux, c ≠ .none ∧ t = s.raise i.op i.a c aux 0) ∨
    ∃ byte outs dacc rem cnt aux bp, i = .decByte byte ∧
      t = State.raise { s with outs := outs, dacc := dacc, decRem := rem, decSymcnt := cnt }
        0x41 byte .missingCode aux bp := by
  cases e with
  | sequence => exact .inl ⟨.sequence, 0, nofun, rfl⟩
  | faulted _ _ _ _ _ c aux hc => exact .inl ⟨c, aux, fun h => none_notMem_ownFaults i (h ▸ hc), rfl⟩
  | decByte _ b =>
    obtain ⟨outs, dacc, rem, cnt, aux, bp, hb⟩ := decodeBits_eq_raise hs ht
    exact .inr ⟨b, outs, dacc, rem, cnt, aux, bp, rfl, hb⟩
  | nop | rdCsr | rdFreq | rdGroup | rdClen | rdCode | ignored | freqSym | freqLoad | encSym => exact absurd ht hs
  | clear | tbBuild | ctGen | encStart | encEnd | decStart | decEnd => cases ht

/-- Settles O50: the record and the frame are read off the fault sequence. -/
theorem faultSequenceRecordsTheCommand : Obligations.FaultSequenceRecordsTheCommand := by
  unfold Obligations.FaultSequenceRecordsTheCommand
  intro i s t hs h ht
  rcases (exec_effect h).eq_raise_of_enters_fault hs ht with
    ⟨c, aux, hc, rfl⟩ | ⟨byte, outs, dacc, rem, cnt, aux, bp, rfl, rfl⟩
  · exact ⟨hc, rfl, rfl, rfl, fun _ => ⟨rfl, rfl⟩, rfl⟩
  · exact ⟨nofun, rfl, rfl, rfl, fun hne => absurd rfl (hne byte), rfl⟩

/-- Settles O44: with no symbol due DEC_BYTE is the fault sequence alone. -/
theorem decByteAfterTheEndFaults : Obligations.DecByteAfterTheEndFaults := by
  unfold Obligations.DecByteAfterTheEndFaults
  refine fun byte => ⟨onlyWord_of_encode rfl, fun s hp hr => ?_, onlyIn_of_inPhase fun _ => rfl⟩
  rw [exec_decByte_of_done hp hr, State.raise, hp]

/-! ### In phase FAULT (rules R181, R182) -/

section InFault
variable {s t : State} (hs : s.phase = .fault)
include hs

/-- In phase FAULT a command other than CLEAR answers a response word at most. -/
theorem Effect.eq_or_emitRsp_of_fault {i : Instr} (e : Effect i s t) (hi : i ≠ .clear) :
    t = s ∨ ∃ v, t = s.emitRsp v := by
  cases e with
  | nop | ignored => exact .inl rfl
  | rdCsr | rdFreq | rdGroup | rdClen | rdCode => exact .inr ⟨_, rfl⟩
  | clear => exact absurd rfl hi
  | sequence _ _ _ _ hf => exact absurd hs hf
  | faulted _ _ _ hbound hp => exact absurd (by rw [hbound, ← hp, hs]) (legalPhase_ne_fault i)
  | freqSym _ _ hp | freqLoad _ _ _ hp | tbBuild _ hp | ctGen _ _ hp | encStart _ hp | encSym _ _ hp | encEnd _ hp
  | decStart _ _ hp | decByte _ _ hp | decEnd _ hp => cases hs.symm.trans hp

theorem acceptWord_illegal_of_fault {w : Word} (hw : ∀ i, decode w ≠ .ok i) : acceptWord w s = .next s := by
  rw [acceptWord_of_no_decode hw, acceptIllegal, if_pos hs]

/-- In phase FAULT a word other than CLEAR's answers a response word at most. -/
theorem acceptWord_eq_or_emitRsp_of_fault {w : Word} (hw : decode w ≠ .ok .clear) (h : acceptWord w s = .next t) :
    t = s ∨ ∃ v, t = s.emitRsp v := by
  by_cases hdec : ∃ i, decode w = .ok i
  · obtain ⟨i, hi⟩ := hdec
    rw [acceptWord_of_decode hi] at h
    exact (exec_effect h).eq_or_emitRsp_of_fault hs fun e => hw (e ▸ hi)
  · rw [acceptWord_illegal_of_fault hs (not_exists.mp hdec)] at h
    cases h
    exact .inl rfl

/-- Phase FAULT is left by CLEAR or a reset (R182). -/
theorem hostEvent_leaves_fault {e : HostEvent} (h : hostEvent e s = .next t) (ht : t.phase ≠ .fault) :
    (e = .cmd (encode .clear) ∧ t = s.cleared) ∨ ((e = .reset ∨ ∃ w, e = .resetDuring w) ∧ t = s.wasReset) := by
  cases e with
  | reset => cases h; exact .inr ⟨.inl rfl, rfl⟩
  | resetDuring w => cases h; exact .inr ⟨.inr ⟨w, rfl⟩, rfl⟩
  | takeRsp | takeOutb | takeOuts => cases h; exact absurd hs ht
  | cmd w =>
    have hw : decode w = .ok .clear := by
      by_contra hw
      rcases acceptWord_eq_or_emitRsp_of_fault hs hw h with rfl | ⟨v, rfl⟩ <;> exact ht hs
    cases (acceptWord_of_decode hw s).symm.trans h
    exact .inl ⟨by rw [decode_eq_ok_iff.mp hw], rfl⟩

end InFault

/-- Settles O49: a phase-bound command and an illegal word are ignored, and every other word but CLEAR's answers a response
word at most. -/
theorem faultPhaseIgnoresWords : Obligations.FaultPhaseIgnoresWords := by
  unfold Obligations.FaultPhaseIgnoresWords
  intro s w hs
  simp only [step_presentWord]
  refine ⟨fun hbound => ?_, fun i hi _ => acceptWord_of_decode hi s, fun hw t h => ?_⟩
  · by_cases hdec : ∃ i, decode w = .ok i
    · obtain ⟨i, hi⟩ := hdec
      obtain ⟨p, hp⟩ := Option.ne_none_iff_exists'.mp (hbound i hi)
      rw [acceptWord_of_decode hi]
      exact (onlyIn_of_legalPhase hp s).1 hs
    · exact acceptWord_illegal_of_fault hs (not_exists.mp hdec)
  · rcases acceptWord_eq_or_emitRsp_of_fault hs hw h with rfl | ⟨v, rfl⟩ <;> exact ⟨rfl, hs, rfl, rfl⟩

/-- Settles O54: CLEAR and both resets leave the tables, the record and the phase of reset. -/
theorem onlyClearOrResetLeavesFault : Obligations.OnlyClearOrResetLeavesFault := by
  unfold Obligations.OnlyClearOrResetLeavesFault
  intro s t hs h ht
  rw [step, nextInput] at h
  split at h
  next => cases h; exact absurd hs ht
  next e rest hhost =>
    rcases hostEvent_leaves_fault (s := { s with host := rest }) hs h ht with
      ⟨rfl, rfl⟩ | ⟨rfl | ⟨w, rfl⟩, rfl⟩
    · exact ⟨⟨rest, .inl hhost⟩, rfl, rfl, rfl, rfl, rfl, rfl, rfl, rfl⟩
    · exact ⟨⟨rest, .inr (.inl hhost)⟩, rfl, rfl, rfl, rfl, rfl, rfl, rfl, rfl⟩
    · exact ⟨⟨rest, .inr (.inr ⟨w, hhost⟩)⟩, rfl, rfl, rfl, rfl, rfl, rfl, rfl, rfl⟩

/-! ### The interrupt line (rule R183) -/

theorem errIrq_iff (s : State) : s.errIrq = true ↔ s.err.code ≠ .none := bne_iff_ne

/-- Settles O55: the line is a function of the record, which the fault sequence writes and CLEAR and reset empty. -/
theorem errIrqFollowsTheFaultRecord : Obligations.ErrIrqFollowsTheFaultRecord := by
  unfold Obligations.ErrIrqFollowsTheFaultRecord
  refine fun s => ⟨errIrq_iff s, ?_, fun h => (errIrq_iff s).trans h.faultRecord.fault_iff.symm, fun i t hs h ht => ?_,
    fun t h => ?_, rfl⟩
  · obtain ⟨-, -, -, hpending, -⟩ := csrStatus_fields s
    rw [csrWord_status]
    exact hpending
  · obtain ⟨hcode, -⟩ := faultSequenceRecordsTheCommand i s t hs h ht
    exact (errIrq_iff t).mpr hcode
  · cases h
    rfl

end Sys2Proof.Machine
end

section
namespace Sys2Proof.Machine

/-! ## Compress and decompress (70_reset_and_hazards.md rule R204) -/

/-- COMPRESS clears, counts the text, builds its codes and encodes it (R89). -/
theorem compress_expand (text : List Sym) : (Pseudo.compress text).expand =
    .clear :: (Pseudo.freqText text).expand ++ (Pseudo.build.expand ++ (Pseudo.encText text).expand) := by
  simp [Pseudo.expand]

/-- CLEAR and the counting of a text write `FT` over the cleared state, and nothing else (R100, R161). -/
theorem runCommands_clear_freqText (s : State) {text : List Sym} (hlen : text.length < 2 ^ 32) :
    ∃ ft : Vector Count 256,
      runCommands (.clear :: (Pseudo.freqText text).expand) s = .next { s.cleared with ft := ft } ∧
      ∀ y, (freqAt ft y).toNat = text.count y := by
  have hzero (y : Sym) : (freqAt s.cleared.ft y).toNat = 0 := congrArg BitVec.toNat (reset_freqAt y)
  obtain ⟨ft, hrun, hft⟩ := runCommands_freqSym text (s := s.cleared) rfl fun y => by
    rw [hzero, Nat.zero_add]
    exact List.count_le_length.trans_lt hlen
  exact ⟨ft, (runCommands_cons_of_next rfl).trans hrun, fun y => by rw [hft, hzero, Nat.zero_add]⟩

/-- BUILD leads from phase FREQ to phase READY where a symbol is present, and writes neither `FT` nor a channel
(R113, R130). -/
theorem runCommands_build {s : State} (h : s.Inv) (hp : s.phase = .freq) (hl : alphabetSize s.ft ≠ 0) :
    ∃ t, runCommands Pseudo.build.expand s = .next t ∧ t.phase = .ready ∧ t.ft = s.ft ∧ t.outb = s.outb ∧
      t.outs = s.outs := by
  have htree := exec_tbBuild hp hl
  have hinv := h.buildTree hp hl
  obtain ⟨gt, n, pl, root, hb⟩ := buildTree_frame s (alphabetSize s.ft)
  rw [hb] at htree hinv
  obtain ⟨ct, hct⟩ := (hinv.tables.tree rfl).codeTableOf_completes
  exact ⟨_, (runCommands_cons_of_next htree).trans (runCommands_cons_of_next (exec_ctGen rfl hct)), rfl, rfl, rfl, rfl⟩

/-- An encode session over symbols that have a count leaves their number in `ENC_SYMCNT` (R144). -/
theorem encSymcnt_of_encodeSession {s t : State} {text : List Sym} (h : s.Inv) (hp : s.phase = .ready)
    (htext : text.length < 2 ^ 48) (hfreq : ∀ y ∈ text, freqAt s.ft y ≠ 0)
    (hrun : runCommands (Pseudo.encText text).expand s = .next t) : t.encSymcnt.toNat = text.length := by
  obtain ⟨hvalid, -⟩ := codeTableIsACompletePrefixCode s h (h.flags.in_session (.inl hp))
  obtain ⟨cnt, blen, henc, hcnt, -⟩ := encodeSessionEmitsThePackedText s text hp htext
    fun y hy => ⟨(hvalid y).mpr (hfreq y hy), h.code_len_le y⟩
  cases hrun.symm.trans henc
  exact hcnt

/-- Settles O60: CLEAR meets the invariant from any state, and counting the text gives each of its symbols a count, so that
its codes are built and the sessions over it are inverse (O59). -/
theorem compressThenDecompressRestoresTheText : Obligations.CompressThenDecompressRestoresTheText := by
  unfold Obligations.CompressThenDecompressRestoresTheText
  intro s text hne hlen
  obtain ⟨ft, hcount, hft⟩ := runCommands_clear_freqText s hlen
  have hfreq (y : Sym) (hy : y ∈ text) : freqAt ft y ≠ 0 := fun hz =>
    (List.count_pos_iff.mpr hy).ne' (by rw [← hft, hz]; rfl)
  have hcounted := runWords_inv (cleared_inv s) ((runCommands_cons_of_next rfl).symm.trans hcount)
  obtain ⟨y, hy⟩ := List.exists_mem_of_ne_nil text hne
  obtain ⟨r, hbuild, hr, hrft, hroutb, hrouts⟩ := runCommands_build hcounted rfl
    fun hz => hfreq y hy (alphabetSize_eq_zero.mp hz y)
  have hready := runWords_inv hcounted hbuild
  rw [← show r.ft = ft from hrft] at hfreq
  have hlen48 : text.length < 2 ^ 48 := by omega
  obtain ⟨bytes, t, u, henc, houtb, hdec, houts, hu, herr⟩ :=
    decodeSessionInvertsEncodeSession r text hready hr hlen48 hfreq
  have hcnt := encSymcnt_of_encodeSession hready hr hlen48 hfreq henc
  refine ⟨bytes, t, u, ?_, by rw [houtb, hroutb]; rfl, hcnt, ?_, by rw [houts, hrouts]; rfl, hu, herr⟩
  · rw [compress_expand, runCommands_append_of_next hcount, runCommands_append_of_next hbuild]
    exact henc
  · rw [show t.encSymcnt = BitVec.ofNat 48 text.length by simp [← hcnt]]
    exact hdec

end Sys2Proof.Machine
end
